-- ==== Sys2Proof/Word.lean ====
section
/-! DEFINITION. The word types of the CXB (00_scope.md R9, 10_state.md R32): an 8-bit byte of BUF,
the 64-bit word of a host register, and the 32-bit offset a host access names (20_memory.md R81). -/

namespace Sys2Proof

/-- One byte: a BUF byte, a symbol, a CLEN or QTAB entry, an IMM or OPC field. -/
abbrev Byte := BitVec 8

/-- The contents of one host register, or one command word (R32, R110). -/
abbrev Word64 := BitVec 64

/-- A host byte address relative to the CXB base (R81). -/
abbrev Offset := BitVec 32

end Sys2Proof
end

