-- ==== Sys2Proof/Config.lean ====
section
/-! DEFINITION. What an implementation fixes: the constants of 00_scope.md R7, the parameter AW, the
two platform parameters the spec leaves OPEN, and the free values of 93_implementation_defined.md
section 3, each an opaque constant so that nothing can be proved about its value. -/

namespace Sys2Proof.Config

/-- BUF_BASE (R7, R81): the offset of BUF byte 0. -/
def bufBase : Nat := 0x01000000
/-- ALPHA (R7): the number of byte values. -/
def alpha : Nat := 256
/-- MAX_CLEN (R7): the largest code length. -/
def maxClen : Nat := 255
/-- PUT_MAX (R7): the largest bit count of one BSW_PUT or BSR_GET. -/
def putMax : Nat := 64
/-- LZ77_W (R7): the LZ77 window, in bytes. -/
def lz77Window : Nat := 4096
/-- LZ77_OFF_BITS (R7): the width of a match token's offset field. -/
def lz77OffBits : Nat := 12
/-- LZ77_MIN (R7): the minimum match length. -/
def lz77Min : Nat := 3
/-- LZ77_LEN_BITS (R7): the width of a match token's length field. -/
def lz77LenBits : Nat := 8
/-- LZ77_MAX (R7): the maximum match length. -/
def lz77Max : Nat := 258
/-- LZ78_IDX_BITS (R7): the width of an LZ78 token's index field. -/
def lz78IdxBits : Nat := 12
/-- LZ78_DICT (R7): the dictionary entries, entry 0 among them. -/
def lz78Dict : Nat := 4096
/-- The exponent of the rounding divisor 2^24 of R252 and R253, twice that of T_SCALE = 2^12. -/
def dctShift : Nat := 24
/-- Q_DC_CAP (R7): the largest DC quantization step. -/
def qDcCap : Nat := 8

/-- AW (R7): the BUF address width, 12 to 24. State carries it, so a statement about every state
is a statement about every legal AW (assumption 2). -/
abbrev AddrWidth := { n : Nat // 12 ≤ n ∧ n ≤ 24 }

/-- The default AW (R7). -/
def defaultAw : AddrWidth := ⟨20, by decide⟩

/-- CXB_BASE (R81): where the platform puts the CXB; OPEN, so nothing constrains it. -/
opaque cxbBase : Nat

/-- CXB_IRQ_LINE (R320): the platform's number of the line IRQ drives; OPEN. -/
opaque irqLine : Nat

/-- The byte at a BUF address that nothing has written since power-on number `power`: any value
(R350; assumption 3). -/
opaque powerOnByte (power addr : Nat) : Byte

/-- The `item`-th unspecified 64-bit value of draw number `draw`: OUT0 to OUT2 after a run-time
error (R318), and what a host read returns while the engine is busy (R360) (assumption 4). -/
opaque freeWord (draw item : Nat) : Word64

/-- The `item`-th unspecified hidden stream field of draw number `draw` (R318; assumption 4). -/
opaque freeNat (draw item : Nat) : Nat

/-- The unspecified byte draw number `draw` leaves at a BUF address (R318, R352; assumption 4). -/
opaque freeByte (draw addr : Nat) : Byte

end Sys2Proof.Config
end

