-- ==== Sys2Proof/Machine/Arith.lean ====
section
/-! DEFINITION. The arithmetic and bit primitives of 00_scope.md R9 to R12, on mathematical
integers, and the small list and vector helpers the rules' tables and loops use. -/

namespace Sys2Proof.Machine

/-- R10: `clamp(v, lo, hi)`. -/
def clamp (v lo hi : Int) : Int := max lo (min hi v)

/-- R10: `sat16(v)`. -/
def sat16 (v : Int) : Int := clamp v (-32768) 32767

/-- R10: `ceil(a/b)` for b > 0. -/
def ceilDiv (a b : Nat) : Nat := (a + b - 1) / b

/-- R11: `rdiv(a, b)`, rounding to nearest with halves away from zero, for b > 0. -/
def rdiv (a : Int) (b : Nat) : Int :=
  let q : Int := ((2 * a.natAbs + b) / (2 * b) : Nat)
  if a < 0 then -q else q

/-- R12: `be16(v)`, the two bytes of `v mod 2^16`, most significant first. -/
def be16 (v : Int) : List Byte :=
  let w := BitVec.ofInt 16 v
  [w.extractLsb' 8 8, w.extractLsb' 0 8]

/-- R12: `sbe16(b0, b1)`, the 16-bit two's complement value of `{b0, b1}`. -/
def sbe16 (b0 b1 : Byte) : Int := (b0 ++ b1).toInt

/-- R142: the `n` low bits of `v`, from bit n - 1 down to bit 0. -/
def bitsOf (v : Nat) : Nat → List Bool
  | 0 => []
  | n + 1 => v.testBit n :: bitsOf v n

/-- R143: the value of bits read most significant first, `v <- 2*v + bit` from 0. -/
def ofBits (bs : List Bool) : Nat := bs.foldl (fun v b => 2 * v + b.toNat) 0

/-- The vector whose entry i is `f i`. -/
def tabulate {α : Type} (n : Nat) (f : Nat → α) : Vector α n := ⟨⟨(List.range n).map f⟩, by simp⟩

/-- The exact sum of the products of two integer lists, entry by entry (R252, R253). -/
def dot (xs ys : List Int) : Int := (List.zipWith (· * ·) xs ys).sum

/-- R210's inner loop: how many leading entries of two byte strings agree, at most `cap`. -/
def matchLen : Nat → List Byte → List Byte → Nat
  | cap + 1, x :: xs, y :: ys => if x = y then matchLen cap xs ys + 1 else 0
  | _, _, _ => 0

end Sys2Proof.Machine
end

