-- ==== Sys2Proof/Machine/Tables.lean ====
section
/-! DEFINITION. The numeric tables of 44_dct.md: the basis matrix T of R250, the base table B and
the quality curve of R251. They stand before the state because QTAB resets to the table of
quality 50 (R46, R54). -/

namespace Sys2Proof.Machine

/-- R250: the rows of T, T[k][n] for frequency k (row) and sample position n (column). -/
def basisRows : List (List Int) :=
  [[1448, 1448, 1448, 1448, 1448, 1448, 1448, 1448],
   [2009, 1703, 1138, 400, -400, -1138, -1703, -2009],
   [1892, 784, -784, -1892, -1892, -784, 784, 1892],
   [1703, -400, -2009, -1138, 1138, 2009, 400, -1703],
   [1448, -1448, -1448, 1448, 1448, -1448, -1448, 1448],
   [1138, -2009, 400, 1703, -1703, -400, 2009, -1138],
   [784, -1892, 1892, -784, -784, 1892, -1892, 784],
   [400, -1138, 1703, -2009, 2009, -1703, 1138, -400]]

/-- R250: T[k][n]. -/
def basis (k n : Nat) : Int := (basisRows.getD k []).getD n 0

/-- R251: the base table B, index 8*u + v. -/
def baseTable : List Nat :=
  [16, 11, 10, 16, 24, 40, 51, 61] ++
  [12, 12, 14, 19, 26, 58, 60, 55] ++
  [14, 13, 16, 24, 40, 57, 69, 56] ++
  [14, 17, 22, 29, 51, 87, 80, 62] ++
  [18, 22, 37, 56, 68, 109, 103, 77] ++
  [24, 35, 55, 64, 81, 104, 113, 92] ++
  [49, 64, 78, 87, 103, 121, 120, 101] ++
  [72, 92, 95, 98, 112, 100, 103, 99]

/-- R251: the scale S of quality q. -/
def qualityScale (q : Nat) : Nat := if q < 50 then 5000 / q else 200 - 2 * q

/-- R251: entry i of the table of quality q, the DC cap included. -/
def qtabEntry (q i : Nat) : Nat :=
  let e := max 1 (min 255 ((baseTable.getD i 0 * qualityScale q + 50) / 100))
  if i = 0 then min e Config.qDcCap else e

/-- R251: the table QT_GEN writes for quality q. -/
def qtabFor (q : Nat) : Vector Byte 64 := tabulate 64 fun i => BitVec.ofNat 8 (qtabEntry q i)

end Sys2Proof.Machine
end

