-- ==== Sys2Proof/Syntax.lean ====
section
/-! DEFINITION. The commands of the CXB: one constructor per row of spec/opcode_table.json, in the
order of 30_encoding.md R113. Only the four commands of R112 carry an immediate; every other
operand is an implicit register (R111). -/

namespace Sys2Proof

/-- A command of the CXB (30_encoding.md R113). -/
inductive Instr where
  /-- NOP, 0x00 (45_control.md R300). -/
  | nop
  /-- BSW_OPEN, 0x10 (41_bitstream.md R144). -/
  | bswOpen
  /-- BSW_PUT n, 0x11 (R145). -/
  | bswPut (n : Byte)
  /-- BSW_FLUSH, 0x12 (R146). -/
  | bswFlush
  /-- BSR_OPEN pad, 0x18 (R147). -/
  | bsrOpen (pad : Byte)
  /-- BSR_GET n, 0x19 (R148). -/
  | bsrGet (n : Byte)
  /-- BSR_ALIGN, 0x1A (R149). -/
  | bsrAlign
  /-- HUF_COUNT, 0x20 (42_huffman.md R170). -/
  | hufCount
  /-- HUF_BUILD, 0x21 (R171, R172). -/
  | hufBuild
  /-- HUF_SERIAL, 0x22 (R173). -/
  | hufSerial
  /-- HUF_DESER, 0x23 (R174). -/
  | hufDeser
  /-- HUF_ENC, 0x24 (R176). -/
  | hufEnc
  /-- HUF_DEC, 0x25 (R177, R178). -/
  | hufDec
  /-- HUF_CODE s, 0x26 (R179). -/
  | hufCode (s : Byte)
  /-- LZ77_FIND, 0x30 (43_lz.md R212). -/
  | lz77Find
  /-- LZ77_ENC, 0x31 (R213). -/
  | lz77Enc
  /-- LZ77_DEC, 0x32 (R214). -/
  | lz77Dec
  /-- LZ78_ENC, 0x38 (R217). -/
  | lz78Enc
  /-- LZ78_DEC, 0x39 (R218). -/
  | lz78Dec
  /-- QT_GEN, 0x40 (44_dct.md R251). -/
  | qtGen
  /-- DCT_FWD, 0x41 (R259). -/
  | dctFwd
  /-- QUANT, 0x42 (R260). -/
  | quant
  /-- DEQUANT, 0x43 (R261). -/
  | dequant
  /-- DCT_INV, 0x44 (R262). -/
  | dctInv
  /-- DCT_ENC, 0x45 (R263). -/
  | dctEnc
  /-- DCT_DEC, 0x46 (R264). -/
  | dctDec
  deriving DecidableEq, Repr

end Sys2Proof
end

