-- ==== Sys2Proof/Machine/State.lean ====
section
/-! DEFINITION. The state of one CXB instance (10_state.md R30) as plain data, why a step can
stop, and the state after a reset (R54). Each piece of state has one home: BUSY is whether
ENG.pending holds a word, and IRQ, ID, STATUS, BS_STAT, BSW_POS, BSR_POS and BSR_END are computed
from the fields here (Machine/Flags.lean). -/

namespace Sys2Proof.Machine

/-- The error kinds of 60_exceptions.md R311. -/
inductive CmdError where
  | invalidQuality
  /-- Reserved: no command raises it (R312). -/
  | unsupportedContentType
  | unsupportedModeForCodec
  | corruptHeader
  | truncatedStream
  | invalidBackReference
  | corruptStream
  | insufficientData
  | illegalCommand
  | badAddress
  | outputOverflow
  | streamNotOpen
  | symbolNotInTable
  deriving DecidableEq, Repr

/-- BUF as the bytes written since power-on, in one canonical form: addresses strictly rising.
An address that is not listed has no value of its own here; the machine reads it as the free
value of assumption 3. -/
abbrev Memory := List Host.Cell

/-- W, the bit writer (R47). -/
structure Writer where
  /-- W.open. -/
  isOpen : Bool
  /-- W.base, a BUF address. -/
  base : Nat
  /-- W.cap, bytes. -/
  cap : Nat
  /-- W.cnt, complete bytes written. -/
  cnt : Nat
  /-- W.acc, the pending partial byte. -/
  acc : Byte
  /-- W.nb, pending bits. -/
  nb : Fin 8
  /-- W.pad, the pad of the last BSW_FLUSH that ended without error. -/
  pad : Fin 8
  deriving DecidableEq, Repr

/-- R, the bit reader (R48). -/
structure Reader where
  /-- R.open. -/
  isOpen : Bool
  /-- R.base, a BUF address. -/
  base : Nat
  /-- R.len, bytes. -/
  len : Nat
  /-- R.end, valid bits. -/
  stop : Nat
  /-- R.pos, bits consumed. -/
  pos : Nat
  deriving DecidableEq, Repr

/-- What a host may do (20_memory.md R95), its polling loop (30_encoding.md R117), and the
platform's power-on (R350). -/
inductive HostAction where
  /-- A bus read of `width` bytes at `addr`. -/
  | read (width : Nat) (addr : Offset)
  /-- A bus write of the low `width` bytes of `value` at `addr`. -/
  | write (width : Nat) (addr : Offset) (value : Word64)
  /-- The host observes the level of IRQ. -/
  | sampleIrq
  /-- R117: `WAIT`, STATUS reads until one reads bit 0 as 0; while a command runs, `polls` more of
  them land before its end. -/
  | wait (polls : Nat)
  /-- Power is removed and applied again. -/
  | powerOn
  deriving DecidableEq, Repr

/-- One host action and when it lands: `early` says that it lands while a command that is then
running has not ended yet; otherwise it waits for that command's end. It has no effect while the
engine is idle. -/
structure HostEvent where
  act : HostAction
  early : Bool
  deriving DecidableEq, Repr

/-- The state of a CXB instance (R30), followed by the model's own fields. -/
structure State where
  /-- AW, the configured BUF address width, which ID shows (R7, R33). No step changes it. -/
  aw : Config.AddrWidth
  /-- CTRL.IEN (R34). -/
  ien : Bool
  /-- STATUS.DONE (R35). -/
  done : Bool
  /-- STATUS.ERR (R35). -/
  err : Bool
  /-- STATUS.WBUSY (R35). -/
  wbusy : Bool
  /-- STATUS.ERRCODE (R35). -/
  errCode : Byte
  /-- STATUS.LASTOP (R35). -/
  lastOp : Byte
  /-- CFG.QUALITY (R37). -/
  quality : BitVec 7
  /-- CFG.MODE, true for lossy (R37). -/
  mode : Bool
  /-- SRC_ADDR (R38). -/
  srcAddr : Word64
  /-- SRC_LEN (R38). -/
  srcLen : Word64
  /-- DST_ADDR (R38). -/
  dstAddr : Word64
  /-- DST_CAP (R38). -/
  dstCap : Word64
  /-- CNT (R38). -/
  cnt : Word64
  /-- BS_DATA (R39). -/
  bsData : Word64
  /-- OUT0 (R40). -/
  out0 : Word64
  /-- OUT1 (R40). -/
  out1 : Word64
  /-- OUT2 (R40). -/
  out2 : Word64
  /-- QTAB_Q (R42). -/
  qtabQ : BitVec 7
  /-- FREQ (R44). -/
  freq : Vector Word64 256
  /-- CLEN (R45). -/
  clen : Vector Byte 256
  /-- QTAB (R46). -/
  qtab : Vector Byte 64
  /-- W (R47). -/
  wr : Writer
  /-- R (R48). -/
  rd : Reader
  /-- ENG.pending (R49). STATUS.BUSY is `pending.isSome`. -/
  pending : Option Word64
  /-- BUF (R80). -/
  buf : Memory
  /-- The model's own: the host's actions still to come, oldest first. -/
  script : List HostEvent
  /-- The model's own: what the host's last read returned. -/
  busData : Word64
  /-- The model's own: how many times unspecified values have been drawn. -/
  draws : Nat
  /-- The model's own: which power-on this is; it selects the free power-on contents of BUF. -/
  power : Nat
  deriving DecidableEq, Repr

/-- Why the machine stops. -/
inductive Fault where
  /-- Raised by the bit writer and the bit reader when a byte of the open stream lies outside BUF,
  where the spec defines no access (R12). Safe: BSW_OPEN and BSR_OPEN check their range, so no
  reachable state raises it (Safety.lean, `State.StreamsInBuf`). -/
  | outsideBuf (addr : Nat)
  deriving DecidableEq, Repr

/-- Why the model has no step. -/
inductive Refusal where
  /-- Raised by exec for an instruction that has no meaning yet; safe. -/
  | notModelled (mnemonic : String)
  /-- Raised by a host access that R83 calls a bus error: "the CXB changes no state and a model
  refuses the access (the host action has no step)". Safe: the spec asks for it. -/
  | busError (width : Nat) (addr : Offset)
  deriving DecidableEq, Repr

/-- W after a reset (R54). -/
def Writer.reset : Writer :=
  { isOpen := false, base := 0, cap := 0, cnt := 0, acc := 0#8, nb := 0, pad := 0 }

/-- R after a reset (R54). -/
def Reader.reset : Reader := { isOpen := false, base := 0, len := 0, stop := 0, pos := 0 }

/-- The state after a power-on reset of a CXB with address width `aw` (R54, R350). -/
def State.resetWith (aw : Config.AddrWidth) : State :=
  { aw := aw, ien := false
    done := false, err := false, wbusy := false, errCode := 0#8, lastOp := 0#8
    quality := 50#7, mode := false
    srcAddr := 0#64, srcLen := 0#64, dstAddr := 0#64, dstCap := 0#64, cnt := 0#64, bsData := 0#64
    out0 := 0#64, out1 := 0#64, out2 := 0#64
    qtabQ := 50#7
    freq := Vector.replicate 256 0#64, clen := Vector.replicate 256 0#8, qtab := qtabFor 50
    wr := Writer.reset, rd := Reader.reset
    pending := none, buf := []
    script := [], busData := 0#64, draws := 0, power := 0 }

/-- The state after a power-on reset of the default CXB, AW = 20 (R7, R54). -/
def State.reset : State := State.resetWith Config.defaultAw

end Sys2Proof.Machine
end

