-- ==== Sys2Proof/Machine/Ops.lean ====
section
/-! DEFINITION. The operations every command is built from: BUF (20_memory.md), the bit writer and
the bit reader (41_bitstream.md R141 to R143), acceptance of a command (10_state.md R49), and its
end, which is the CXB's only exception entry (60_exceptions.md R313 to R318). There is no return
from an exception (R322). -/

namespace Sys2Proof.Machine

/-! ## BUF -/

/-- The byte written last at `a`, if any byte has been written there since power-on. -/
def Memory.find : Memory → Nat → Option Byte
  | [], _ => none
  | (k, v) :: rest, a => if k = a then some v else Memory.find rest a

/-- Memory with the byte `v` at `a`; it keeps the canonical form. -/
def Memory.write : Memory → Nat → Byte → Memory
  | [], a, v => [(a, v)]
  | (k, w) :: rest, a, v =>
    if a < k then (a, v) :: (k, w) :: rest
    else if a = k then (a, v) :: rest
    else (k, w) :: Memory.write rest a v

/-- R12: `MemWrite(a, n, bytes)`, bytes in ascending order. -/
def Memory.writeBytes : Memory → Nat → List Byte → Memory
  | m, _, [] => m
  | m, a, v :: vs => Memory.writeBytes (m.write a v) (a + 1) vs

/-- The canonical form: addresses strictly rising. -/
abbrev Memory.wf (m : Memory) : Prop := (m.map Prod.fst).Pairwise (· < ·)

/-- What an address of BUF that nothing has written since power-on reads as (R350). -/
def unlistedByte (power a : Nat) : Byte := Config.powerOnByte power a

/-- R7: BUF_SIZE = 2^AW. -/
def State.bufSize (s : State) : Nat := 2 ^ s.aw.val

/-- R12: BUF[a], for a below BUF_SIZE. -/
def State.byteAt (s : State) (a : Nat) : Byte := (s.buf.find a).getD (unlistedByte s.power a)

/-- R12: `MemRead(a, n)`. -/
def State.bytesAt (s : State) (a n : Nat) : List Byte :=
  (List.range n).map fun j => s.byteAt (a + j)

/-- R12: `MemWrite(a, n, bytes)`. -/
def State.storeBytes (s : State) (a : Nat) (bytes : List Byte) : State :=
  { s with buf := s.buf.writeBytes a bytes }

/-! ## How work inside a command can stop -/

/-- What ends a command before its own end. -/
inductive Halt where
  /-- `raise E` at run time (R12). -/
  | raise (e : CmdError)
  /-- A stream access at an address that BUF does not have. -/
  | outside (addr : Nat)
  deriving DecidableEq, Repr

/-- The result of a command that ends without error: the state its pseudocode leaves and the
values of OUT (R12). -/
structure Done where
  state : State
  out0 : Nat
  out1 : Nat
  out2 : Nat

/-! ## The bit writer -/

/-- R141: `append(bit)`. -/
def State.appendBit (s : State) (bit : Bool) : Except Halt State :=
  if 8 * s.wr.cnt + s.wr.nb.val ≥ 8 * s.wr.cap then .error (.raise .outputOverflow)
  else if s.wr.nb.val = 7 then
    if s.wr.base + s.wr.cnt < s.bufSize then
      .ok { s with
        buf := s.buf.write (s.wr.base + s.wr.cnt) (2#8 * s.wr.acc + (BitVec.ofBool bit).zeroExtend 8)
        wr := { s.wr with cnt := s.wr.cnt + 1, acc := 0#8, nb := 0 } }
    else .error (.outside (s.wr.base + s.wr.cnt))
  else
    .ok { s with wr := { s.wr with
      acc := 2#8 * s.wr.acc + (BitVec.ofBool bit).zeroExtend 8, nb := s.wr.nb + 1 } }

/-- Append bits in order. -/
def State.appendBits : State → List Bool → Except Halt State
  | s, [] => .ok s
  | s, b :: bs =>
    match s.appendBit b with
    | .error h => .error h
    | .ok t => State.appendBits t bs

/-- R142: `put(v, n)`. -/
def State.put (s : State) (v n : Nat) : Except Halt State := s.appendBits (bitsOf v n)

/-- R41: 8*W.cnt + W.nb, the bits appended since BSW_OPEN. -/
def State.writerBits (s : State) : Nat := 8 * s.wr.cnt + s.wr.nb.val

/-! ## The bit reader -/

/-- R140, R143: bit k of the stream the reader is open on. -/
def State.streamBit (s : State) (k : Nat) : Bool :=
  (s.byteAt (s.rd.base + k / 8)).getLsbD (7 - k % 8)

/-- The next `n` bits of the open stream, from R.pos on. -/
def State.nextBits (s : State) (n : Nat) : List Bool :=
  (List.range n).map fun j => s.streamBit (s.rd.pos + j)

/-- R143: `get(n, E)`. -/
def State.get (s : State) (n : Nat) (e : CmdError) : Except Halt (Nat × State) :=
  if s.rd.pos + n > s.rd.stop then .error (.raise e)
  else if 0 < n ∧ s.bufSize ≤ s.rd.base + (s.rd.pos + n - 1) / 8 then
    .error (.outside (s.rd.base + (s.rd.pos + n - 1) / 8))
  else .ok (ofBits (s.nextBits n), { s with rd := { s.rd with pos := s.rd.pos + n } })

/-! ## Acceptance and end of a command -/

/-- R312: the code of an error kind. -/
def CmdError.code : CmdError → Byte
  | .invalidQuality => 0x01#8
  | .unsupportedContentType => 0x02#8
  | .unsupportedModeForCodec => 0x03#8
  | .corruptHeader => 0x04#8
  | .truncatedStream => 0x05#8
  | .invalidBackReference => 0x06#8
  | .corruptStream => 0x07#8
  | .insufficientData => 0x08#8
  | .illegalCommand => 0x10#8
  | .badAddress => 0x11#8
  | .outputOverflow => 0x12#8
  | .streamNotOpen => 0x13#8
  | .symbolNotInTable => 0x14#8

/-- R35, R49: the CXB accepts the command word `c`. -/
def State.accept (s : State) (c : Word64) : State :=
  { s with
    pending := some c
    done := false, err := false, errCode := 0#8, lastOp := c.extractLsb' 0 8 }

/-- R313, R40: the end of a command without error. -/
def endOk (d : Done) : State :=
  { d.state with
    pending := none, done := true, err := false, errCode := 0#8
    out0 := BitVec.ofNat 64 d.out0, out1 := BitVec.ofNat 64 d.out1, out2 := BitVec.ofNat 64 d.out2 }

/-- R313, R317: the end of a command with the pre-check error `e`. -/
def endPreError (e : CmdError) (s : State) : State :=
  { s with pending := none, done := false, err := true, errCode := e.code }

/-- R318, R352: the bytes of the range (base, len), as far as BUF has them, become unspecified. -/
def State.spoil (s : State) (range : Nat × Nat) : Memory :=
  s.buf.writeBytes range.1
    ((List.range (min range.2 (s.bufSize - range.1))).map fun j =>
      Config.freeByte s.draws (range.1 + j))

/-- R318 items 1 and 3: a closed writer whose hidden fields are unspecified; WPAD is kept (item 6). -/
def freeWriter (draw : Nat) (pad : Fin 8) : Writer :=
  { isOpen := false
    base := Config.freeNat draw 0, cap := Config.freeNat draw 1, cnt := Config.freeNat draw 2
    acc := BitVec.ofNat 8 (Config.freeNat draw 3), nb := Fin.ofNat 8 (Config.freeNat draw 4)
    pad := pad }

/-- R318 items 1 and 3: a closed reader whose hidden fields are unspecified. -/
def freeReader (draw : Nat) : Reader :=
  { isOpen := false
    base := Config.freeNat draw 5, len := Config.freeNat draw 6
    stop := Config.freeNat draw 7, pos := Config.freeNat draw 8 }

/-- R313, R318: the end of a command with the run-time error `e`, for a command whose output bytes
are those of `range` (none if it has none). `s` is the state at the command's start: what the rule
leaves unchanged is unchanged, whatever work was done before the error. -/
def endRunError (e : CmdError) (range : Option (Nat × Nat)) (s : State) : State :=
  { s with
    pending := none, done := false, err := true, errCode := e.code
    wr := freeWriter s.draws s.wr.pad, rd := freeReader s.draws
    out0 := Config.freeWord s.draws 0, out1 := Config.freeWord s.draws 1
    out2 := Config.freeWord s.draws 2
    buf := match range with | none => s.buf | some r => s.spoil r
    draws := s.draws + 1 }

/-- R316: the error of the first check that fails, if one does. -/
def firstError : List (Bool × CmdError) → Option CmdError
  | [] => none
  | (ok, e) :: rest => if ok then firstError rest else some e

/-- R13, R313 to R318: one command, from its pre-checks to its end. -/
def runCommand (checks : List (Bool × CmdError)) (range : Option (Nat × Nat))
    (body : State → Except Halt Done) (s : State) : Host.Outcome State Fault Refusal :=
  match firstError checks with
  | some e => .next (endPreError e s)
  | none =>
    match body s with
    | .ok d => .next (endOk d)
    | .error (.raise e) => .next (endRunError e range s)
    | .error (.outside a) => .fault (.outsideBuf a)

end Sys2Proof.Machine
end

