-- ==== Sys2Proof/WellFormed.lean ====
section
/-! DEFINITION. Which immediates a command may carry (30_encoding.md R112). -/

namespace Sys2Proof

/-- R112: the legal IMM of the four commands that use one. -/
def Instr.wellFormed : Instr → Bool
  | .bswPut n => decide (n.toNat ≤ Config.putMax)
  | .bsrGet n => decide (n.toNat ≤ Config.putMax)
  | .bsrOpen pad => decide (pad.toNat ≤ 7)
  | .hufCode _ => true
  | .nop | .bswOpen | .bswFlush | .bsrAlign | .hufCount | .hufBuild | .hufSerial | .hufDeser
  | .hufEnc | .hufDec | .lz77Find | .lz77Enc | .lz77Dec | .lz78Enc | .lz78Dec | .qtGen | .dctFwd
  | .quant | .dequant | .dctInv | .dctEnc | .dctDec => true

end Sys2Proof
end

