-- ==== Sys2Proof/Machine/Operands.lean ====
section
/-! DEFINITION. The operand forms of the commands: range checks (20_memory.md R82, R88, R89), the
pre-checks of 60_exceptions.md R316 by name, the linear source (45_control.md R303), table entries,
and which BUF range a command's output goes to (R318, R352). Each check is a pair of "the check
passes" and the error it raises otherwise. -/

namespace Sys2Proof.Machine

/-! ## Ranges -/

/-- R82: the byte range (a, n) is in BUF. -/
def State.inBuf (s : State) (a n : Nat) : Bool := decide (a + n ≤ s.bufSize)

/-- R82: the ranges (a, n) and (b, m) overlap. -/
def overlap (a n b m : Nat) : Bool := decide (0 < n ∧ 0 < m ∧ a < b + m ∧ b < a + n)

/-! ## Pre-checks, in the order of R316 -/

/-- R316 step 1 for a command given as syntax: its IMM lies in the range of R112. -/
def checkImm (i : Instr) : Bool × CmdError := (i.wellFormed, .illegalCommand)

/-- R316 step 2, R258: CFG.MODE = 1. -/
def checkMode (s : State) : Bool × CmdError := (s.mode, .unsupportedModeForCodec)

/-- R316 step 3: 1 <= CFG.QUALITY <= 100. -/
def checkQuality (s : State) : Bool × CmdError :=
  (decide (1 ≤ s.quality.toNat ∧ s.quality.toNat ≤ 100), .invalidQuality)

/-- R316 step 4: W.open = 1. -/
def checkWriter (s : State) : Bool × CmdError := (s.wr.isOpen, .streamNotOpen)

/-- R316 step 4: R.open = 1. -/
def checkReader (s : State) : Bool × CmdError := (s.rd.isOpen, .streamNotOpen)

/-- R316 step 5: (SRC_ADDR, SRC_LEN) in BUF. -/
def checkSrc (s : State) : Bool × CmdError :=
  (s.inBuf s.srcAddr.toNat s.srcLen.toNat, .badAddress)

/-- R316 step 5: (DST_ADDR, DST_CAP) in BUF. -/
def checkDst (s : State) : Bool × CmdError :=
  (s.inBuf s.dstAddr.toNat s.dstCap.toNat, .badAddress)

/-- R316 step 6, R88: the source does not overlap the destination. -/
def checkSrcDst (s : State) : Bool × CmdError :=
  (!overlap s.srcAddr.toNat s.srcLen.toNat s.dstAddr.toNat s.dstCap.toNat, .badAddress)

/-- R316 step 6, R88: the source does not overlap the writer's range. -/
def checkSrcWriter (s : State) : Bool × CmdError :=
  (!overlap s.srcAddr.toNat s.srcLen.toNat s.wr.base s.wr.cap, .badAddress)

/-- R316 step 6, R89 (3): the destination does not overlap the reader's range. -/
def checkDstReader (s : State) : Bool × CmdError :=
  (!overlap s.dstAddr.toNat s.dstCap.toNat s.rd.base s.rd.len, .badAddress)

/-- R89 (4), R262: CNT <= DST_CAP. -/
def checkCnt (s : State) : Bool × CmdError :=
  (decide (s.cnt.toNat ≤ s.dstCap.toNat), .outputOverflow)

/-- The pre-checks of the encoders (R176, R213, R217). -/
def encoderChecks (s : State) : List (Bool × CmdError) :=
  [checkWriter s, checkSrc s, checkSrcWriter s]

/-- The decoder pre-checks (R89). -/
def decoderChecks (s : State) : List (Bool × CmdError) :=
  [checkReader s, checkDst s, checkDstReader s, checkCnt s]

/-- The mode pre-check (R258) and `dct_io_pre` (44_dct.md, before R259). -/
def dctIoChecks (s : State) : List (Bool × CmdError) :=
  [checkMode s, checkSrc s, checkDst s, checkSrcDst s]

/-! ## Operands -/

/-- R303: the bytes of the linear source. -/
def State.source (s : State) : List Byte := s.bytesAt s.srcAddr.toNat s.srcLen.toNat

/-- R44: FREQ[b]. -/
def State.freqOf (s : State) (b : Byte) : Nat := (s.freq.get b.toFin).toNat

/-- R45: CLEN[b] of a code-length table. -/
def lenOf (c : Vector Byte 256) (b : Byte) : Nat := (c.get b.toFin).toNat

/-- The 256 byte values in ascending order (ALPHA, R7). -/
def allBytes : List Byte := (List.range Config.alpha).map (BitVec.ofNat 8)

/-- R46: the 64 quantization steps in index order. -/
def State.steps (s : State) : List Nat := s.qtab.toList.map BitVec.toNat

/-! ## Output ranges -/

/-- The BUF range a command's output bytes go to, as R318 item 4 and R352 item 4 name it:
(DST_ADDR, DST_CAP) for a decoder or a DCT command, (W.base, W.cap) for a command that appends to
the open writer. HUF_DESER and QT_GEN write tables only (assumption 8). -/
def outputRange (i : Instr) (s : State) : Option (Nat × Nat) :=
  match i with
  | .hufDec | .lz77Dec | .lz78Dec | .dctFwd | .quant | .dequant | .dctInv | .dctEnc | .dctDec =>
    some (s.dstAddr.toNat, s.dstCap.toNat)
  | .bswPut _ | .bswFlush | .hufSerial | .hufEnc | .lz77Enc | .lz78Enc =>
    if s.wr.isOpen then some (s.wr.base, s.wr.cap) else none
  | .nop | .bswOpen | .bsrOpen _ | .bsrGet _ | .bsrAlign | .hufCount | .hufBuild | .hufDeser
  | .hufCode _ | .lz77Find | .qtGen => none

end Sys2Proof.Machine
end

