-- ==== Sys2Proof/Machine/Bitstream.lean ====
section
/-! DEFINITION. The bitstream family (41_bitstream.md). -/

namespace Sys2Proof.Machine

/-- R144: W as BSW_OPEN leaves it; WPAD is unchanged. -/
def State.openWriter (s : State) : State :=
  { s with wr := { s.wr with
      isOpen := true, base := s.dstAddr.toNat, cap := s.dstCap.toNat, cnt := 0, acc := 0#8, nb := 0 } }

/-- R147: R as BSR_OPEN leaves it, `pad` bits short of the source's end. -/
def State.openReader (s : State) (pad : Nat) : State :=
  { s with rd := {
      isOpen := true, base := s.srcAddr.toNat, len := s.srcLen.toNat
      stop := 8 * s.srcLen.toNat - pad, pos := 0 } }

/-- R146: the pad a flush adds. -/
def State.flushPad (s : State) : Nat := (8 - s.wr.nb.val) % 8

/-- R149: where BSR_ALIGN leaves R.pos. -/
def State.alignedPos (s : State) : Nat := min (8 * ceilDiv s.rd.pos 8) s.rd.stop

/-- BSW_OPEN (R144). -/
def execBswOpen (s : State) : Host.Outcome State Fault Refusal :=
  runCommand [checkDst s] (outputRange .bswOpen s) (fun s => .ok ⟨s.openWriter, 0, 0, 0⟩) s

/-- BSW_PUT n (R145). -/
def execBswPut (n : Byte) (s : State) : Host.Outcome State Fault Refusal :=
  runCommand [checkImm (.bswPut n), checkWriter s] (outputRange (.bswPut n) s)
    (fun s => do
      let t ← s.put (s.bsData.toNat % 2 ^ n.toNat) n.toNat
      return ⟨t, n.toNat, 0, 0⟩) s

/-- BSW_FLUSH (R146). -/
def execBswFlush (s : State) : Host.Outcome State Fault Refusal :=
  runCommand [checkWriter s] (outputRange .bswFlush s)
    (fun s => do
      let t ← s.put 0 s.flushPad
      return ⟨{ t with wr := { t.wr with pad := Fin.ofNat 8 s.flushPad } }, t.wr.cnt, s.flushPad, 0⟩) s

/-- BSR_OPEN pad (R147). -/
def execBsrOpen (pad : Byte) (s : State) : Host.Outcome State Fault Refusal :=
  runCommand
    [checkImm (.bsrOpen pad), checkSrc s,
      (decide (pad.toNat ≤ 8 * s.srcLen.toNat), .corruptStream)]
    (outputRange (.bsrOpen pad) s)
    (fun s => .ok ⟨s.openReader pad.toNat, (s.openReader pad.toNat).rd.stop, 0, 0⟩) s

/-- BSR_GET n (R148). -/
def execBsrGet (n : Byte) (s : State) : Host.Outcome State Fault Refusal :=
  runCommand
    [checkImm (.bsrGet n), checkReader s,
      (decide (s.rd.pos + n.toNat ≤ s.rd.stop), .insufficientData)]
    (outputRange (.bsrGet n) s)
    (fun s => do
      let (v, t) ← s.get n.toNat .insufficientData
      return ⟨{ t with bsData := BitVec.ofNat 64 v }, n.toNat, 0, 0⟩) s

/-- BSR_ALIGN (R149). -/
def execBsrAlign (s : State) : Host.Outcome State Fault Refusal :=
  runCommand [checkReader s] (outputRange .bsrAlign s)
    (fun s => .ok
      ⟨{ s with rd := { s.rd with pos := s.alignedPos } }, s.alignedPos - s.rd.pos, 0, 0⟩) s

end Sys2Proof.Machine
end

