-- ==== Sys2Proof/Machine/Control.lean ====
section
/-! DEFINITION. The control command (45_control.md). -/

namespace Sys2Proof.Machine

/-- NOP (R300). -/
def execNop (s : State) : Host.Outcome State Fault Refusal :=
  runCommand [] (outputRange .nop s) (fun s => .ok ⟨s, 0, 0, 0⟩) s

end Sys2Proof.Machine
end

