-- ==== Sys2Proof/Machine/Dct.lean ====
section
/-! DEFINITION. The DCT and quantization family (44_dct.md). A block is a list of 64 integers in
index order (R250). No source range overlaps its destination (R88), so a command's output is a
function of the source as it stood at the command's start. -/

namespace Sys2Proof.Machine

/-! ## Blocks -/

/-- The 64 indices of a block (R250). -/
def blockIdx : List Nat := List.range 64

/-- T[u][y] * T[v][m] for coefficient index i = 8*u + v and sample index j = 8*y + m (R252, R253). -/
def basis2 (i j : Nat) : Int := basis (i / 8) (j / 8) * basis (i % 8) (j % 8)

/-- R252: `fdct(s)`. -/
def fdct (x : List Int) : List Int :=
  blockIdx.map fun i =>
    rdiv (dot (blockIdx.map fun j => basis2 i j) (x.map fun v => v - 128)) (2 ^ Config.dctShift)

/-- R253: `idct(d)`. -/
def idct (d : List Int) : List Int :=
  blockIdx.map fun j =>
    clamp (rdiv (dot (blockIdx.map fun i => basis2 i j) d) (2 ^ Config.dctShift) + 128) 0 255

/-- R254: `quant(c)` with the steps of QTAB. -/
def quantBlock (steps : List Nat) (c : List Int) : List Int := List.zipWith rdiv c steps

/-- R255: `dequant(q)` with the steps of QTAB. -/
def dequantBlock (steps : List Nat) (q : List Int) : List Int :=
  List.zipWith (fun v t => sat16 (v * (t : Int))) q steps

/-- R256: nb, the number of blocks of `n` samples. -/
def blockCount (n : Nat) : Nat := ceilDiv n 64

/-- R256: the true length of the last block of `n` samples. -/
def lastBlockLen (n : Nat) : Nat := if n = 0 then 0 else n - 64 * (blockCount n - 1)

/-- R256: sample block b of the source, the last source byte repeated past its end. -/
def State.sampleBlock (s : State) (b : Nat) : List Int :=
  blockIdx.map fun j =>
    ((s.byteAt (s.srcAddr.toNat + min (64 * b + j) (s.srcLen.toNat - 1))).toNat : Int)

/-- R257: coefficient block b of the source. -/
def State.coefBlock (s : State) (b : Nat) : List Int :=
  blockIdx.map fun i =>
    sbe16 (s.byteAt (s.srcAddr.toNat + 128 * b + 2 * i))
      (s.byteAt (s.srcAddr.toNat + 128 * b + 2 * i + 1))

/-- R257: the stored form of a coefficient block. -/
def coefBytes (c : List Int) : List Byte := c.flatMap be16

/-- The bytes of a sample block. -/
def sampleBytes (x : List Int) : List Byte := x.map (BitVec.ofInt 8)

/-! ## What the commands compute -/

/-- R259, R263: `f` of every sample block of the source, as stored coefficients. -/
def State.forwardBytes (s : State) (f : List Int → List Int) : List Byte :=
  (List.range (blockCount s.srcLen.toNat)).flatMap fun b => coefBytes (f (s.sampleBlock b))

/-- R260, R261: `f` of every coefficient block of the source, as stored coefficients. -/
def State.coefMapBytes (s : State) (f : List Int → List Int) : List Byte :=
  (List.range (s.srcLen.toNat / 128)).flatMap fun b => coefBytes (f (s.coefBlock b))

/-- R262, R264: the first CNT samples of `f` of the coefficient blocks of the source. -/
def State.inverseBytes (s : State) (f : List Int → List Int) : List Byte :=
  ((List.range (blockCount s.cnt.toNat)).flatMap fun b =>
    sampleBytes (f (s.coefBlock b))).take s.cnt.toNat

/-- R259: the pre-checks of DCT_FWD and DCT_ENC. -/
def forwardChecks (s : State) : List (Bool × CmdError) :=
  dctIoChecks s ++ [(decide (128 * blockCount s.srcLen.toNat ≤ s.dstCap.toNat), .outputOverflow)]

/-- R260: the pre-checks of QUANT and DEQUANT. -/
def coefMapChecks (s : State) : List (Bool × CmdError) :=
  dctIoChecks s ++
    [(decide (s.srcLen.toNat % 128 = 0), .corruptStream),
      (decide (s.srcLen.toNat ≤ s.dstCap.toNat), .outputOverflow)]

/-- R262: the pre-checks of DCT_INV and DCT_DEC. -/
def inverseChecks (s : State) : List (Bool × CmdError) :=
  dctIoChecks s ++
    [(decide (128 * blockCount s.cnt.toNat ≤ s.srcLen.toNat), .truncatedStream), checkCnt s]

/-- R259, R263: the work of a forward command. -/
def forwardBody (f : List Int → List Int) (s : State) : Except Halt Done :=
  .ok ⟨s.storeBytes s.dstAddr.toNat (s.forwardBytes f),
    128 * blockCount s.srcLen.toNat, blockCount s.srcLen.toNat, lastBlockLen s.srcLen.toNat⟩

/-- R260, R261: the work of QUANT and DEQUANT. -/
def coefMapBody (f : List Int → List Int) (s : State) : Except Halt Done :=
  .ok ⟨s.storeBytes s.dstAddr.toNat (s.coefMapBytes f), s.srcLen.toNat, s.srcLen.toNat / 128, 0⟩

/-- R262, R264: the work of an inverse command. -/
def inverseBody (f : List Int → List Int) (s : State) : Except Halt Done :=
  .ok ⟨s.storeBytes s.dstAddr.toNat (s.inverseBytes f), s.cnt.toNat, blockCount s.cnt.toNat, 0⟩

/-! ## The commands -/

/-- QT_GEN (R251). -/
def execQtGen (s : State) : Host.Outcome State Fault Refusal :=
  runCommand [checkMode s, checkQuality s] (outputRange .qtGen s)
    (fun s => .ok
      ⟨{ s with qtab := qtabFor s.quality.toNat, qtabQ := s.quality }, s.quality.toNat, 0, 0⟩) s

/-- DCT_FWD (R259). -/
def execDctFwd (s : State) : Host.Outcome State Fault Refusal :=
  runCommand (forwardChecks s) (outputRange .dctFwd s) (forwardBody fdct) s

/-- QUANT (R260). -/
def execQuant (s : State) : Host.Outcome State Fault Refusal :=
  runCommand (coefMapChecks s) (outputRange .quant s) (coefMapBody (quantBlock s.steps)) s

/-- DEQUANT (R261). -/
def execDequant (s : State) : Host.Outcome State Fault Refusal :=
  runCommand (coefMapChecks s) (outputRange .dequant s) (coefMapBody (dequantBlock s.steps)) s

/-- DCT_INV (R262). -/
def execDctInv (s : State) : Host.Outcome State Fault Refusal :=
  runCommand (inverseChecks s) (outputRange .dctInv s) (inverseBody idct) s

/-- DCT_ENC (R263). -/
def execDctEnc (s : State) : Host.Outcome State Fault Refusal :=
  runCommand (forwardChecks s) (outputRange .dctEnc s)
    (forwardBody fun x => quantBlock s.steps (fdct x)) s

/-- DCT_DEC (R264). -/
def execDctDec (s : State) : Host.Outcome State Fault Refusal :=
  runCommand (inverseChecks s) (outputRange .dctDec s)
    (inverseBody fun q => idct (dequantBlock s.steps q)) s

end Sys2Proof.Machine
end

