-- ==== Sys2Proof/Machine/Huffman.lean ====
section
/-! DEFINITION. The Huffman family (42_huffman.md). -/

namespace Sys2Proof.Machine

/-! ## Frequencies and the tree -/

/-- R170: the table of occurrence counts of a byte string. -/
def countTable (src : List Byte) : Vector Word64 256 :=
  tabulate 256 fun i => BitVec.ofNat 64 (src.count (BitVec.ofNat 8 i))

/-- R171: L, the symbols with FREQ > 0 in ascending order. -/
def State.symbols (s : State) : List Byte := allBytes.filter fun b => decide (0 < s.freqOf b)

/-- R171: a Huffman tree; a child is one deeper than its parent. -/
inductive HufTree where
  | leaf (symbol : Byte)
  | internal (left right : HufTree)
  deriving DecidableEq, Repr

/-- R171, R50: a root in the queue Q, with its exact weight and its insertion order. -/
structure HufNode where
  weight : Nat
  order : Nat
  tree : HufTree
  deriving DecidableEq, Repr

/-- R171: the key (weight, order), compared lexicographically. -/
def HufNode.before (a b : HufNode) : Bool :=
  decide (a.weight < b.weight ∨ (a.weight = b.weight ∧ a.order < b.order))

/-- R171: the node of Q with the least key, and Q without it. -/
def takeLeast : List HufNode → Option (HufNode × List HufNode)
  | [] => none
  | x :: xs =>
    match takeLeast xs with
    | none => some (x, [])
    | some (m, rest) => if x.before m then some (x, xs) else some (m, x :: rest)

/-- R171: `merges` rounds of the loop; `next` is the order the next internal node takes. -/
def mergeNodes : (merges next : Nat) → List HufNode → List HufNode
  | 0, _, q => q
  | m + 1, next, q =>
    match takeLeast q with
    | none => q
    | some (a, q1) =>
      match takeLeast q1 with
      | none => q
      | some (b, q2) =>
        mergeNodes m (next + 1) (⟨a.weight + b.weight, next, .internal a.tree b.tree⟩ :: q2)

/-- R171: the leaves of a tree whose root has depth `d`, with their depths. -/
def HufTree.depths (d : Nat) : HufTree → List (Byte × Nat)
  | .leaf b => [(b, d)]
  | .internal l r => HufTree.depths (d + 1) l ++ HufTree.depths (d + 1) r

/-- R171: the leaf nodes, leaf j with order j. -/
def State.leaves (s : State) : List HufNode :=
  s.symbols.zipIdx.map fun p => ⟨s.freqOf p.1, p.2, .leaf p.1⟩

/-- R171: the tree FREQ gives (none for the empty input). -/
def State.hufTree (s : State) : Option HufTree :=
  (mergeNodes (s.symbols.length - 1) s.symbols.length s.leaves).head?.map HufNode.tree

/-- R171, R172: the (symbol, code length) pairs. The only leaf of a one-symbol alphabet gets
length 1. -/
def State.lengthPairs (s : State) : List (Byte × Nat) :=
  match s.hufTree with
  | none => []
  | some (.leaf b) => [(b, 1)]
  | some t => t.depths 0

/-- R171, R172: the CLEN table of FREQ. -/
def State.builtLengths (s : State) : Vector Byte 256 :=
  tabulate 256 fun i => BitVec.ofNat 8 ((s.lengthPairs.lookup (BitVec.ofNat 8 i)).getD 0)

/-- R171, R177: the largest code length of a table. -/
def maxLen (c : Vector Byte 256) : Nat := (allBytes.map (lenOf c)).foldl max 0

/-! ## Serialization -/

/-- R173: the symbols that have a code, in ascending order. -/
def coded (c : Vector Byte 256) : List Byte := allBytes.filter fun b => decide (0 < lenOf c b)

/-- R173: the bits of a serialized table. -/
def tableBits (c : Vector Byte 256) : List Bool :=
  bitsOf (coded c).length 16 ++
    (coded c).flatMap fun b => bitsOf b.toNat 8 ++ bitsOf (lenOf c b) 8

/-- R174: read `k` pairs whose symbols are at least `low` (one more than the last symbol read). -/
def readPairs : (k low : Nat) → Vector Byte 256 → State → Except Halt (Vector Byte 256 × State)
  | 0, _, c, s => .ok (c, s)
  | k + 1, low, c, s => do
    let (b, s) ← s.get 8 .truncatedStream
    let (l, s) ← s.get 8 .truncatedStream
    if b < low then .error (.raise .corruptHeader)
    else if l = 0 then .error (.raise .corruptHeader)
    else readPairs k (b + 1) (c.setIfInBounds b (BitVec.ofNat 8 l)) s

/-- R174, R45: the Kraft sum scaled by 2^255. -/
def kraftSum (c : Vector Byte 256) : Nat :=
  ((coded c).map fun b => 2 ^ (Config.maxClen - lenOf c b)).sum

/-- R174: the pseudocode of HUF_DESER. -/
def deserialize (s : State) : Except Halt Done := do
  let (k, s) ← s.get 16 .truncatedStream
  if k > 256 then .error (.raise .corruptHeader)
  else do
    let (c, s) ← readPairs k 0 (Vector.replicate 256 0#8) s
    if kraftSum c > 2 ^ Config.maxClen then .error (.raise .corruptHeader)
    else return ⟨{ s with clen := c }, k, maxLen c, 0⟩

/-! ## Canonical codes -/

/-- R175: the symbols of code length `l`, in ascending order. -/
def symbolsOfLen (c : Vector Byte 256) (l : Nat) : List Byte :=
  allBytes.filter fun b => decide (lenOf c b = l)

/-- R175: bl[l], with bl[0] = 0. -/
def blCount (c : Vector Byte 256) (l : Nat) : Nat :=
  if l = 0 then 0 else (symbolsOfLen c l).length

/-- R175: first[l]; the loop's starting value `code = 0` stands at 0. -/
def firstCode (c : Vector Byte 256) : Nat → Nat
  | 0 => 0
  | l + 1 => (firstCode c l + blCount c l) * 2

/-- R175: CODE[b], which is first[CLEN[b]] plus the number of symbols below b of the same length:
`next` has been incremented once for each of them when the loop reaches b. -/
def codeOf (c : Vector Byte 256) (b : Byte) : Nat :=
  firstCode c (lenOf c b) +
    ((allBytes.take b.toNat).filter fun x => decide (lenOf c x = lenOf c b)).length

/-- R176: the bits of a symbol's code. -/
def codeBits (c : Vector Byte 256) (b : Byte) : List Bool := bitsOf (codeOf c b) (lenOf c b)

/-! ## Encoding and decoding -/

/-- R176: append the code of each byte; `bits` counts the bits appended so far. -/
def hufEncode (c : Vector Byte 256) : List Byte → (bits : Nat) → State → Except Halt (Nat × State)
  | [], bits, s => .ok (bits, s)
  | b :: bs, bits, s =>
    if lenOf c b = 0 then .error (.raise .symbolNotInTable)
    else do
      let s ← s.put (codeOf c b) (lenOf c b)
      hufEncode c bs (bits + lenOf c b) s

/-- R177: `decode_sym()`, with `left` more bits before l reaches maxl and the code `code` of `l`
bits read so far. -/
def decodeSym (c : Vector Byte 256) : (left code l : Nat) → State → Except Halt (Byte × State)
  | 0, _, _, _ => .error (.raise .corruptStream)
  | left + 1, code, l, s => do
    let (bit, s) ← s.get 1 .truncatedStream
    let code := 2 * code + bit
    let l := l + 1
    if firstCode c l ≤ code ∧ code < firstCode c l + blCount c l then
      return ((symbolsOfLen c l).getD (code - firstCode c l) 0#8, s)
    else decodeSym c left code l s

/-- R178: decode `n` symbols to the bytes from `a` on. -/
def hufDecode (c : Vector Byte 256) : (n a : Nat) → State → Except Halt State
  | 0, _, s => .ok s
  | n + 1, a, s => do
    let (b, s) ← decodeSym c (maxLen c) 0 0 s
    hufDecode c n (a + 1) (s.storeBytes a [b])

/-! ## The commands -/

/-- HUF_COUNT (R170). -/
def execHufCount (s : State) : Host.Outcome State Fault Refusal :=
  runCommand [checkSrc s] (outputRange .hufCount s)
    (fun s =>
      let t := { s with freq := countTable s.source }
      .ok ⟨t, t.symbols.length, s.srcLen.toNat, 0⟩) s

/-- HUF_BUILD (R171, R172). -/
def execHufBuild (s : State) : Host.Outcome State Fault Refusal :=
  runCommand [] (outputRange .hufBuild s)
    (fun s => .ok
      ⟨{ s with clen := s.builtLengths }, s.symbols.length, maxLen s.builtLengths, 0⟩) s

/-- HUF_SERIAL (R173). -/
def execHufSerial (s : State) : Host.Outcome State Fault Refusal :=
  runCommand [checkWriter s] (outputRange .hufSerial s)
    (fun s => do
      let t ← s.appendBits (tableBits s.clen)
      return ⟨t, (coded s.clen).length, 16 + 16 * (coded s.clen).length, 0⟩) s

/-- HUF_DESER (R174). -/
def execHufDeser (s : State) : Host.Outcome State Fault Refusal :=
  runCommand [checkReader s] (outputRange .hufDeser s) deserialize s

/-- HUF_ENC (R176). -/
def execHufEnc (s : State) : Host.Outcome State Fault Refusal :=
  runCommand (encoderChecks s) (outputRange .hufEnc s)
    (fun s => do
      let (bits, t) ← hufEncode s.clen s.source 0 s
      return ⟨t, bits, s.srcLen.toNat, 0⟩) s

/-- HUF_DEC (R178). -/
def execHufDec (s : State) : Host.Outcome State Fault Refusal :=
  runCommand
    (decoderChecks s ++ [(decide (s.cnt = 0#64 ∨ coded s.clen ≠ []), .corruptHeader)])
    (outputRange .hufDec s)
    (fun s => do
      let t ← hufDecode s.clen s.cnt.toNat s.dstAddr.toNat s
      return ⟨t, s.cnt.toNat, t.rd.pos - s.rd.pos, 0⟩) s

/-- HUF_CODE b (R179). -/
def execHufCode (b : Byte) (s : State) : Host.Outcome State Fault Refusal :=
  runCommand [checkImm (.hufCode b)] (outputRange (.hufCode b) s)
    (fun s => .ok
      (if lenOf s.clen b > 0 then ⟨s, codeOf s.clen b, lenOf s.clen b, 0⟩ else ⟨s, 0, 0, 0⟩)) s

end Sys2Proof.Machine
end

