-- ==== Sys2Proof/Machine/Lz.lean ====
section
/-! DEFINITION. The LZ77 and LZ78 family (43_lz.md). -/

namespace Sys2Proof.Machine

/-! ## LZ77 -/

/-- R210: `find(src, n, i)` with n the length of `src`, as (offset, length). Offsets are tried in
ascending order and only a longer match replaces the best one, so ties keep the smaller offset. -/
def lz77Find (src : List Byte) (i : Nat) : Nat × Nat :=
  if src.length ≤ i then (0, 0)
  else
    (List.range' 1 (min i Config.lz77Window)).foldl
      (fun best d =>
        let l := matchLen (min Config.lz77Max (src.length - i)) (src.drop i) (src.drop (i - d))
        if l > best.2 then (d, l) else best)
      (0, 0)

/-- A token of the LZ77 stream (R211). -/
inductive Lz77Token where
  | literal (b : Byte)
  | copy (offset length : Nat)
  deriving DecidableEq, Repr

/-- R211: is the token a `Match`? -/
def Lz77Token.isCopy : Lz77Token → Bool
  | .literal _ => false
  | .copy _ _ => true

/-- R211: the bits of a token. -/
def Lz77Token.bits : Lz77Token → List Bool
  | .literal b => false :: bitsOf b.toNat 8
  | .copy d l =>
    true :: (bitsOf (d - 1) Config.lz77OffBits ++ bitsOf (l - Config.lz77Min) Config.lz77LenBits)

/-- R213: the tokens of `src` from position i on; every round moves i forward, so `fuel` at least
`src.length - i` gives them all. -/
def lz77Tokens (src : List Byte) : (fuel i : Nat) → List Lz77Token
  | 0, _ => []
  | fuel + 1, i =>
    if i < src.length then
      let m := lz77Find src i
      if m.2 ≥ Config.lz77Min then .copy m.1 m.2 :: lz77Tokens src fuel (i + m.2)
      else .literal (src.getD i 0#8) :: lz77Tokens src fuel (i + 1)
    else []

/-- R214, R363: the byte-by-byte copy of `len` bytes to `a`, each read after the one before it was
written. -/
def copyBack (off : Nat) : (len a : Nat) → State → State
  | 0, _, s => s
  | len + 1, a, s => copyBack off len (a + 1) (s.storeBytes a [s.byteAt (a - off)])

/-- R214: the loop of LZ77_DEC, writing byte k of the output at d + k. Every round produces a byte,
so `fuel` at least n - out never runs out. The result is the token count and the state. -/
def lz77Decode (d n : Nat) : (fuel out tokens : Nat) → State → Except Halt (Nat × State)
  | 0, _, tokens, s => .ok (tokens, s)
  | fuel + 1, out, tokens, s =>
    if out < n then do
      let (flag, s) ← s.get 1 .truncatedStream
      if flag = 0 then do
        let (b, s) ← s.get 8 .truncatedStream
        lz77Decode d n fuel (out + 1) (tokens + 1) (s.storeBytes (d + out) [BitVec.ofNat 8 b])
      else do
        let (o, s) ← s.get Config.lz77OffBits .truncatedStream
        let (l, s) ← s.get Config.lz77LenBits .truncatedStream
        let off := o + 1
        let len := l + Config.lz77Min
        if off > out then .error (.raise .invalidBackReference)
        else if out + len > n then .error (.raise .corruptStream)
        else lz77Decode d n fuel (out + len) (tokens + 1) (copyBack off len (d + out) s)
    else .ok (tokens, s)

/-! ## LZ78 -/

/-- R215: dictionary entry `index` = (parent, byte). -/
structure DictEntry where
  index : Nat
  parent : Nat
  byte : Byte
  deriving DecidableEq, Repr

/-- R215: the entries from 1 on, newest first; entry 0, the empty string, is not listed. -/
abbrev Dict := List DictEntry

/-- R215: the next free index. -/
def Dict.next (dict : Dict) : Nat := dict.length + 1

/-- R217: `child(p, b)`. -/
def Dict.child (dict : Dict) (p : Nat) (b : Byte) : Option Nat :=
  (dict.find? fun e => decide (e.parent = p ∧ e.byte = b)).map DictEntry.index

/-- R215: the string of an index; a parent is an older entry. -/
def Dict.string : Dict → Nat → List Byte
  | [], _ => []
  | e :: older, j =>
    if e.index = j then Dict.string older e.parent ++ [e.byte] else Dict.string older j

/-- R215: add the entry (p, b) unless the dictionary is frozen. -/
def Dict.add (dict : Dict) (p : Nat) (b : Byte) : Dict :=
  if dict.next < Config.lz78Dict then ⟨dict.next, p, b⟩ :: dict else dict

/-- R217: the inner loop from dictionary index p on the bytes still to encode: the token's index,
its new byte and the bytes after it. The last byte is never matched (`j < n - 1`). -/
def lz78Longest (dict : Dict) : (p : Nat) → List Byte → Option (Nat × Byte × List Byte)
  | _, [] => none
  | p, [x] => some (p, x, [])
  | p, x :: y :: rest =>
    match dict.child p x with
    | some q => lz78Longest dict q (y :: rest)
    | none => some (p, x, y :: rest)

/-- R217: the tokens (index, byte) of a byte string and the final dictionary; every round consumes
a byte, so `fuel` at least its length gives them all. -/
def lz78Tokens : (fuel : Nat) → Dict → List Byte → List (Nat × Byte) × Dict
  | 0, dict, _ => ([], dict)
  | fuel + 1, dict, src =>
    match lz78Longest dict 0 src with
    | none => ([], dict)
    | some (p, x, rest) =>
      let r := lz78Tokens fuel (dict.add p x) rest
      ((p, x) :: r.1, r.2)

/-- R216: the bits of a token. -/
def lz78Bits (t : Nat × Byte) : List Bool := bitsOf t.1 Config.lz78IdxBits ++ bitsOf t.2.toNat 8

/-- R218: the loop of LZ78_DEC; the result is the token count, the final dictionary and the
state. -/
def lz78Decode (d n : Nat) :
    (fuel out tokens : Nat) → Dict → State → Except Halt (Nat × Dict × State)
  | 0, _, tokens, dict, s => .ok (tokens, dict, s)
  | fuel + 1, out, tokens, dict, s =>
    if out < n then do
      let (idx, s) ← s.get Config.lz78IdxBits .truncatedStream
      let (b, s) ← s.get 8 .truncatedStream
      if idx ≥ dict.next then .error (.raise .invalidBackReference)
      else
        let str := dict.string idx ++ [BitVec.ofNat 8 b]
        if out + str.length > n then .error (.raise .corruptStream)
        else
          lz78Decode d n fuel (out + str.length) (tokens + 1) (dict.add idx (BitVec.ofNat 8 b))
            (s.storeBytes (d + out) str)
    else .ok (tokens, dict, s)

/-! ## The commands -/

/-- LZ77_FIND (R212). -/
def execLz77Find (s : State) : Host.Outcome State Fault Refusal :=
  runCommand [checkSrc s] (outputRange .lz77Find s)
    (fun s =>
      let m := lz77Find s.source s.cnt.toNat
      .ok ⟨s, m.1, m.2, 0⟩) s

/-- LZ77_ENC (R213). -/
def execLz77Enc (s : State) : Host.Outcome State Fault Refusal :=
  runCommand (encoderChecks s) (outputRange .lz77Enc s)
    (fun s => do
      let tokens := lz77Tokens s.source s.srcLen.toNat 0
      let t ← s.appendBits (tokens.flatMap Lz77Token.bits)
      return ⟨t, tokens.length, tokens.countP Lz77Token.isCopy, 0⟩) s

/-- LZ77_DEC (R214). -/
def execLz77Dec (s : State) : Host.Outcome State Fault Refusal :=
  runCommand (decoderChecks s) (outputRange .lz77Dec s)
    (fun s => do
      let (tokens, t) ← lz77Decode s.dstAddr.toNat s.cnt.toNat s.cnt.toNat 0 0 s
      return ⟨t, tokens, s.cnt.toNat, 0⟩) s

/-- LZ78_ENC (R217). -/
def execLz78Enc (s : State) : Host.Outcome State Fault Refusal :=
  runCommand (encoderChecks s) (outputRange .lz78Enc s)
    (fun s => do
      let r := lz78Tokens s.srcLen.toNat [] s.source
      let t ← s.appendBits (r.1.flatMap lz78Bits)
      return ⟨t, r.1.length, r.2.next, 0⟩) s

/-- LZ78_DEC (R218). -/
def execLz78Dec (s : State) : Host.Outcome State Fault Refusal :=
  runCommand (decoderChecks s) (outputRange .lz78Dec s)
    (fun s => do
      let (tokens, dict, t) ← lz78Decode s.dstAddr.toNat s.cnt.toNat s.cnt.toNat 0 0 [] s
      return ⟨t, tokens, dict.next, 0⟩) s

end Sys2Proof.Machine
end

