-- ==== Sys2Proof/Machine/Dispatch.lean ====
section
/-! DEFINITION. exec: one arm per command of 30_encoding.md R113, each one direct call of the
command's meaning. -/

namespace Sys2Proof.Machine

/-- What the engine does with a legal command: execute it whole and end it (R49, R90). -/
def exec (i : Instr) (s : State) : Host.Outcome State Fault Refusal :=
  match i with
  | .nop => Sys2Proof.Machine.execNop s
  | .bswOpen => Sys2Proof.Machine.execBswOpen s
  | .bswPut n => Sys2Proof.Machine.execBswPut n s
  | .bswFlush => Sys2Proof.Machine.execBswFlush s
  | .bsrOpen pad => Sys2Proof.Machine.execBsrOpen pad s
  | .bsrGet n => Sys2Proof.Machine.execBsrGet n s
  | .bsrAlign => Sys2Proof.Machine.execBsrAlign s
  | .hufCount => Sys2Proof.Machine.execHufCount s
  | .hufBuild => Sys2Proof.Machine.execHufBuild s
  | .hufSerial => Sys2Proof.Machine.execHufSerial s
  | .hufDeser => Sys2Proof.Machine.execHufDeser s
  | .hufEnc => Sys2Proof.Machine.execHufEnc s
  | .hufDec => Sys2Proof.Machine.execHufDec s
  | .hufCode b => Sys2Proof.Machine.execHufCode b s
  | .lz77Find => Sys2Proof.Machine.execLz77Find s
  | .lz77Enc => Sys2Proof.Machine.execLz77Enc s
  | .lz77Dec => Sys2Proof.Machine.execLz77Dec s
  | .lz78Enc => Sys2Proof.Machine.execLz78Enc s
  | .lz78Dec => Sys2Proof.Machine.execLz78Dec s
  | .qtGen => Sys2Proof.Machine.execQtGen s
  | .dctFwd => Sys2Proof.Machine.execDctFwd s
  | .quant => Sys2Proof.Machine.execQuant s
  | .dequant => Sys2Proof.Machine.execDequant s
  | .dctInv => Sys2Proof.Machine.execDctInv s
  | .dctEnc => Sys2Proof.Machine.execDctEnc s
  | .dctDec => Sys2Proof.Machine.execDctDec s

end Sys2Proof.Machine
end

