-- ==== Sys2Proof/Decode.lean ====
section
/-! DEFINITION. The command word (30_encoding.md R110 to R114): a total decoder that rejects by
name, and the encoder of R116. -/

namespace Sys2Proof

/-- Why a command word is illegal: the three cases of R114. The engine reports every one of them
as IllegalCommand. -/
inductive DecodeError where
  /-- R114 (a): OPC is not in the map of R113. -/
  | unmappedOpcode
  /-- R114 (b): a bit of RSV is 1. -/
  | reservedBits
  /-- R114 (c): IMM lies outside the range R112 gives. -/
  | badImmediate
  deriving DecidableEq, Repr

/-- R113: the OPC of each command. -/
def Instr.opcode : Instr → Byte
  | .nop => 0x00#8
  | .bswOpen => 0x10#8
  | .bswPut _ => 0x11#8
  | .bswFlush => 0x12#8
  | .bsrOpen _ => 0x18#8
  | .bsrGet _ => 0x19#8
  | .bsrAlign => 0x1A#8
  | .hufCount => 0x20#8
  | .hufBuild => 0x21#8
  | .hufSerial => 0x22#8
  | .hufDeser => 0x23#8
  | .hufEnc => 0x24#8
  | .hufDec => 0x25#8
  | .hufCode _ => 0x26#8
  | .lz77Find => 0x30#8
  | .lz77Enc => 0x31#8
  | .lz77Dec => 0x32#8
  | .lz78Enc => 0x38#8
  | .lz78Dec => 0x39#8
  | .qtGen => 0x40#8
  | .dctFwd => 0x41#8
  | .quant => 0x42#8
  | .dequant => 0x43#8
  | .dctInv => 0x44#8
  | .dctEnc => 0x45#8
  | .dctDec => 0x46#8

/-- R112: the IMM field of a command, 0 for every command that does not use it. -/
def Instr.imm : Instr → Byte
  | .bswPut n => n
  | .bsrOpen pad => pad
  | .bsrGet n => n
  | .hufCode s => s
  | .nop | .bswOpen | .bswFlush | .bsrAlign | .hufCount | .hufBuild | .hufSerial | .hufDeser
  | .hufEnc | .hufDec | .lz77Find | .lz77Enc | .lz77Dec | .lz78Enc | .lz78Dec | .qtGen | .dctFwd
  | .quant | .dequant | .dctInv | .dctEnc | .dctDec => 0#8

/-- R110: OPC = c[7:0]. -/
def opcField (c : Word64) : Byte := c.extractLsb' 0 8
/-- R110: IMM = c[15:8]. -/
def immField (c : Word64) : Byte := c.extractLsb' 8 8
/-- R110: RSV = c[63:16]. -/
def rsvField (c : Word64) : BitVec 48 := c.extractLsb' 16 48

/-- R113: the row whose OPC is `opc`, its immediate operand (if it has one) taken from `imm`. -/
def rowOf (opc imm : Byte) : Option Instr :=
  match opc.toNat with
  | 0x00 => some .nop
  | 0x10 => some .bswOpen
  | 0x11 => some (.bswPut imm)
  | 0x12 => some .bswFlush
  | 0x18 => some (.bsrOpen imm)
  | 0x19 => some (.bsrGet imm)
  | 0x1A => some .bsrAlign
  | 0x20 => some .hufCount
  | 0x21 => some .hufBuild
  | 0x22 => some .hufSerial
  | 0x23 => some .hufDeser
  | 0x24 => some .hufEnc
  | 0x25 => some .hufDec
  | 0x26 => some (.hufCode imm)
  | 0x30 => some .lz77Find
  | 0x31 => some .lz77Enc
  | 0x32 => some .lz77Dec
  | 0x38 => some .lz78Enc
  | 0x39 => some .lz78Dec
  | 0x40 => some .qtGen
  | 0x41 => some .dctFwd
  | 0x42 => some .quant
  | 0x43 => some .dequant
  | 0x44 => some .dctInv
  | 0x45 => some .dctEnc
  | 0x46 => some .dctDec
  | _ => none

/-- R113, R114: `decode(c)`. -/
def decode (c : Word64) : Except DecodeError Instr :=
  match rowOf (opcField c) (immField c) with
  | none => .error .unmappedOpcode
  | some i =>
    if rsvField c ≠ 0#48 then .error .reservedBits
    else if immField c ≠ i.imm ∨ i.wellFormed = false then .error .badImmediate
    else .ok i

/-- R116: the word `(IMM << 8) | OPC`, as the concatenation (R9) of RSV = 0, IMM and OPC. -/
def encode (i : Instr) : Word64 := (0#48 ++ i.imm : BitVec 56) ++ i.opcode

/-- The command the decoder reads from the low `nbits` bits of `w`, numbered as
spec/opcode_table.json numbers them. A command word is one 64-bit value (R115), so bit k of the
table is bit k of the word and no byte order enters. -/
def decodeTableWord (nbits w : Nat) : Option Instr :=
  (decode (BitVec.ofNat 64 (w % 2 ^ nbits))).toOption

end Sys2Proof
end

