-- ==== Sys2Proof/Machine/Flags.lean ====
section
/-! DEFINITION. The flags and the registers that are views of the state: BUSY and STATUS (10_state.md
R35), CTRL (R34), CFG (R37), ID (R33), the stream status registers (R41) and IRQ (R53). The CXB has
no condition codes (R52). -/

namespace Sys2Proof.Machine

/-- STATUS.BUSY (R35, R49): a command is pending. -/
def State.busy (s : State) : Bool := s.pending.isSome

/-- IRQ (R53, R320). -/
def State.irq (s : State) : Bool := s.ien && (s.done || s.err)

/-- The level of the platform's interrupt line `line` that this CXB drives (R320). -/
def State.irqOnLine (s : State) (line : Nat) : Bool := decide (line = Config.irqLine) && s.irq

/-- The ID register (R33). -/
def State.idWord (s : State) : Word64 :=
  (0#16 ++ BitVec.ofNat 8 s.aw.val ++ 0x01#8 ++ 0x43584231#32 : BitVec (16 + 8 + 8 + 32))

/-- The CTRL register as it reads (R34). -/
def State.ctrlWord (s : State) : Word64 := (0#63 ++ BitVec.ofBool s.ien : BitVec (63 + 1))

/-- The STATUS register as it reads (R35). -/
def State.statusWord (s : State) : Word64 :=
  (0#40 ++ s.lastOp ++ s.errCode ++ 0#4 ++ BitVec.ofBool s.wbusy ++ BitVec.ofBool s.err ++
    BitVec.ofBool s.done ++ BitVec.ofBool s.busy : BitVec (40 + 8 + 8 + 4 + 1 + 1 + 1 + 1))

/-- The CFG register as it reads (R37). -/
def State.cfgWord (s : State) : Word64 :=
  (0#55 ++ BitVec.ofBool s.mode ++ 0#1 ++ s.quality : BitVec (55 + 1 + 1 + 7))

/-- The BS_STAT register (R41). -/
def State.bsStatWord (s : State) : Word64 :=
  (0#53 ++ BitVec.ofNat 3 s.wr.pad.val ++ 0#6 ++ BitVec.ofBool s.rd.isOpen ++
    BitVec.ofBool s.wr.isOpen : BitVec (53 + 3 + 6 + 1 + 1))

/-- A host write of `v` to STATUS while BUSY = 0: W1C on DONE, ERR and WBUSY (R35). -/
def State.clearStatus (s : State) (v : Word64) : State :=
  { s with
    done := s.done && !v.getLsbD 1
    err := s.err && !v.getLsbD 2
    wbusy := s.wbusy && !v.getLsbD 3 }

end Sys2Proof.Machine
end

