-- ==== Sys2Proof/Machine/Host.lean ====
section
/-! DEFINITION. The host's side of the CXB: the register map (10_state.md R32 to R46), host accesses
(20_memory.md R81, R83, R86), their effects while the engine is busy (70_reset_and_hazards.md R360,
R361), the soft reset (R352) and the polling loop of 30_encoding.md R117. -/

namespace Sys2Proof.Machine

/-! ## The register map -/

/-- A host register or table entry by name (R32). -/
inductive Reg where
  | id | ctrl | status | cmd | cfg | srcAddr | srcLen | dstAddr | dstCap | cnt | bsData
  | out0 | out1 | out2 | bswPos | bsrPos | bsrEnd | bsStat | qtabQ
  | freq (i : Fin 256) | clen (i : Fin 256) | qtab (i : Fin 64)
  /-- A reserved offset (R43): reads 0, writes ignored. -/
  | reserved
  deriving DecidableEq, Repr

/-- R32: the register at an offset that is a multiple of 8 and below BUF_BASE. -/
def regAt (off : Nat) : Reg :=
  if 0x800 ≤ off ∧ off < 0x1000 then .freq (Fin.ofNat 256 ((off - 0x800) / 8))
  else if 0x1000 ≤ off ∧ off < 0x1800 then .clen (Fin.ofNat 256 ((off - 0x1000) / 8))
  else if 0x1800 ≤ off ∧ off < 0x1A00 then .qtab (Fin.ofNat 64 ((off - 0x1800) / 8))
  else
    match off with
    | 0x000 => .id
    | 0x008 => .ctrl
    | 0x010 => .status
    | 0x018 => .cmd
    | 0x020 => .cfg
    | 0x028 => .srcAddr
    | 0x030 => .srcLen
    | 0x038 => .dstAddr
    | 0x040 => .dstCap
    | 0x048 => .cnt
    | 0x050 => .bsData
    | 0x058 => .out0
    | 0x060 => .out1
    | 0x068 => .out2
    | 0x070 => .bswPos
    | 0x078 => .bsrPos
    | 0x080 => .bsrEnd
    | 0x088 => .bsStat
    | 0x090 => .qtabQ
    | _ => .reserved

/-- The value a register shows (R33 to R46). -/
def readReg (r : Reg) (s : State) : Word64 :=
  match r with
  | .id => s.idWord
  | .ctrl => s.ctrlWord
  | .status => s.statusWord
  | .cmd => 0#64
  | .cfg => s.cfgWord
  | .srcAddr => s.srcAddr
  | .srcLen => s.srcLen
  | .dstAddr => s.dstAddr
  | .dstCap => s.dstCap
  | .cnt => s.cnt
  | .bsData => s.bsData
  | .out0 => s.out0
  | .out1 => s.out1
  | .out2 => s.out2
  | .bswPos => BitVec.ofNat 64 s.writerBits
  | .bsrPos => BitVec.ofNat 64 s.rd.pos
  | .bsrEnd => BitVec.ofNat 64 s.rd.stop
  | .bsStat => s.bsStatWord
  | .qtabQ => s.qtabQ.zeroExtend 64
  | .freq i => s.freq.get i
  | .clen i => (s.clen.get i).zeroExtend 64
  | .qtab i => (s.qtab.get i).zeroExtend 64
  | .reserved => 0#64

/-! ## Resets -/

/-- R352 items 1 and 4: the output bytes of the command that a soft reset aborts, if one is
running and it has any. -/
def State.abortedRange (s : State) : Option (Nat × Nat) :=
  match s.pending with
  | none => none
  | some c =>
    match decode c with
    | .error _ => none
    | .ok i => outputRange i s

/-- R352: the soft reset. -/
def softReset (s : State) : State :=
  { State.resetWith s.aw with
    buf := match s.abortedRange with | none => s.buf | some r => s.spoil r
    script := s.script, busData := s.busData, draws := s.draws + 1, power := s.power }

/-- R350: power is removed and applied again; BUF's contents become unspecified anew. -/
def powerOnReset (s : State) : State :=
  { State.resetWith s.aw with
    script := s.script, busData := s.busData, draws := s.draws, power := s.power + 1 }

/-! ## Register writes -/

/-- A host write of `v` to CTRL, accepted whether or not the engine is busy (R34, R352). -/
def writeCtrl (v : Word64) (s : State) : State :=
  if v.getLsbD 1 then softReset s else { s with ien := v.getLsbD 0 }

/-- A host write of `v` to a register other than CTRL while BUSY = 0 (R35 to R46); a read-only or
reserved register ignores it. -/
def writeReg (r : Reg) (v : Word64) (s : State) : State :=
  match r with
  | .status => s.clearStatus v
  | .cmd => s.accept v
  | .cfg => { s with quality := v.extractLsb' 0 7, mode := v.getLsbD 8 }
  | .srcAddr => { s with srcAddr := v }
  | .srcLen => { s with srcLen := v }
  | .dstAddr => { s with dstAddr := v }
  | .dstCap => { s with dstCap := v }
  | .cnt => { s with cnt := v }
  | .bsData => { s with bsData := v }
  | .freq i => { s with freq := s.freq.set i.val v i.isLt }
  | .ctrl => writeCtrl v s
  | .id | .out0 | .out1 | .out2 | .bswPos | .bsrPos | .bsrEnd | .bsStat | .qtabQ | .clen _
  | .qtab _ | .reserved => s

/-! ## Bus accesses -/

/-- What a well-formed host access reaches (R81). -/
inductive BusTarget where
  | reg (r : Reg)
  | buf (a : Nat)
  deriving DecidableEq, Repr

/-- R83: what an access of `width` bytes at `addr` reaches; none for a bus error. -/
def busTarget (s : State) (width : Nat) (addr : Offset) : Option BusTarget :=
  let a := addr.toNat
  if a < Config.bufBase then
    if width = 8 ∧ a % 8 = 0 then some (.reg (regAt a)) else none
  else if (width = 1 ∨ width = 2 ∨ width = 4 ∨ width = 8) ∧ a % width = 0 ∧
      a - Config.bufBase + width ≤ s.bufSize then
    some (.buf (a - Config.bufBase))
  else none

/-- R83: the value of bytes in the host's little-endian order. -/
def leValue (bytes : List Byte) : Nat := bytes.foldr (fun b v => 256 * v + b.toNat) 0

/-- R83: the low `n` bytes of `v` in little-endian order. -/
def leBytes (v : Word64) (n : Nat) : List Byte :=
  (List.range n).map fun j => v.extractLsb' (8 * j) 8

/-- R360: a read that returns an unspecified value of `width` bytes. -/
def unspecifiedRead (width : Nat) (s : State) : State :=
  { s with
    busData := BitVec.ofNat 64 ((Config.freeWord s.draws 0).toNat % 2 ^ (8 * width))
    draws := s.draws + 1 }

/-- A host read of `width` bytes at a target (R86, R360): only ID and STATUS read exactly while
BUSY = 1. -/
def hostRead (t : BusTarget) (width : Nat) (s : State) : State :=
  match t with
  | .reg r =>
    if s.busy && r ≠ .id && r ≠ .status then unspecifiedRead width s
    else { s with busData := readReg r s }
  | .buf a =>
    if s.busy then unspecifiedRead width s
    else { s with busData := BitVec.ofNat 64 (leValue (s.bytesAt a width)) }

/-- A host write of the low `width` bytes of `v` to a target (R86, R361): while BUSY = 1 every
write other than to CTRL is dropped and sets WBUSY. -/
def hostWrite (t : BusTarget) (width : Nat) (v : Word64) (s : State) : State :=
  if s.busy && t ≠ .reg .ctrl then { s with wbusy := true }
  else
    match t with
    | .reg r => writeReg r v s
    | .buf a => s.storeBytes a (leBytes v width)

/-- R117, R367: a `WAIT` of which `polls` reads land while the running command has not ended. -/
def waitEvent (polls : Nat) : HostEvent := ⟨.wait polls, decide (0 < polls)⟩

/-- One host action (R95). A `WAIT` reads STATUS and, while that reads BUSY = 1, is the host's next
action again (R117). -/
def hostAct (act : HostAction) (s : State) : Host.Outcome State Fault Refusal :=
  match act with
  | .read width addr =>
    match busTarget s width addr with
    | none => .refused (.busError width addr)
    | some t => .next (hostRead t width s)
  | .write width addr v =>
    match busTarget s width addr with
    | none => .refused (.busError width addr)
    | some t => .next (hostWrite t width v s)
  | .sampleIrq => .next { s with busData := (BitVec.ofBool s.irq).zeroExtend 64 }
  | .wait polls =>
    .next { s with
      busData := s.statusWord
      script := if s.statusWord.getLsbD 0 then waitEvent (polls - 1) :: s.script else s.script }
  | .powerOn => .next (powerOnReset s)

/-- The host's turn: its next action, or nothing while its script is empty (R328: an idle CXB keeps
its state). -/
def hostTurn (s : State) : Host.Outcome State Fault Refusal :=
  match s.script with
  | [] => .next s
  | e :: rest => hostAct e.act { s with script := rest }

/-- Does the host's next action wait for the running command's end? (R362, R367) -/
def State.hostWaits (s : State) : Bool :=
  match s.script with
  | [] => true
  | e :: _ => !e.early

/-- A script whose next action waits for the running command's end. -/
def holdHost : List HostEvent → List HostEvent
  | [] => []
  | e :: rest => { e with early := false } :: rest

/-! ## Platform placement -/

/-- R81: the CXB offset that the platform address `addr` reaches, if it is the CXB's. -/
def hostOffset (addr : Nat) : Option Offset :=
  if Config.cxbBase ≤ addr ∧ addr < Config.cxbBase + 2 ^ 32 then
    some (BitVec.ofNat 32 (addr - Config.cxbBase))
  else none

end Sys2Proof.Machine
end

