-- ==== Sys2Proof/Machine/Engine.lean ====
section
/-! DEFINITION. The engine's step and the choice between the CXB's two agents (10_state.md R49,
20_memory.md R90, 70_reset_and_hazards.md R362). -/

namespace Sys2Proof.Machine

/-- The engine executes the pending command word whole (R49); an illegal word ends with
IllegalCommand and no other effect (R114, R316 step 1). -/
def engineStep (c : Word64) (s : State) : Host.Outcome State Fault Refusal :=
  match decode c with
  | .ok i => exec i s
  | .error _ => .next (endPreError .illegalCommand s)

/-- One step of the CXB and its host: while a command is pending the engine runs, unless the host's
next action lands before the command's end. -/
def machineStep (s : State) : Host.Outcome State Fault Refusal :=
  match s.pending with
  | none => hostTurn s
  | some c => if s.hostWaits then engineStep c s else hostTurn s

/-- `s` with the command word `c` accepted and the host waiting for its end. -/
def placeCommand (s : State) (c : Word64) : State :=
  { s.accept c with script := holdHost s.script }

end Sys2Proof.Machine
end

