-- ==== Sys2Proof/Machine/Script.lean ====
section
/-! DEFINITION. The host script language of 30_encoding.md R117: its statements and
pseudo-instructions, and the host actions each expands to. The command forms assemble as R116
says (Decode.lean, `encode`). -/

namespace Sys2Proof.Machine

/-- R32: the offset of a register or table entry; of the reserved ones, which R32 does not name, the
first (DESIGN CHOICE, assumption 20). -/
def Reg.offset : Reg → Nat
  | .id => 0x000
  | .ctrl => 0x008
  | .status => 0x010
  | .cmd => 0x018
  | .cfg => 0x020
  | .srcAddr => 0x028
  | .srcLen => 0x030
  | .dstAddr => 0x038
  | .dstCap => 0x040
  | .cnt => 0x048
  | .bsData => 0x050
  | .out0 => 0x058
  | .out1 => 0x060
  | .out2 => 0x068
  | .bswPos => 0x070
  | .bsrPos => 0x078
  | .bsrEnd => 0x080
  | .bsStat => 0x088
  | .qtabQ => 0x090
  | .reserved => 0x098
  | .freq i => 0x800 + 8 * i.val
  | .clen i => 0x1000 + 8 * i.val
  | .qtab i => 0x1800 + 8 * i.val

/-- R117: a statement or pseudo-instruction of a host script. -/
inductive ScriptStmt where
  /-- `WR <REG>, <value>`. -/
  | wr (reg : Reg) (value : Word64)
  /-- `RD <REG>`. -/
  | rd (reg : Reg)
  /-- `WRB <a>, <b0> <b1> ...`. -/
  | wrb (a : Nat) (bytes : List Byte)
  /-- `RDB <a>, <n>`. -/
  | rdb (a n : Nat)
  /-- `WRS <a>, "text"`. -/
  | wrs (a : Nat) (text : String)
  /-- `WAIT`; `polls` STATUS reads besides the last one land before the command's end (R367). -/
  | wait (polls : Nat)
  /-- `<MNEMONIC> [imm]`, with the `polls` of the `WAIT` it ends in. -/
  | command (i : Instr) (polls : Nat)
  /-- `EXPECT <REG> = <value>`, an assertion that performs no access. -/
  | expect (reg : Reg) (value : Word64)
  deriving DecidableEq, Repr

/-- A host action that waits for the running command's end: where an access of a script lands if
nothing says otherwise, which is the model's choice (DESIGN CHOICE, assumption 1); `landEarly` says
otherwise. -/
def plainEvent (act : HostAction) : HostEvent := ⟨act, false⟩

/-- R117: `WR <REG>, v`. -/
def scriptWr (r : Reg) (v : Word64) : List HostEvent :=
  [plainEvent (.write 8 (BitVec.ofNat 32 r.offset) v)]

/-- R117: `RD <REG>`. -/
def scriptRd (r : Reg) : List HostEvent := [plainEvent (.read 8 (BitVec.ofNat 32 r.offset))]

/-- R117: `WRB a, bytes`. An offset BUF_BASE + a + j of 2^32 or more, of which the spec is silent,
wraps modulo 2^32 (DESIGN CHOICE, assumption 20). -/
def scriptWrb (a : Nat) (bytes : List Byte) : List HostEvent :=
  bytes.zipIdx.map fun p =>
    plainEvent (.write 1 (BitVec.ofNat 32 (Config.bufBase + a + p.2)) (p.1.zeroExtend 64))

/-- R117: `RDB a, n`. An offset of 2^32 or more wraps as in `scriptWrb` (DESIGN CHOICE,
assumption 20). -/
def scriptRdb (a n : Nat) : List HostEvent :=
  (List.range n).map fun j => plainEvent (.read 1 (BitVec.ofNat 32 (Config.bufBase + a + j)))

/-- R117: `WRS a, "text"`, the ASCII bytes of the text. Of a character that is not ASCII, of which the
spec is silent, it writes the low 8 bits of the code point (DESIGN CHOICE, assumption 20). -/
def scriptWrs (a : Nat) (text : String) : List HostEvent :=
  scriptWrb a (text.toList.map fun c => BitVec.ofNat 8 c.toNat)

/-- R117: `WAIT`. -/
def scriptWait (polls : Nat) : List HostEvent := [waitEvent polls]

/-- R116, R117: a command, `WR CMD, <word>` followed by `WAIT`. -/
def scriptCmd (i : Instr) (polls : Nat) : List HostEvent :=
  scriptWr .cmd (encode i) ++ scriptWait polls

/-- R117: what a statement expands to. -/
def ScriptStmt.expand : ScriptStmt → List HostEvent
  | .wr r v => scriptWr r v
  | .rd r => scriptRd r
  | .wrb a bytes => scriptWrb a bytes
  | .rdb a n => scriptRdb a n
  | .wrs a text => scriptWrs a text
  | .wait polls => scriptWait polls
  | .command i polls => scriptCmd i polls
  | .expect _ _ => []

/-- The events of a script of which the first `n` land while a running command has not ended. -/
def landEarly (n : Nat) (evs : List HostEvent) : List HostEvent :=
  (evs.take n).map (fun e => { e with early := true }) ++ evs.drop n

/-- A line of a host script. The spec does not say which accesses after a bare `WR CMD` land while
BUSY = 1 (R362, R367), so the line does: the first `early` accesses of its statement land before a
running command's end (vector R6 of 95_test_vectors.md needs one), and the others wait for it.
DESIGN CHOICE (assumption 1): the schedule is data of the script; a line with `early = 0`, the
default, waits. -/
structure ScriptLine where
  stmt : ScriptStmt
  early : Nat := 0
  deriving DecidableEq, Repr

/-- R117, R367: the events of a line. -/
def ScriptLine.expand (l : ScriptLine) : List HostEvent := landEarly l.early l.stmt.expand

/-- A host script as the events of State.script. -/
def expandScript (lines : List ScriptLine) : List HostEvent := lines.flatMap ScriptLine.expand

end Sys2Proof.Machine
end

