-- ==== Sys2Proof/Safety.lean ====
section
/-! DEFINITION. What counts as a safe state: the invariants the spec's rules give the CXB, one
predicate for each kind of state. Every one holds after reset; that every step keeps it is stated
in Certificates/Slice0/Obligations.lean. -/

namespace Sys2Proof.Machine

/-- R80, and the model's canonical form of memory: BUF lists rising addresses below BUF_SIZE. -/
def State.BufOk (s : State) : Prop := s.buf.wf ∧ ∀ c ∈ s.buf, c.1 < s.bufSize

/-- R47, R141: an open writer lies in BUF, never holds more bits than its capacity, and its pending
byte has no bit above W.nb. -/
def State.WriterOk (s : State) : Prop :=
  s.wr.isOpen = true →
    s.wr.base + s.wr.cap ≤ s.bufSize ∧ s.writerBits ≤ 8 * s.wr.cap ∧
      s.wr.acc.toNat < 2 ^ s.wr.nb.val

/-- R48, R147: an open reader lies in BUF, ends in its last byte and has not passed its end. -/
def State.ReaderOk (s : State) : Prop :=
  s.rd.isOpen = true →
    s.rd.base + s.rd.len ≤ s.bufSize ∧ s.rd.stop ≤ 8 * s.rd.len ∧ 8 * s.rd.len ≤ s.rd.stop + 7 ∧
      s.rd.pos ≤ s.rd.stop

/-- Both open streams lie in BUF: what keeps every stream access of a command inside it (R303). -/
def State.StreamsInBuf (s : State) : Prop :=
  (s.wr.isOpen = true → s.wr.base + s.wr.cap ≤ s.bufSize) ∧
    (s.rd.isOpen = true → s.rd.base + s.rd.len ≤ s.bufSize ∧ s.rd.stop ≤ 8 * s.rd.len)

/-- R312: the values ERRCODE can take: 0 and the codes some rule raises. -/
def raisedCodes : List Byte :=
  [0x00#8, 0x01#8, 0x03#8, 0x04#8, 0x05#8, 0x06#8, 0x07#8, 0x08#8] ++
    [0x10#8, 0x11#8, 0x12#8, 0x13#8, 0x14#8]

/-- R35, R313: DONE and ERR are never both set, ERR comes with a code that R312 lists as raised and
DONE with none, and while a command runs both are clear and LASTOP is its opcode byte. -/
def State.StatusOk (s : State) : Prop :=
  s.errCode ∈ raisedCodes ∧ (s.done = true → s.err = false ∧ s.errCode = 0#8) ∧
    (s.err = true → s.errCode ≠ 0#8) ∧
    ∀ c, s.pending = some c →
      s.done = false ∧ s.err = false ∧ s.errCode = 0#8 ∧ s.lastOp = c.extractLsb' 0 8

/-- R42, R46: QTAB is the table of the quality that QTAB_Q shows, a legal one. -/
def State.QtabOk (s : State) : Prop :=
  s.qtab = qtabFor s.qtabQ.toNat ∧ 1 ≤ s.qtabQ.toNat ∧ s.qtabQ.toNat ≤ 100

/-- R45: CLEN meets the Kraft inequality, scaled by 2^255. -/
def State.KraftOk (s : State) : Prop := kraftSum s.clen ≤ 2 ^ Config.maxClen

/-- All of them. -/
def State.Safe (s : State) : Prop :=
  s.BufOk ∧ s.WriterOk ∧ s.ReaderOk ∧ s.StatusOk ∧ s.QtabOk ∧ s.KraftOk

/-! ## The bits a stream holds, in the terms claims use -/

/-- R140, R141: the bits the open writer holds, first bit first: its complete bytes in BUF, then its
pending bits. -/
def State.writtenBits (s : State) : List Bool :=
  ((s.bytesAt s.wr.base s.wr.cnt).flatMap fun b => bitsOf b.toNat 8) ++
    bitsOf s.wr.acc.toNat s.wr.nb.val

/-- R84, R141: `t` is `s` with `bits` appended to the open writer and nothing else changed: the
stream grows by exactly these bits, only W.cnt, W.acc and W.nb of the writer move, and the only BUF
bytes that may change are the ones the append completes, which lie from W.base + W.cnt on. -/
def Appends (s t : State) (bits : List Bool) : Prop :=
  t.writtenBits = s.writtenBits ++ bits ∧
    t = { s with
      wr := { s.wr with cnt := (s.writerBits + bits.length) / 8, acc := t.wr.acc, nb := t.wr.nb }
      buf := t.buf } ∧
    t.wr.nb.val = (s.writerBits + bits.length) % 8 ∧
    ∀ a, ¬(s.wr.base + s.wr.cnt ≤ a ∧ a < s.wr.base + (s.writerBits + bits.length) / 8) →
      t.byteAt a = s.byteAt a

end Sys2Proof.Machine
end

