-- ==== Sys2Proof/Certificates/Slice0/Obligations.lean ====
section
/-! DEFINITION. The statements about the machine, and the terms they are written in. Each docstring
names the rules of spec/ the statement formalises. -/

namespace Sys2Proof.Claims

open Sys2Proof.Machine

/-! ## Terms: commands -/

/-- R313, R40: `s` after a command that ended without error, with OUT0 to OUT2, and nothing else
changed. -/
def finish (s : State) (o0 o1 o2 : Nat) : State :=
  { s with
    pending := none, done := true, err := false, errCode := 0#8
    out0 := BitVec.ofNat 64 o0, out1 := BitVec.ofNat 64 o1, out2 := BitVec.ofNat 64 o2 }

/-- R313, R317: `s` after a pre-check error with the given code, and nothing else changed. -/
def failWith (s : State) (code : Byte) : State :=
  { s with pending := none, done := false, err := true, errCode := code }

/-- R313: `t` is the end of a command on `s` that appended `bits` to the open writer and changed
nothing else but OUT. -/
def AppendEnds (s t : State) (bits : List Bool) (o0 o1 o2 : Nat) : Prop :=
  ∃ u, Appends s u bits ∧ t = finish u o0 o1 o2

/-- R47, R176: the writer is open on a range of BUF, its pending byte is well formed, and `n` more
bits fit. -/
def WriterHasRoom (s : State) (n : Nat) : Prop :=
  s.wr.isOpen = true ∧ s.wr.base + s.wr.cap ≤ 2 ^ s.aw.val ∧
    s.wr.acc.toNat < 2 ^ s.wr.nb.val ∧ 8 * s.wr.cnt + s.wr.nb.val + n ≤ 8 * s.wr.cap

/-- R141, R145: the writer is open on a range of BUF and well formed, and `n` more bits do not
fit. -/
def WriterLacks (s : State) (n : Nat) : Prop :=
  WriterHasRoom s 0 ∧ 8 * s.wr.cap < 8 * s.wr.cnt + s.wr.nb.val + n

/-- R82, R88: the source lies in BUF. -/
def SourceInBuf (s : State) : Prop := s.srcAddr.toNat + s.srcLen.toNat ≤ 2 ^ s.aw.val

/-- R82, R88: the destination lies in BUF. -/
def DestInBuf (s : State) : Prop := s.dstAddr.toNat + s.dstCap.toNat ≤ 2 ^ s.aw.val

/-- R82: the ranges (a, n) and (b, m) overlap. -/
def Overlapping (a n b m : Nat) : Prop := 0 < n ∧ 0 < m ∧ a < b + m ∧ b < a + n

/-- R176, R213, R217: the pre-checks of an encoder pass. -/
def EncoderReady (s : State) : Prop :=
  s.wr.isOpen = true ∧ SourceInBuf s ∧
    ¬Overlapping s.srcAddr.toNat s.srcLen.toNat s.wr.base s.wr.cap

/-- R89: the decoder pre-checks pass. -/
def DecoderReady (s : State) : Prop :=
  s.rd.isOpen = true ∧ DestInBuf s ∧
    ¬Overlapping s.dstAddr.toNat s.dstCap.toNat s.rd.base s.rd.len ∧
    s.cnt.toNat ≤ s.dstCap.toNat

/-- R258 and dct_io_pre (44_dct.md): the pre-checks the six DCT data commands share pass. -/
def DctReady (s : State) : Prop :=
  s.mode = true ∧ SourceInBuf s ∧ DestInBuf s ∧
    ¬Overlapping s.srcAddr.toNat s.srcLen.toNat s.dstAddr.toNat s.dstCap.toNat

/-- R48: the open reader lies in BUF. -/
def ReaderInBuf (s : State) : Prop :=
  s.rd.isOpen = true ∧ s.rd.base + s.rd.len ≤ 2 ^ s.aw.val ∧ s.rd.stop ≤ 8 * s.rd.len

/-- R140, R143: the next bits of the open stream are `bits`: bit k is bit 7 - (k mod 8) of the byte
at R.base + (k div 8). -/
def NextBitsAre (s : State) (bits : List Bool) : Prop :=
  s.rd.pos + bits.length ≤ s.rd.stop ∧
    ∀ j (hj : j < bits.length),
      bits[j] = (s.byteAt (s.rd.base + (s.rd.pos + j) / 8)).getLsbD (7 - (s.rd.pos + j) % 8)

/-- R143: the bits of the open stream from R.pos up to R.end are `bits`. -/
def LastBitsAre (s : State) (bits : List Bool) : Prop :=
  NextBitsAre s bits ∧ s.rd.stop = s.rd.pos + bits.length

/-- R89: `t` is `s` after a decoder that wrote `bytes` from DST_ADDR on and consumed `bits` bits. -/
def DecodeEnds (s t : State) (bytes : List Byte) (bits o0 o1 o2 : Nat) : Prop :=
  t = { finish s o0 o1 o2 with rd := { s.rd with pos := s.rd.pos + bits }, buf := t.buf } ∧
    (∀ j (hj : j < bytes.length), t.byteAt (s.dstAddr.toNat + j) = bytes[j]) ∧
    ∀ a, ¬(s.dstAddr.toNat ≤ a ∧ a < s.dstAddr.toNat + bytes.length) → t.byteAt a = s.byteAt a

/-! ## Terms: the command word -/

/-- R113: the opcodes of the map that use no immediate. -/
def immFreeOpcodes : List Nat :=
  [0x00, 0x10, 0x12, 0x1A, 0x20, 0x21, 0x22, 0x23, 0x24, 0x25] ++
    [0x30, 0x31, 0x32, 0x38, 0x39, 0x40, 0x41, 0x42, 0x43, 0x44, 0x45, 0x46]

/-- R112, R113: `imm` is a legal IMM of the row `opc`, which exists. -/
def LegalImm (opc imm : Nat) : Prop :=
  (opc ∈ immFreeOpcodes ∧ imm = 0) ∨ ((opc = 0x11 ∨ opc = 0x19) ∧ imm ≤ 64) ∨
    (opc = 0x18 ∧ imm ≤ 7) ∨ opc = 0x26

/-- R113: the word is legal. -/
def LegalWord (c : Word64) : Prop :=
  c.toNat / 2 ^ 16 = 0 ∧ LegalImm (c.toNat % 256) (c.toNat / 256 % 256)

/-! ## Terms: the host -/

/-- How many steps the host may take for an event while a command runs (R117, R367). -/
def hostSteps (e : HostEvent) : Nat :=
  match e.act with
  | .wait polls => polls + 1
  | .read _ _ | .write _ _ _ | .sampleIrq | .powerOn => 1

/-- R83: the host access of `width` bytes at `addr` is no bus error. -/
def ValidAccess (s : State) (width : Nat) (addr : Offset) : Prop :=
  (addr.toNat < 0x01000000 ∧ width = 8 ∧ addr.toNat % 8 = 0) ∨
    (0x01000000 ≤ addr.toNat ∧ (width = 1 ∨ width = 2 ∨ width = 4 ∨ width = 8) ∧
      addr.toNat % width = 0 ∧ addr.toNat - 0x01000000 + width ≤ 2 ^ s.aw.val)

/-- The access a host action makes, if it makes one, is no bus error. -/
def ValidAction (s : State) : HostAction → Prop
  | .read width addr => ValidAccess s width addr
  | .write width addr _ => ValidAccess s width addr
  | .sampleIrq => True
  | .wait _ => True
  | .powerOn => True

/-- R49, R90: the host's next action is `act`, and it is the host's turn. -/
def HostActsNext (s : State) (act : HostAction) (rest : List HostEvent) : Prop :=
  ∃ early, s.script = ⟨act, early⟩ :: rest ∧ (s.pending = none ∨ early = true)

/-- R352: `a` is an address of the output bytes of the command that is running: for a decoder or a
DCT data command those of (DST_ADDR, DST_CAP), for a command that appends to the open writer those
of (W.base, W.cap). -/
def AbortedByte (s : State) (a : Nat) : Prop :=
  ∃ c i, s.pending = some c ∧ decode c = .ok i ∧
    ((i ∈ [.hufDec, .lz77Dec, .lz78Dec, .dctFwd, .quant, .dequant, .dctInv, .dctEnc, .dctDec] ∧
        s.dstAddr.toNat ≤ a ∧ a < s.dstAddr.toNat + s.dstCap.toNat) ∨
      (((∃ n, i = .bswPut n) ∨ i ∈ [.bswFlush, .hufSerial, .hufEnc, .lz77Enc, .lz78Enc]) ∧
        s.wr.isOpen = true ∧ s.wr.base ≤ a ∧ a < s.wr.base + s.wr.cap))

/-! ## Terms: errors -/

/-- R312: the codes of the pre-check errors each command raises. -/
def preCodes : Instr → List Byte
  | .nop | .hufBuild | .hufCode _ => [0x10#8]
  | .bswOpen | .hufCount | .lz77Find => [0x10#8, 0x11#8]
  | .bswPut _ | .bswFlush | .bsrAlign | .hufSerial | .hufDeser => [0x10#8, 0x13#8]
  | .bsrOpen _ => [0x10#8, 0x11#8, 0x07#8]
  | .bsrGet _ => [0x10#8, 0x13#8, 0x08#8]
  | .hufEnc | .lz77Enc | .lz78Enc => [0x10#8, 0x13#8, 0x11#8]
  | .hufDec => [0x10#8, 0x13#8, 0x11#8, 0x12#8, 0x04#8]
  | .lz77Dec | .lz78Dec => [0x10#8, 0x13#8, 0x11#8, 0x12#8]
  | .qtGen => [0x10#8, 0x03#8, 0x01#8]
  | .dctFwd | .dctEnc => [0x10#8, 0x03#8, 0x11#8, 0x12#8]
  | .quant | .dequant => [0x10#8, 0x03#8, 0x11#8, 0x07#8, 0x12#8]
  | .dctInv | .dctDec => [0x10#8, 0x03#8, 0x11#8, 0x05#8, 0x12#8]

/-- R312: the codes of the run-time errors each command raises. -/
def runCodes : Instr → List Byte
  | .bswPut _ | .hufSerial | .lz77Enc | .lz78Enc => [0x12#8]
  | .hufEnc => [0x12#8, 0x14#8]
  | .hufDeser => [0x05#8, 0x04#8]
  | .hufDec => [0x05#8, 0x07#8]
  | .lz77Dec | .lz78Dec => [0x05#8, 0x06#8, 0x07#8]
  | .nop | .bswOpen | .bswFlush | .bsrOpen _ | .bsrGet _ | .bsrAlign | .hufCount | .hufBuild
  | .hufCode _ | .lz77Find | .qtGen | .dctFwd | .quant | .dequant | .dctInv | .dctEnc
  | .dctDec => []

/-- R318: `a` is an address whose byte a run-time error of `i` leaves unspecified. -/
def SpoiledByte (i : Instr) (s : State) (a : Nat) : Prop :=
  (i ∈ [.hufDec, .lz77Dec, .lz78Dec] ∧
      s.dstAddr.toNat ≤ a ∧ a < s.dstAddr.toNat + s.dstCap.toNat) ∨
    (((∃ n, i = .bswPut n) ∨ i ∈ [.hufSerial, .hufEnc, .lz77Enc, .lz78Enc]) ∧
      s.wr.base ≤ a ∧ a < s.wr.base + s.wr.cap)

/-- R318: what a run-time error of `i` leaves, the unspecified values being those `t` holds. -/
def RunErrorEnds (i : Instr) (s t : State) : Prop :=
  t = { s with
      pending := none, done := false, err := true, errCode := t.errCode
      out0 := t.out0, out1 := t.out1, out2 := t.out2
      wr := t.wr, rd := t.rd, buf := t.buf, draws := t.draws } ∧
    t.wr.isOpen = false ∧ t.rd.isOpen = false ∧ t.wr.pad = s.wr.pad ∧
    ∀ a, ¬SpoiledByte i s a → t.byteAt a = s.byteAt a

/-- R318: `i` ends with the run-time error `code`. -/
def RunFails (i : Instr) (s : State) (code : Byte) : Prop :=
  ∃ t, exec i s = .next t ∧ t.errCode = code ∧ RunErrorEnds i s t

/-! ## Terms: Huffman -/

/-- R171: k, the number of symbols with FREQ > 0. -/
def symbolCount (s : State) : Nat := (allBytes.filter fun b => decide (0 < s.freqOf b)).length

/-- R171: a root in Q: its weight, its order, and the depth of each leaf below it. -/
structure Root where
  weight : Nat
  order : Nat
  depths : List (Byte × Nat)

/-- R171: the key (weight, order) of `a` is no greater than that of `b`. -/
def Root.NotAfter (a b : Root) : Prop :=
  a.weight < b.weight ∨ (a.weight = b.weight ∧ a.order ≤ b.order)

/-- R171: the internal node of order `next` over the roots `a` and `b`. -/
def Root.join (a b : Root) (next : Nat) : Root :=
  ⟨a.weight + b.weight, next, (a.depths ++ b.depths).map fun p => (p.1, p.2 + 1)⟩

/-- R171: the loop on Q, from the next free order on, ends with a single root. Each round takes the
root of the least key twice and joins the two. -/
inductive MergesTo : (next : Nat) → List Root → Root → Prop where
  | single (next : Nat) (r : Root) : MergesTo next [r] r
  | round (next : Nat) (q q' : List Root) (a b r : Root) :
      q.Perm (a :: b :: q') → (∀ x ∈ q, a.NotAfter x) → (∀ x ∈ b :: q', b.NotAfter x) →
      MergesTo (next + 1) (a.join b next :: q') r → MergesTo next q r

/-- R171: the leaf roots: the symbols of FREQ > 0 in ascending order, with orders from 0 on. -/
def leafRoots (s : State) : List Root :=
  (allBytes.filter fun b => decide (0 < s.freqOf b)).zipIdx.map fun p =>
    ⟨s.freqOf p.1, p.2, [(p.1, 0)]⟩

/-- R174: pairs of a symbol and a length that a serialized table may hold: symbols strictly
ascending, no length 0. -/
def LegalPairs (ps : List (Byte × Byte)) : Prop :=
  (ps.map fun p => p.1.toNat).Pairwise (· < ·) ∧ ∀ p ∈ ps, p.2 ≠ 0#8

/-- R173, R174: the bits of pairs. -/
def pairBits (ps : List (Byte × Byte)) : List Bool :=
  ps.flatMap fun p => bitsOf p.1.toNat 8 ++ bitsOf p.2.toNat 8

/-- R174: the pair `p` after the pairs `ps` is not ascending, or its length is 0. -/
def BadPair (ps : List (Byte × Byte)) (p : Byte × Byte) : Prop :=
  p.2 = 0#8 ∨ ∃ q ∈ ps, p.1.toNat ≤ q.1.toNat

/-- R177: no symbol's code begins `w`. -/
def NoCodeBegins (c : Vector Byte 256) (w : List Bool) : Prop :=
  ∀ b, 0 < lenOf c b → ¬codeBits c b <+: w

/-- R177: `m` is the largest code length of a table that has a code. -/
def LargestLen (c : Vector Byte 256) (m : Nat) : Prop :=
  0 < m ∧ (∀ b, lenOf c b ≤ m) ∧ ∃ b, lenOf c b = m

/-- R175: the loop that assigns codes, on the symbols in ascending order; `next` is its table. -/
def assignCodes (c : Vector Byte 256) : (next : Nat → Nat) → List Byte → List (Byte × Nat)
  | _, [] => []
  | next, b :: bs =>
    if lenOf c b = 0 then assignCodes c next bs
    else (b, next (lenOf c b)) ::
      assignCodes c (fun l => if l = lenOf c b then next l + 1 else next l) bs

/-! ## Terms: LZ -/

/-- R210: the `l` bytes from i repeat those `d` places before them. -/
def MatchesBack (src : List Byte) (i d l : Nat) : Prop :=
  ∀ j < l, src[i + j]? = src[i + j - d]?

/-- R210: (d, l) is the longest match at i, of the smallest offset among the longest; (0, 0) where
there is none. -/
def LongestMatch (src : List Byte) (i d l : Nat) : Prop :=
  l ≤ min 258 (src.length - i) ∧ (l = 0 → d = 0) ∧
    (0 < l → 1 ≤ d ∧ d ≤ min i 4096 ∧ MatchesBack src i d l) ∧
    ∀ d' l', 1 ≤ d' → d' ≤ min i 4096 → 0 < l' → l' ≤ min 258 (src.length - i) →
      MatchesBack src i d' l' → l' ≤ l ∧ (l' = l → d ≤ d')

/-- R214: `n` bytes copied one by one, each from `d` places before the end of the output so far. -/
def copyOut (d : Nat) : Nat → List Byte → List Byte
  | 0, out => out
  | n + 1, out => copyOut d n (out ++ [out.getD (out.length - d) 0#8])

/-- R214: the output of LZ77 tokens after the output `out`. -/
def expand77 : List Lz77Token → List Byte → List Byte
  | [], out => out
  | .literal b :: ts, out => expand77 ts (out ++ [b])
  | .copy d l :: ts, out => expand77 ts (copyOut d l out)

/-- R211, R219 (c): tokens the format represents, whose offsets never exceed the bytes produced,
`n` of which precede them. -/
def Valid77 : List Lz77Token → (n : Nat) → Prop
  | [], _ => True
  | .literal _ :: ts, n => Valid77 ts (n + 1)
  | .copy d l :: ts, n => 1 ≤ d ∧ d ≤ min n 4096 ∧ 3 ≤ l ∧ l ≤ 258 ∧ Valid77 ts (n + l)

/-- R213: greedy tokens of `src` from i on. -/
def Greedy77 (src : List Byte) : List Lz77Token → (i : Nat) → Prop
  | [], i => src.length ≤ i
  | .literal b :: ts, i =>
    src[i]? = some b ∧ (∃ d l, LongestMatch src i d l ∧ l < 3) ∧ Greedy77 src ts (i + 1)
  | .copy d l :: ts, i => i < src.length ∧ LongestMatch src i d l ∧ 3 ≤ l ∧ Greedy77 src ts (i + l)

/-- R211: the number of `Match` tokens. -/
def matchCount (ts : List Lz77Token) : Nat := (ts.filter Lz77Token.isCopy).length

/-- R215, R218: the output of LZ78 tokens with the dictionary strings `dict`, entry 0 first; none
where an index is not defined. -/
def expand78 : List (Nat × Byte) → (dict : List (List Byte)) → Option (List Byte)
  | [], _ => some []
  | (p, b) :: ts, dict =>
    match dict[p]? with
    | none => none
    | some w =>
      (expand78 ts (if dict.length < 4096 then dict ++ [w ++ [b]] else dict)).map
        fun out => w ++ [b] ++ out

/-- R214: the bits after a token are all the stream has and hold no whole token. -/
def TooShort77 (w : List Bool) : Prop :=
  w = [] ∨ (w.head? = some false ∧ w.length < 9) ∨ (w.head? = some true ∧ w.length < 21)

/-- R217: tokens of `src` with the dictionary strings `dict`, entry 0 first: each token names the
longest entry that `src` begins with and that leaves one byte, and carries the byte after it. -/
def Greedy78 : List (Nat × Byte) → (src : List Byte) → (dict : List (List Byte)) → Prop
  | [], src, _ => src = []
  | (p, b) :: ts, src, dict =>
    ∃ w rest, dict[p]? = some w ∧ src = w ++ b :: rest ∧
      (∀ w' ∈ dict, w' <+: src → w'.length < src.length → w'.length ≤ w.length) ∧
      Greedy78 ts rest (if dict.length < 4096 then dict ++ [w ++ [b]] else dict)

/-! ## Terms: DCT -/

/-- R257: the coefficient stored at `a`. -/
def coefAt (s : State) (a : Nat) : Int := sbe16 (s.byteAt a) (s.byteAt (a + 1))

/-- R256: sample block b of the source, the last byte repeated past the end. -/
def paddedBlock (s : State) (b : Nat) : List Int :=
  (List.range 64).map fun j =>
    if 64 * b + j < s.srcLen.toNat then ((s.byteAt (s.srcAddr.toNat + (64 * b + j))).toNat : Int)
    else ((s.byteAt (s.srcAddr.toNat + (s.srcLen.toNat - 1))).toNat : Int)

/-- R257: coefficient block b of the source. -/
def storedBlock (s : State) (b : Nat) : List Int :=
  (List.range 64).map fun i => coefAt s (s.srcAddr.toNat + 128 * b + 2 * i)

/-- R256: nb for `n` samples. -/
def blocks (n : Nat) : Nat := (n + 63) / 64

/-- R259, R263: `t` is `s` after a forward command that stored `f` of every sample block. -/
def ForwardEnds (s t : State) (f : List Int → List Int) : Prop :=
  t = { finish s (128 * blocks s.srcLen.toNat) (blocks s.srcLen.toNat)
          (s.srcLen.toNat - 64 * (blocks s.srcLen.toNat - 1)) with buf := t.buf } ∧
    (∀ b i, b < blocks s.srcLen.toNat → i < 64 →
      coefAt t (s.dstAddr.toNat + 128 * b + 2 * i) = (f (paddedBlock s b)).getD i 0) ∧
    ∀ a, ¬(s.dstAddr.toNat ≤ a ∧ a < s.dstAddr.toNat + 128 * blocks s.srcLen.toNat) →
      t.byteAt a = s.byteAt a

/-- R260, R261: `t` is `s` after a command that stored `f` of every coefficient and its step. -/
def CoefMapEnds (s t : State) (f : Int → Nat → Int) : Prop :=
  t = { finish s s.srcLen.toNat (s.srcLen.toNat / 128) 0 with buf := t.buf } ∧
    (∀ b i, b < s.srcLen.toNat / 128 → (hi : i < 64) →
      coefAt t (s.dstAddr.toNat + 128 * b + 2 * i) =
        f (coefAt s (s.srcAddr.toNat + 128 * b + 2 * i)) (s.qtab[i]'hi).toNat) ∧
    ∀ a, ¬(s.dstAddr.toNat ≤ a ∧ a < s.dstAddr.toNat + s.srcLen.toNat) → t.byteAt a = s.byteAt a

/-- R262, R264: `t` is `s` after an inverse command that stored the first CNT samples of `f` of the
coefficient blocks. -/
def InverseEnds (s t : State) (f : List Int → List Int) : Prop :=
  t = { finish s s.cnt.toNat (blocks s.cnt.toNat) 0 with buf := t.buf } ∧
    (∀ k, k < s.cnt.toNat →
      ((t.byteAt (s.dstAddr.toNat + k)).toNat : Int) =
        (f (storedBlock s (k / 64))).getD (k % 64) 0) ∧
    ∀ a, ¬(s.dstAddr.toNat ≤ a ∧ a < s.dstAddr.toNat + s.cnt.toNat) → t.byteAt a = s.byteAt a

/-- The 64 steps of the table of quality q (R251). -/
def stepsOf (q : Nat) : List Nat := (List.range 64).map (qtabEntry q)

/-- `f` on the next state of an outcome. -/
def mapNext (f : State → State) :
    Host.Outcome State Fault Refusal → Host.Outcome State Fault Refusal
  | .next t => .next (f t)
  | .fault r => .fault r
  | .refused r => .refused r

/-- The DCT family (R258). -/
def dctFamily : List Instr := [.qtGen, .dctFwd, .quant, .dequant, .dctInv, .dctEnc, .dctDec]

end Sys2Proof.Claims

open Sys2Proof Sys2Proof.Machine Sys2Proof.Claims

/-! ## Encoding -/

/-- R110, R113, R116: decoding an encoded well-formed command gives it back, and a word that decodes
is the encoding of the well-formed command it decodes to. -/
def Obligations.DecodeEncodeAgree : Prop :=
  (∀ i : Instr, i.wellFormed = true → decode (encode i) = .ok i) ∧
    ∀ c i, decode c = .ok i → i.wellFormed = true ∧ encode i = c

/-- R113, R116: words written out from the opcode map decode to the commands they stand for. -/
def Obligations.OpcodeMapWords : Prop :=
  decode 0x0000000000000000#64 = .ok .nop ∧ decode 0x0000000000000010#64 = .ok .bswOpen ∧
    decode 0x0000000000000C11#64 = .ok (.bswPut 12#8) ∧
    decode 0x0000000000000218#64 = .ok (.bsrOpen 2#8) ∧
    decode 0x0000000000004019#64 = .ok (.bsrGet 64#8) ∧
    decode 0x0000000000006126#64 = .ok (.hufCode 0x61#8) ∧
    decode 0x0000000000000025#64 = .ok .hufDec ∧ decode 0x0000000000000031#64 = .ok .lz77Enc ∧
    decode 0x0000000000000039#64 = .ok .lz78Dec ∧ decode 0x0000000000000046#64 = .ok .dctDec

/-- R112, R113: a word decodes exactly when its OPC is in the map, its RSV is 0 and its IMM is a
legal IMM of its row. -/
def Obligations.LegalWordsDecode : Prop :=
  ∀ c : Word64, (∃ i, decode c = .ok i) ↔ LegalWord c

/-- R114: when the engine runs an illegal word, it ends with IllegalCommand and no other effect. -/
def Obligations.IllegalWordEndsWithError : Prop :=
  ∀ (s : State) (c : Word64), s.pending = some c → s.hostWaits = true → ¬LegalWord c →
    step s = .next (failWith s 0x10#8)

/-! ## The step -/

/-- R49, R31, R328: a step runs the pending command, unless the host's next action lands before its
end; with no command pending the step is the host's, and with nothing left to do the state stays.
A placed instruction is the pending command. That the host's script says which of its actions land
before a command's end is the model's (assumption 1), and so is the placement (assumption 5). -/
def Obligations.StepRunsPendingCommand : Prop :=
  (∀ s c i, s.pending = some c → s.hostWaits = true → decode c = .ok i → step s = exec i s) ∧
    (∀ s act rest, HostActsNext s act rest → step s = hostAct act { s with script := rest }) ∧
    (∀ s : State, s.pending = none → s.script = [] → step s = .next s) ∧
    ∀ (s : State) i, i.wellFormed = true →
      (s.withFetchWord 64 (encode i).toNat).pending = some (encode i) ∧
        (s.withFetchWord 64 (encode i).toNat).hostWaits = true

/-- R36, R35, R49: a CMD write issues its word while BUSY = 0, and is dropped and sets WBUSY while
BUSY = 1; CMD reads 0. -/
def Obligations.CmdWriteIssuesCommand : Prop :=
  (∀ s c rest, s.pending = none → HostActsNext s (.write 8 0x018#32 c) rest →
    step s = .next { s with
      script := rest, pending := some c
      done := false, err := false, errCode := 0#8, lastOp := BitVec.ofNat 8 c.toNat }) ∧
    (∀ s c rest, s.pending ≠ none → HostActsNext s (.write 8 0x018#32 c) rest →
      step s = .next { s with script := rest, wbusy := true }) ∧
    ∀ s, readReg (regAt 0x018) s = 0#64

/-- R361, R34: while BUSY = 1 every host write other than a CTRL write is dropped and sets WBUSY,
and nothing else changes; a CTRL write without SRST sets IEN and the command goes on. -/
def Obligations.BusyWritesAreDropped : Prop :=
  (∀ s width addr v rest, s.pending ≠ none → HostActsNext s (.write width addr v) rest →
    ValidAccess s width addr → addr ≠ 0x008#32 →
    step s = .next { s with script := rest, wbusy := true }) ∧
    ∀ s v rest, s.pending ≠ none → HostActsNext s (.write 8 0x008#32 v) rest →
      v.getLsbD 1 = false → step s = .next { s with script := rest, ien := v.getLsbD 0 }

/-- R360: while BUSY = 1 a read of ID or STATUS returns the register; any other read changes no
state of the CXB (the value returned is free). -/
def Obligations.BusyReadsChangeNothing : Prop :=
  ∀ s width addr rest, s.pending ≠ none → HostActsNext s (.read width addr) rest →
    ValidAccess s width addr →
    (addr = 0x000#32 → step s = .next { s with script := rest, busData := s.idWord }) ∧
      (addr = 0x010#32 → step s = .next { s with script := rest, busData := s.statusWord }) ∧
      (addr ≠ 0x000#32 → addr ≠ 0x010#32 →
        ∃ v n, step s = .next { s with script := rest, busData := v, draws := n })

/-- R83: an access of the wrong width, misaligned, or to an unmapped offset has no step; any other
access has one. -/
def Obligations.BadAccessesAreRefused : Prop :=
  ∀ s width addr v rest,
    (HostActsNext s (.read width addr) rest →
      (¬ValidAccess s width addr → step s = .refused (.busError width addr)) ∧
        (ValidAccess s width addr → ∃ t, step s = .next t)) ∧
      (HostActsNext s (.write width addr v) rest →
        (¬ValidAccess s width addr → step s = .refused (.busError width addr)) ∧
          (ValidAccess s width addr → ∃ t, step s = .next t))

/-- R83, R86: with the engine idle, a host write to BUF stores the value's low bytes, the least
significant at the lowest address, and changes no other byte and nothing else; reading the same
bytes back returns them. -/
def Obligations.HostBufWriteReadsBack : Prop :=
  ∀ s width addr v e₁ e₂ rest, s.pending = none →
    s.script = ⟨.write width addr v, e₁⟩ :: ⟨.read width addr, e₂⟩ :: rest →
    ValidAccess s width addr → 0x01000000 ≤ addr.toNat →
    ∃ t u, step s = .next t ∧ step t = .next u ∧
      t = { s with script := t.script, buf := t.buf } ∧
      (∀ j < width,
        (t.byteAt (addr.toNat - 0x01000000 + j)).toNat = v.toNat / 2 ^ (8 * j) % 256) ∧
      (∀ a, ¬(addr.toNat - 0x01000000 ≤ a ∧ a < addr.toNat - 0x01000000 + width) →
        t.byteAt a = s.byteAt a) ∧
      u = { t with script := rest, busData := u.busData } ∧
      u.busData.toNat = v.toNat % 2 ^ (8 * width)

/-- R34, R35, R37, R38, R39, R43, R44, R32: what a host write to each register does while the engine
is idle: the operand registers, BS_DATA and FREQ take the value, no other register's reading
changes, and nothing else of the state does; CFG keeps its MODE and QUALITY bits; STATUS clears
DONE, ERR and WBUSY where the value has a 1; CTRL takes IEN; a read-only or reserved register
ignores it. -/
def Obligations.HostRegisterWrites : Prop :=
  ∀ (s : State) (addr : Offset) v rest, s.pending = none →
    HostActsNext s (.write 8 addr v) rest → addr.toNat < 0x01000000 → addr.toNat % 8 = 0 →
    ((0x028 ≤ addr.toNat ∧ addr.toNat ≤ 0x050 ∨ 0x800 ≤ addr.toNat ∧ addr.toNat < 0x1000) →
      ∃ t, step s = .next t ∧ readReg (regAt addr.toNat) t = v ∧
        ∀ off, off < 0x01000000 → off % 8 = 0 → off ≠ addr.toNat →
          readReg (regAt off) t = readReg (regAt off) s) ∧
      (addr = 0x028#32 → step s = .next { s with script := rest, srcAddr := v }) ∧
      (addr = 0x030#32 → step s = .next { s with script := rest, srcLen := v }) ∧
      (addr = 0x038#32 → step s = .next { s with script := rest, dstAddr := v }) ∧
      (addr = 0x040#32 → step s = .next { s with script := rest, dstCap := v }) ∧
      (addr = 0x048#32 → step s = .next { s with script := rest, cnt := v }) ∧
      (addr = 0x050#32 → step s = .next { s with script := rest, bsData := v }) ∧
      (∀ k (hk : k < 256), addr.toNat = 0x800 + 8 * k →
        step s = .next { s with script := rest, freq := s.freq.set k v hk }) ∧
      (addr = 0x020#32 →
        step s = .next { s with
          script := rest, quality := BitVec.ofNat 7 v.toNat, mode := v.getLsbD 8 }) ∧
      (addr = 0x010#32 →
        step s = .next { s with
          script := rest
          done := s.done && !v.getLsbD 1
          err := s.err && !v.getLsbD 2
          wbusy := s.wbusy && !v.getLsbD 3 }) ∧
      (addr = 0x008#32 → v.getLsbD 1 = false →
        step s = .next { s with script := rest, ien := v.getLsbD 0 }) ∧
      ((addr = 0x000#32 ∨ 0x058 ≤ addr.toNat ∧ addr.toNat < 0x800 ∨ 0x1000 ≤ addr.toNat) →
        step s = .next { s with script := rest })

/-- R32 to R46, R53: the register map; the bits of ID, CTRL, STATUS, CFG and BS_STAT; what every
other register reads; IRQ; and what a host's register read and its look at IRQ return. -/
def Obligations.RegisterMapAndLayouts : Prop :=
  ((List.range 19).map fun k => regAt (8 * k)) =
      [.id, .ctrl, .status, .cmd, .cfg, .srcAddr, .srcLen, .dstAddr, .dstCap, .cnt, .bsData] ++
        [.out0, .out1, .out2, .bswPos, .bsrPos, .bsrEnd, .bsStat, .qtabQ] ∧
    (∀ s : State, readReg .cmd s = 0#64 ∧ readReg .reserved s = 0#64 ∧
      readReg .srcAddr s = s.srcAddr ∧ readReg .srcLen s = s.srcLen ∧
      readReg .dstAddr s = s.dstAddr ∧ readReg .dstCap s = s.dstCap ∧ readReg .cnt s = s.cnt ∧
      readReg .bsData s = s.bsData ∧ readReg .out0 s = s.out0 ∧ readReg .out1 s = s.out1 ∧
      readReg .out2 s = s.out2 ∧ readReg .id s = s.idWord ∧ readReg .ctrl s = s.ctrlWord ∧
      readReg .status s = s.statusWord ∧ readReg .cfg s = s.cfgWord ∧
      readReg .bsStat s = s.bsStatWord) ∧
    (∀ s : State, readReg .bswPos s = BitVec.ofNat 64 (8 * s.wr.cnt + s.wr.nb.val) ∧
      readReg .bsrPos s = BitVec.ofNat 64 s.rd.pos ∧
      readReg .bsrEnd s = BitVec.ofNat 64 s.rd.stop ∧
      (readReg .qtabQ s).toNat = s.qtabQ.toNat) ∧
    (∀ (s : State) (k : Nat) (hk : k < 256), readReg (.freq ⟨k, hk⟩) s = s.freq[k] ∧
      (readReg (.clen ⟨k, hk⟩) s).toNat = s.clen[k].toNat) ∧
    (∀ (s : State) (k : Nat) (hk : k < 64),
      (readReg (.qtab ⟨k, hk⟩) s).toNat = s.qtab[k].toNat) ∧
    (∀ s : State, s.irq = true ↔ s.ien = true ∧ (s.done = true ∨ s.err = true)) ∧
    (∀ (s : State) (addr : Offset) rest, s.pending = none → addr.toNat < 0x01000000 →
      addr.toNat % 8 = 0 → HostActsNext s (.read 8 addr) rest →
      step s = .next { s with script := rest, busData := readReg (regAt addr.toNat) s }) ∧
    (∀ s rest, HostActsNext s .sampleIrq rest →
      step s = .next { s with script := rest, busData := if s.irq then 1#64 else 0#64 }) ∧
    (∀ k (hk : k < 256), regAt (0x800 + 8 * k) = .freq ⟨k, hk⟩ ∧
    regAt (0x1000 + 8 * k) = .clen ⟨k, hk⟩) ∧
    (∀ k (hk : k < 64), regAt (0x1800 + 8 * k) = .qtab ⟨k, hk⟩) ∧
    (∀ off, (0x098 ≤ off ∧ off < 0x800 ∨ 0x1A00 ≤ off) → regAt off = .reserved) ∧
    (∀ s : State, s.idWord.toNat = 0x43584231 + 2 ^ 32 + s.aw.val * 2 ^ 40) ∧
    (∀ s : State, s.ctrlWord.toNat = s.ien.toNat) ∧
    (∀ s : State, s.statusWord.toNat =
      s.pending.isSome.toNat + 2 * s.done.toNat + 4 * s.err.toNat + 8 * s.wbusy.toNat +
        2 ^ 8 * s.errCode.toNat + 2 ^ 16 * s.lastOp.toNat) ∧
    (∀ s : State, s.cfgWord.toNat = s.quality.toNat + 2 ^ 8 * s.mode.toNat) ∧
    ∀ s : State, s.bsStatWord.toNat =
      s.wr.isOpen.toNat + 2 * s.rd.isOpen.toNat + 2 ^ 8 * s.wr.pad.val

/-! ## Resets -/

/-- R352: a CTRL write with SRST set is accepted whether or not the engine is busy, aborts the
running command, gives every piece of state except BUF its reset value, and leaves every BUF byte
but the aborted command's output bytes (which bytes these are for the commands that the rule does
not name is the model's: assumptions 8 and 11). -/
def Obligations.SoftResetRestoresState : Prop :=
  ∀ s v rest, HostActsNext s (.write 8 0x008#32 v) rest → v.getLsbD 1 = true →
    ∃ t, step s = .next t ∧
      t = { State.resetWith s.aw with
        buf := t.buf, script := rest, busData := s.busData, draws := t.draws, power := s.power } ∧
      t.irq = false ∧ ∀ a, ¬AbortedByte s a → t.byteAt a = s.byteAt a

/-- R54, R350, R351: the values of the state after a power-on reset, and a power-on as a step: it
gives exactly these values, but for BUF, whose bytes are free anew (that power-on can come at any
step, and what it does to the model's own fields, is assumption 12). -/
def Obligations.ResetValues : Prop :=
  (∀ aw, readReg .ctrl (State.resetWith aw) = 0#64 ∧ readReg .status (State.resetWith aw) = 0#64 ∧
    readReg .cfg (State.resetWith aw) = 0x32#64 ∧
    (∀ off, 0x028 ≤ off → off ≤ 0x088 → readReg (regAt off) (State.resetWith aw) = 0#64) ∧
    readReg .qtabQ (State.resetWith aw) = 50#64 ∧
    (∀ i, readReg (.freq i) (State.resetWith aw) = 0#64) ∧
    (∀ i, readReg (.clen i) (State.resetWith aw) = 0#64) ∧
    (State.resetWith aw).qtab.toList.map BitVec.toNat =
      [8, 11, 10, 16, 24, 40, 51, 61] ++ [12, 12, 14, 19, 26, 58, 60, 55] ++
        [14, 13, 16, 24, 40, 57, 69, 56] ++ [14, 17, 22, 29, 51, 87, 80, 62] ++
        [18, 22, 37, 56, 68, 109, 103, 77] ++ [24, 35, 55, 64, 81, 104, 113, 92] ++
        [49, 64, 78, 87, 103, 121, 120, 101] ++ [72, 92, 95, 98, 112, 100, 103, 99] ∧
    (State.resetWith aw).wr = ⟨false, 0, 0, 0, 0#8, 0, 0⟩ ∧
    (State.resetWith aw).rd = ⟨false, 0, 0, 0, 0⟩ ∧ (State.resetWith aw).pending = none ∧
    (State.resetWith aw).irq = false) ∧
    readReg .id State.reset = 0x0000140143584231#64 ∧
    ∀ s rest, HostActsNext s .powerOn rest →
      step s = .next { State.resetWith s.aw with
        script := rest, busData := s.busData, draws := s.draws, power := s.power + 1 }

/-- R30 to R54: the invariants hold after reset. -/
def Obligations.ResetIsSafe : Prop := ∀ aw, (State.resetWith aw).Safe

/-! ## Every command -/

/-- R313, R362, R320: while the open streams lie in BUF, every command ends, with exactly one of
DONE and ERR; LASTOP, WBUSY and IEN keep their values and IRQ becomes IEN. -/
def Obligations.EveryCommandEnds : Prop :=
  ∀ i s, s.StreamsInBuf → ∃ t, exec i s = .next t ∧ t.pending = none ∧
    (t.done = true ∧ t.err = false ∧ t.errCode = 0#8 ∨
      t.done = false ∧ t.err = true ∧ t.errCode ≠ 0#8) ∧
    t.lastOp = s.lastOp ∧ t.wbusy = s.wbusy ∧ t.ien = s.ien ∧ t.irq = s.ien

/-- R312, R313, R315, R317, R318: a command ends without error, or with a pre-check error that the
table lists for it and that changes STATUS only, or with a run-time error that the table lists for
it, which closes both streams and leaves unchanged what the rule says it leaves unchanged. That
BSW_PUT and HUF_SERIAL count among the encoders is the model's reading (assumption 8). -/
def Obligations.ErrorsAreAsTabled : Prop :=
  ∀ i s t, s.WriterOk → exec i s = .next t →
    (t.done = true ∧ t.err = false ∧ t.errCode = 0#8 ∧ t.pending = none) ∨
      (t.errCode ∈ preCodes i ∧ t = failWith s t.errCode) ∨
      (t.errCode ∈ runCodes i ∧ RunErrorEnds i s t)

/-- R38, R39, R42, R44, R45, R46, R303: no command writes the configuration and
operand registers, and each table, BS_DATA, the writer and the reader change only by the commands
that own them; no byte outside a command's output range (assumption 8) changes. -/
def Obligations.CommandsWriteOnlyTheirState : Prop :=
  ∀ i s t, exec i s = .next t →
    (t.aw = s.aw ∧ t.ien = s.ien ∧ t.wbusy = s.wbusy ∧ t.lastOp = s.lastOp ∧
      t.quality = s.quality ∧ t.mode = s.mode ∧ t.srcAddr = s.srcAddr ∧ t.srcLen = s.srcLen ∧
      t.dstAddr = s.dstAddr ∧ t.dstCap = s.dstCap ∧ t.cnt = s.cnt ∧ t.script = s.script ∧
      t.busData = s.busData ∧ t.power = s.power) ∧
    (i ≠ .hufCount → t.freq = s.freq) ∧ (i ≠ .hufBuild → i ≠ .hufDeser → t.clen = s.clen) ∧
    (i ≠ .qtGen → t.qtab = s.qtab ∧ t.qtabQ = s.qtabQ) ∧
    ((∀ n, i ≠ .bsrGet n) → t.bsData = s.bsData) ∧
    (t.err = false → (∀ n, i ≠ .bswPut n) →
      i ∉ [.bswOpen, .bswFlush, .hufSerial, .hufEnc, .lz77Enc, .lz78Enc] → t.wr = s.wr) ∧
    (t.err = false → (∀ n, i ≠ .bsrOpen n) → (∀ n, i ≠ .bsrGet n) →
      i ∉ [.bsrAlign, .hufDeser, .hufDec, .lz77Dec, .lz78Dec] → t.rd = s.rd) ∧
    ∀ a, (∀ r, outputRange i s = some r → ¬(r.1 ≤ a ∧ a < r.1 + r.2)) → t.byteAt a = s.byteAt a

/-- R316, R88, R89, R258: the order in which the encoders, the decoders and the DCT data commands
report a failed pre-check of the mode, the stream, the ranges and their overlap. -/
def Obligations.PreChecksInOrder : Prop :=
  (∀ i s, i ∈ [.hufEnc, .lz77Enc, .lz78Enc] →
    (s.wr.isOpen = false → exec i s = .next (failWith s 0x13#8)) ∧
      (s.wr.isOpen = true → ¬SourceInBuf s → exec i s = .next (failWith s 0x11#8)) ∧
      (s.wr.isOpen = true → SourceInBuf s →
        Overlapping s.srcAddr.toNat s.srcLen.toNat s.wr.base s.wr.cap →
        exec i s = .next (failWith s 0x11#8))) ∧
    (∀ i s, i ∈ [.hufDec, .lz77Dec, .lz78Dec] →
      (s.rd.isOpen = false → exec i s = .next (failWith s 0x13#8)) ∧
        (s.rd.isOpen = true → ¬DestInBuf s → exec i s = .next (failWith s 0x11#8)) ∧
        (s.rd.isOpen = true → DestInBuf s →
          Overlapping s.dstAddr.toNat s.dstCap.toNat s.rd.base s.rd.len →
          exec i s = .next (failWith s 0x11#8)) ∧
        (s.rd.isOpen = true → DestInBuf s →
          ¬Overlapping s.dstAddr.toNat s.dstCap.toNat s.rd.base s.rd.len →
          s.dstCap.toNat < s.cnt.toNat → exec i s = .next (failWith s 0x12#8))) ∧
    ∀ i s, i ∈ [.dctFwd, .quant, .dequant, .dctInv, .dctEnc, .dctDec] →
      (s.mode = false → exec i s = .next (failWith s 0x03#8)) ∧
        (s.mode = true → ¬SourceInBuf s → exec i s = .next (failWith s 0x11#8)) ∧
        (s.mode = true → SourceInBuf s → ¬DestInBuf s → exec i s = .next (failWith s 0x11#8)) ∧
        (s.mode = true → SourceInBuf s → DestInBuf s →
          Overlapping s.srcAddr.toNat s.srcLen.toNat s.dstAddr.toNat s.dstCap.toNat →
          exec i s = .next (failWith s 0x11#8))

/-- R365 item 4, R258: CFG.MODE has no effect on a command outside the DCT family. -/
def Obligations.ModeMattersOnlyToDct : Prop :=
  ∀ i s m, i ∉ dctFamily →
    exec i { s with mode := m } = mapNext (fun t => { t with mode := m }) (exec i s)

/-- R362, R90: while the open streams lie in BUF and the host makes no bus error, the engine becomes
idle after at most as many steps as the host's events still to come may take and one for the
command. A command of a host script (R117) is accepted, runs whole after the polls that land before
its end, each of which reads BUSY = 1, and the last poll reads the STATUS it leaves. That the
engine's turn comes by then is the model's schedule (assumption 1). -/
def Obligations.EngineBecomesIdle : Prop :=
  (∀ s : State, s.StreamsInBuf → (∀ e ∈ s.script, ValidAction s e.act) →
    ∃ k t, k ≤ (s.script.map hostSteps).sum + 1 ∧ Host.Core.run core k s = .next t ∧
      t.pending = none) ∧
    ∀ (s : State) i polls rest, i.wellFormed = true → s.pending = none → s.StreamsInBuf →
      s.script = scriptCmd i polls ++ rest →
      ∃ v u, exec i { s with
          script := ⟨.wait 0, false⟩ :: rest, pending := some (encode i)
          done := false, err := false, errCode := 0#8, lastOp := i.opcode, busData := v } =
            .next u ∧
        (0 < polls → v.getLsbD 0 = true) ∧ u.pending = none ∧
        Host.Core.run core (polls + 3) s =
          .next { u with script := rest, busData := u.statusWord }

/-! ## Invariants that every step keeps -/

/-- R80: BUF keeps its canonical form and lies below BUF_SIZE. -/
def Obligations.BufFormKept : Prop := ∀ s t, s.BufOk → step s = .next t → t.BufOk

/-- R47, R141: an open writer stays in BUF and within its capacity. -/
def Obligations.WriterFormKept : Prop := ∀ s t, s.WriterOk → step s = .next t → t.WriterOk

/-- R48, R143: an open reader stays in BUF and never passes its end. -/
def Obligations.ReaderFormKept : Prop := ∀ s t, s.ReaderOk → step s = .next t → t.ReaderOk

/-- R35, R312, R313: STATUS stays coherent, and ERRCODE a code some rule raises. -/
def Obligations.StatusFormKept : Prop := ∀ s t, s.StatusOk → step s = .next t → t.StatusOk

/-- R42, R46, R365 item 1: QTAB stays the table of the quality that QTAB_Q shows. -/
def Obligations.QtabFormKept : Prop := ∀ s t, s.QtabOk → step s = .next t → t.QtabOk

/-- R45: CLEN always meets the Kraft inequality. -/
def Obligations.KraftFormKept : Prop := ∀ s t, s.KraftOk → step s = .next t → t.KraftOk

/-- R33: ID never changes. -/
def Obligations.IdentityNeverChanges : Prop :=
  ∀ s t, step s = .next t → readReg .id t = readReg .id s

/-! ## Control and bitstream -/

/-- R300: NOP, the command word 0, does nothing but end; a word of its opcode with a bit of IMM or
RSV set ends with IllegalCommand. -/
def Obligations.NopOnlyEnds : Prop :=
  decode 0#64 = .ok .nop ∧ (∀ s, exec .nop s = .next (finish s 0 0 0)) ∧
    ∀ (s : State) c, s.pending = some c → s.hostWaits = true → c.toNat % 256 = 0 → c ≠ 0#64 →
      step s = .next (failWith s 0x10#8)

/-- R144: BSW_OPEN opens the writer on (DST_ADDR, DST_CAP) with nothing pending, keeps WPAD and
writes no BUF byte; a range outside BUF is BadAddress. -/
def Obligations.BswOpenOpensWriter : Prop :=
  encode .bswOpen = 0x10#64 ∧ ∀ s, (DestInBuf s →
    exec .bswOpen s = .next { finish s 0 0 0 with
      wr := ⟨true, s.dstAddr.toNat, s.dstCap.toNat, 0, 0#8, 0, s.wr.pad⟩ }) ∧
    (¬DestInBuf s → exec .bswOpen s = .next (failWith s 0x11#8))

/-- R145, R141, R142: BSW_PUT n appends the n low bits of BS_DATA, most significant first, when they
fit; its pre-checks report IllegalCommand and StreamNotOpen; where the bits do not fit it ends with
OutputOverflow and both streams closed, and the bytes of the writer's range are unspecified
(assumption 8). -/
def Obligations.BswPutAppendsBits : Prop :=
  (∀ s (n : Byte), n.toNat ≤ 64 → WriterHasRoom s n.toNat →
    ∃ t, exec (.bswPut n) s = .next t ∧
      AppendEnds s t (bitsOf s.bsData.toNat n.toNat) n.toNat 0 0) ∧
    (∀ s (n : Byte), n.toNat ≤ 64 → s.wr.isOpen = true → s.StreamsInBuf →
      8 * s.wr.cap < 8 * s.wr.cnt + s.wr.nb.val + n.toNat → 0 < n.toNat →
      RunFails (.bswPut n) s 0x12#8) ∧
    ∀ s (n : Byte), (64 < n.toNat → exec (.bswPut n) s = .next (failWith s 0x10#8)) ∧
      (n.toNat ≤ 64 → s.wr.isOpen = false → exec (.bswPut n) s = .next (failWith s 0x13#8))

/-- R146: BSW_FLUSH appends the zero bits that complete the pending byte, records their number in
WPAD and reports the stream's length in bytes; the writer stays open. With no writer open it is
StreamNotOpen. -/
def Obligations.BswFlushPadsWithZeros : Prop :=
  (∀ s, WriterHasRoom s 0 →
    ∃ t u, exec .bswFlush s = .next t ∧
      Appends s u (List.replicate ((8 - s.wr.nb.val) % 8) false) ∧
      t = { finish u ((8 * s.wr.cnt + s.wr.nb.val + 7) / 8) ((8 - s.wr.nb.val) % 8) 0 with
        wr := { u.wr with pad := Fin.ofNat 8 ((8 - s.wr.nb.val) % 8) } }) ∧
    ∀ s, s.wr.isOpen = false → exec .bswFlush s = .next (failWith s 0x13#8)

/-- R147: BSR_OPEN pad opens the reader on (SRC_ADDR, SRC_LEN) less its last pad bits; its
pre-checks report IllegalCommand, BadAddress and CorruptStream in this order. -/
def Obligations.BsrOpenOpensReader : Prop :=
  ∀ s (pad : Byte), (encode (.bsrOpen pad)).toNat = 0x18 + 2 ^ 8 * pad.toNat ∧
    (pad.toNat ≤ 7 → SourceInBuf s → pad.toNat ≤ 8 * s.srcLen.toNat →
      exec (.bsrOpen pad) s = .next { finish s (8 * s.srcLen.toNat - pad.toNat) 0 0 with
        rd := ⟨true, s.srcAddr.toNat, s.srcLen.toNat, 8 * s.srcLen.toNat - pad.toNat, 0⟩ }) ∧
      (7 < pad.toNat → exec (.bsrOpen pad) s = .next (failWith s 0x10#8)) ∧
      (pad.toNat ≤ 7 → ¬SourceInBuf s → exec (.bsrOpen pad) s = .next (failWith s 0x11#8)) ∧
      (pad.toNat ≤ 7 → SourceInBuf s → 8 * s.srcLen.toNat < pad.toNat →
        exec (.bsrOpen pad) s = .next (failWith s 0x07#8))

/-- R148, R143: BSR_GET n reads the next n bits, most significant first, into BS_DATA; with fewer
bits left it ends with InsufficientData and consumes nothing. -/
def Obligations.BsrGetReadsBits : Prop :=
  ∀ s (n : Byte), (encode (.bsrGet n)).toNat = 0x19 + 2 ^ 8 * n.toNat ∧
    (∀ bits, n.toNat ≤ 64 → ReaderInBuf s → bits.length = n.toNat → NextBitsAre s bits →
      exec (.bsrGet n) s = .next { finish s n.toNat 0 0 with
        bsData := BitVec.ofNat 64 (bits.foldl (fun v b => 2 * v + b.toNat) 0)
        rd := { s.rd with pos := s.rd.pos + n.toNat } }) ∧
      (64 < n.toNat → exec (.bsrGet n) s = .next (failWith s 0x10#8)) ∧
      (n.toNat ≤ 64 → s.rd.isOpen = false → exec (.bsrGet n) s = .next (failWith s 0x13#8)) ∧
      (n.toNat ≤ 64 → s.rd.isOpen = true → s.rd.stop < s.rd.pos + n.toNat →
        exec (.bsrGet n) s = .next (failWith s 0x08#8))

/-- R149: BSR_ALIGN skips to the next byte boundary, at most to R.end; R.pos is at most R.end, as
R48 says and ReaderFormKept states. -/
def Obligations.BsrAlignSkips : Prop :=
  encode .bsrAlign = 0x1A#64 ∧ ∀ s, (s.rd.isOpen = true → s.rd.pos ≤ s.rd.stop →
    exec .bsrAlign s = .next
      { finish s (min (8 * ((s.rd.pos + 7) / 8)) s.rd.stop - s.rd.pos) 0 0 with
        rd := { s.rd with pos := min (8 * ((s.rd.pos + 7) / 8)) s.rd.stop } }) ∧
    (s.rd.isOpen = false → exec .bsrAlign s = .next (failWith s 0x13#8))

/-! ## Huffman -/

/-- R170: HUF_COUNT sets every FREQ entry to the number of occurrences of its byte in the source,
and changes nothing else but OUT; a source outside BUF is BadAddress. -/
def Obligations.HufCountCounts : Prop :=
  encode .hufCount = 0x20#64 ∧ ∀ s, (SourceInBuf s →
    ∃ t, exec .hufCount s = .next t ∧
      (∀ b : Byte, t.freqOf b =
        ((List.range s.srcLen.toNat).filter fun j =>
          decide (s.byteAt (s.srcAddr.toNat + j) = b)).length) ∧
      t = { finish s (symbolCount t) s.srcLen.toNat 0 with freq := t.freq }) ∧
    (¬SourceInBuf s → exec .hufCount s = .next (failWith s 0x11#8))

/-- R171, R172: HUF_BUILD gives a code to exactly the symbols that occur, of 1 bit to the only
symbol of a one-symbol alphabet and otherwise of its depth below the root of the tree that the
merge by (weight, order) makes, at most k - 1; it reports k and the largest length and changes
nothing else. -/
def Obligations.HufBuildLengths : Prop :=
  ∀ s, ∃ t m, exec .hufBuild s = .next t ∧
    t = { finish s (symbolCount s) m 0 with clen := t.clen } ∧
    (∀ b, lenOf t.clen b = 0 ↔ s.freqOf b = 0) ∧ (∀ b, lenOf t.clen b ≤ m) ∧
    (symbolCount s ≤ 1 → m = symbolCount s) ∧
    (2 ≤ symbolCount s → (m ≤ symbolCount s - 1 ∧ ∃ b, lenOf t.clen b = m) ∧
      ∃ r, MergesTo (symbolCount s) (leafRoots s) r ∧
        ∀ b, 0 < s.freqOf b → (b, lenOf t.clen b) ∈ r.depths)

/-- R171: for k >= 2 the Kraft sum of the lengths HUF_BUILD writes is exactly 1 (scaled by
2^255). -/
def Obligations.HufBuildKraftEquality : Prop :=
  ∀ s t, 2 ≤ symbolCount s → exec .hufBuild s = .next t → kraftSum t.clen = 2 ^ 255

/-- R180 (a): HUF_BUILD never gives the more frequent of two symbols the longer code. -/
def Obligations.HufBuildMonotone : Prop :=
  ∀ s t x y, exec .hufBuild s = .next t → 0 < s.freqOf y → s.freqOf y < s.freqOf x →
    lenOf t.clen x ≤ lenOf t.clen y

/-- R173: HUF_SERIAL appends the number of coded symbols in 16 bits and, in ascending order, each
symbol and its length in 8 bits each; with no writer open it is StreamNotOpen, and where the bits do
not fit it ends with OutputOverflow (the bytes this leaves unspecified: assumption 8). -/
def Obligations.HufSerialAppendsTable : Prop :=
  (∀ s syms, syms = allBytes.filter (fun b => decide (0 < lenOf s.clen b)) →
    WriterHasRoom s (16 + 16 * syms.length) →
    ∃ t, exec .hufSerial s = .next t ∧
      AppendEnds s t
        (bitsOf syms.length 16 ++
          syms.flatMap fun b => bitsOf b.toNat 8 ++ bitsOf (lenOf s.clen b) 8)
        syms.length (16 + 16 * syms.length) 0) ∧
    (∀ s, s.wr.isOpen = false → exec .hufSerial s = .next (failWith s 0x13#8)) ∧
    ∀ s syms, syms = allBytes.filter (fun b => decide (0 < lenOf s.clen b)) →
      WriterLacks s (16 + 16 * syms.length) → RunFails .hufSerial s 0x12#8

/-- R174, R180 (c): where the reader's next bits are a serialized table, HUF_DESER loads exactly
that table if it meets the Kraft inequality, and otherwise ends with CorruptHeader and leaves CLEN
alone. A count above 256, a symbol that does not ascend and a length 0 are CorruptHeader, a stream
that ends within the count or the pairs is TruncatedStream, whichever comes first, and with no
reader open it is StreamNotOpen. That these errors change no BUF byte, HUF_DESER not counting among
the decoders of R318 item 4, is the model's inference (assumption 8). -/
def Obligations.HufDeserReadsSerializedTable : Prop :=
  (∀ s (c : Vector Byte 256), ReaderInBuf s → NextBitsAre s (tableBits c) →
    (kraftSum c ≤ 2 ^ 255 →
      ∃ m, (∀ b, lenOf c b ≤ m) ∧ (m = 0 ∨ ∃ b, lenOf c b = m) ∧
        exec .hufDeser s = .next { finish s (coded c).length m 0 with
          clen := c
          rd := { s.rd with pos := s.rd.pos + (16 + 16 * (coded c).length) } }) ∧
      (2 ^ 255 < kraftSum c → RunFails .hufDeser s 0x04#8)) ∧
    (∀ s, s.rd.isOpen = false → exec .hufDeser s = .next (failWith s 0x13#8)) ∧
    (∀ s k, ReaderInBuf s → 256 < k → k < 2 ^ 16 → NextBitsAre s (bitsOf k 16) →
      RunFails .hufDeser s 0x04#8) ∧
    (∀ s k ps p, ReaderInBuf s → k ≤ 256 → ps.length < k → LegalPairs ps → BadPair ps p →
      NextBitsAre s (bitsOf k 16 ++ pairBits (ps ++ [p])) → RunFails .hufDeser s 0x04#8) ∧
    (∀ s, ReaderInBuf s → s.rd.stop < s.rd.pos + 16 → RunFails .hufDeser s 0x05#8) ∧
    ∀ s k ps, ReaderInBuf s → k ≤ 256 → ps.length < k → LegalPairs ps →
      NextBitsAre s (bitsOf k 16 ++ pairBits ps) →
      s.rd.stop < s.rd.pos + (16 + 16 * (ps.length + 1)) → RunFails .hufDeser s 0x05#8

/-- R175: the code of every symbol fits its length, and no code is a prefix of another, for every
table that meets the Kraft inequality. -/
def Obligations.CanonicalCodesPrefixFree : Prop :=
  ∀ c, kraftSum c ≤ 2 ^ 255 →
    (∀ b, 0 < lenOf c b → codeOf c b < 2 ^ lenOf c b) ∧
      ∀ a b, a ≠ b → 0 < lenOf c a → 0 < lenOf c b → ¬codeBits c a <+: codeBits c b

/-- R175: CODE is what the rule's loops assign: first[l] from bl, then one code after another to the
symbols in ascending order. -/
def Obligations.CanonicalCodesFollowTheLoop : Prop :=
  ∀ c b, firstCode c 0 = 0 ∧ blCount c 0 = 0 ∧
    (∀ l, firstCode c (l + 1) = (firstCode c l + blCount c l) * 2) ∧
    (∀ l, 0 < l → blCount c l = (allBytes.filter fun x => decide (lenOf c x = l)).length) ∧
    (0 < lenOf c b → (assignCodes c (firstCode c) allBytes).lookup b = some (codeOf c b))

/-- R176: HUF_ENC appends the code of every source byte, in order, and reports the bits appended and
the bytes read; at the first byte with no code it ends with SymbolNotInTable, and at the first code
that does not fit with OutputOverflow (the bytes these leave unspecified: assumption 8). -/
def Obligations.HufEncAppendsCodes : Prop :=
  (∀ s src, src = s.bytesAt s.srcAddr.toNat s.srcLen.toNat → EncoderReady s →
    (∀ b ∈ src, 0 < lenOf s.clen b) →
    WriterHasRoom s (src.flatMap (codeBits s.clen)).length →
    ∃ t, exec .hufEnc s = .next t ∧
      AppendEnds s t (src.flatMap (codeBits s.clen)) (src.flatMap (codeBits s.clen)).length
        s.srcLen.toNat 0) ∧
    (∀ s xs b ys, s.bytesAt s.srcAddr.toNat s.srcLen.toNat = xs ++ b :: ys → EncoderReady s →
      (∀ x ∈ xs, 0 < lenOf s.clen x) → lenOf s.clen b = 0 →
      WriterHasRoom s (xs.flatMap (codeBits s.clen)).length → RunFails .hufEnc s 0x14#8) ∧
    ∀ s xs ys, s.bytesAt s.srcAddr.toNat s.srcLen.toNat = xs ++ ys → EncoderReady s →
      (∀ x ∈ xs, 0 < lenOf s.clen x) →
      WriterLacks s (xs.flatMap (codeBits s.clen)).length → RunFails .hufEnc s 0x12#8

/-- R177, R178, R180 (b): where the reader's next bits are the codes of CNT bytes under CLEN,
HUF_DEC writes exactly these bytes and consumes exactly these bits. After the codes of fewer bytes,
bits as many as the largest length that no code begins are CorruptStream, and fewer bits up to
R.end that no code begins are TruncatedStream; the empty code with CNT > 0 is CorruptHeader. -/
def Obligations.HufDecInvertsHufEnc : Prop :=
  (∀ s xs, kraftSum s.clen ≤ 2 ^ 255 → DecoderReady s → ReaderInBuf s →
    xs.length = s.cnt.toNat → (∀ b ∈ xs, 0 < lenOf s.clen b) →
    NextBitsAre s (xs.flatMap (codeBits s.clen)) →
    ∃ t, exec .hufDec s = .next t ∧
      DecodeEnds s t xs (xs.flatMap (codeBits s.clen)).length
        s.cnt.toNat (xs.flatMap (codeBits s.clen)).length 0) ∧
    (∀ (s : State) (xs : List Byte) w m, kraftSum s.clen ≤ 2 ^ 255 → DecoderReady s →
      ReaderInBuf s → xs.length < s.cnt.toNat → (∀ b ∈ xs, 0 < lenOf s.clen b) → LargestLen s.clen m →
      NoCodeBegins s.clen w →
      (w.length = m → NextBitsAre s (xs.flatMap (codeBits s.clen) ++ w) →
        RunFails .hufDec s 0x07#8) ∧
      (w.length < m → LastBitsAre s (xs.flatMap (codeBits s.clen) ++ w) →
        RunFails .hufDec s 0x05#8)) ∧
    ∀ s, DecoderReady s → s.cnt ≠ 0#64 → (∀ b, lenOf s.clen b = 0) →
      exec .hufDec s = .next (failWith s 0x04#8)

/-- R179: HUF_CODE reports the code of its symbol mod 2^64 and its length, or zeros. -/
def Obligations.HufCodeReports : Prop :=
  ∀ s (b : Byte), (encode (.hufCode b)).toNat = 0x26 + 2 ^ 8 * b.toNat ∧ (0 < lenOf s.clen b →
    exec (.hufCode b) s = .next (finish s (codeOf s.clen b) (lenOf s.clen b) 0)) ∧
    (lenOf s.clen b = 0 → exec (.hufCode b) s = .next (finish s 0 0 0))

/-! ## LZ -/

/-- R210, R212: LZ77_FIND reports the longest match at position CNT, of the smallest offset among
the longest, and changes nothing but OUT; a source outside BUF is BadAddress. -/
def Obligations.Lz77FindLongest : Prop :=
  encode .lz77Find = 0x30#64 ∧ ∀ s, (SourceInBuf s →
    ∃ d l, exec .lz77Find s = .next (finish s d l 0) ∧
      LongestMatch (s.bytesAt s.srcAddr.toNat s.srcLen.toNat) s.cnt.toNat d l) ∧
    (¬SourceInBuf s → exec .lz77Find s = .next (failWith s 0x11#8))

/-- R213, R211, R219 (c): LZ77_ENC appends the greedy tokens of the source, which the format
represents, which expand to the source and which take at most 9 bits a byte, and reports how many
there are and how many are matches; where their bits do not fit it ends with OutputOverflow (the
bytes this leaves unspecified: assumption 8). -/
def Obligations.Lz77EncTokensExpand : Prop :=
  (∀ s, EncoderReady s → WriterHasRoom s (9 * s.srcLen.toNat) →
    ∃ t ts, exec .lz77Enc s = .next t ∧
      Greedy77 (s.bytesAt s.srcAddr.toNat s.srcLen.toNat) ts 0 ∧ Valid77 ts 0 ∧
      expand77 ts [] = s.bytesAt s.srcAddr.toNat s.srcLen.toNat ∧
      (ts.flatMap Lz77Token.bits).length ≤ 9 * s.srcLen.toNat ∧
      AppendEnds s t (ts.flatMap Lz77Token.bits) ts.length (matchCount ts) 0) ∧
    ∀ s ts, EncoderReady s → Greedy77 (s.bytesAt s.srcAddr.toNat s.srcLen.toNat) ts 0 →
      (WriterHasRoom s (ts.flatMap Lz77Token.bits).length →
        ∃ t, exec .lz77Enc s = .next t ∧
          AppendEnds s t (ts.flatMap Lz77Token.bits) ts.length (matchCount ts) 0) ∧
      (WriterLacks s (ts.flatMap Lz77Token.bits).length → RunFails .lz77Enc s 0x12#8)

/-- R213: the function lz77Tokens gives greedy tokens of every byte string: at each position the
longest match if it has 3 bytes or more, and a literal otherwise. -/
def Obligations.Lz77TokensAreGreedy : Prop :=
  ∀ src, Greedy77 src (lz77Tokens src src.length 0) 0

/-- R214, R363, R219 (a): where the reader's next bits are LZ77 tokens that expand to CNT bytes,
LZ77_DEC writes these bytes and consumes these bits. After tokens that expand to fewer bytes, a
match of an offset beyond them is InvalidBackReference, a match that gives more than CNT bytes is
CorruptStream, and a stream that ends within the next token is TruncatedStream. -/
def Obligations.Lz77DecExpandsTokens : Prop :=
  (∀ s ts, DecoderReady s → ReaderInBuf s → Valid77 ts 0 →
    (expand77 ts []).length = s.cnt.toNat → NextBitsAre s (ts.flatMap Lz77Token.bits) →
    ∃ t, exec .lz77Dec s = .next t ∧
      DecodeEnds s t (expand77 ts []) (ts.flatMap Lz77Token.bits).length ts.length s.cnt.toNat 0) ∧
    ∀ s ts, DecoderReady s → ReaderInBuf s → Valid77 ts 0 →
      (expand77 ts []).length < s.cnt.toNat →
      (∀ d l, 1 ≤ d → d ≤ 4096 → 3 ≤ l → l ≤ 258 →
        NextBitsAre s ((ts ++ [Lz77Token.copy d l]).flatMap Lz77Token.bits) →
        ((expand77 ts []).length < d → RunFails .lz77Dec s 0x06#8) ∧
        (d ≤ (expand77 ts []).length → s.cnt.toNat < (expand77 ts []).length + l →
          RunFails .lz77Dec s 0x07#8)) ∧
      ∀ w, TooShort77 w → LastBitsAre s (ts.flatMap Lz77Token.bits ++ w) →
        RunFails .lz77Dec s 0x05#8

/-- R215, R216, R217: LZ78_ENC appends tokens that each name the longest dictionary entry matching
the source there that leaves one byte, that expand to the source and that are no more than its
bytes, and reports how many there are and the next free index; where their bits do not fit it ends
with OutputOverflow (the bytes this leaves unspecified: assumption 8). -/
def Obligations.Lz78EncTokensExpand : Prop :=
  (∀ s, EncoderReady s → WriterHasRoom s (20 * s.srcLen.toNat) →
    ∃ t ts, exec .lz78Enc s = .next t ∧
      Greedy78 ts (s.bytesAt s.srcAddr.toNat s.srcLen.toNat) [[]] ∧
      ts.length ≤ s.srcLen.toNat ∧
      expand78 ts [[]] = some (s.bytesAt s.srcAddr.toNat s.srcLen.toNat) ∧
      AppendEnds s t (ts.flatMap lz78Bits) ts.length (min (ts.length + 1) 4096) 0) ∧
    ∀ s ts, EncoderReady s → Greedy78 ts (s.bytesAt s.srcAddr.toNat s.srcLen.toNat) [[]] →
      (WriterHasRoom s (20 * ts.length) →
        ∃ t, exec .lz78Enc s = .next t ∧
          AppendEnds s t (ts.flatMap lz78Bits) ts.length (min (ts.length + 1) 4096) 0) ∧
      (WriterLacks s (20 * ts.length) → RunFails .lz78Enc s 0x12#8)

/-- R218, R219 (b): where the reader's next bits are LZ78 tokens that expand to CNT bytes, LZ78_DEC
writes these bytes and consumes these bits. After tokens that expand to fewer bytes, a token whose
index is not defined is InvalidBackReference, one that gives more than CNT bytes is CorruptStream,
and a stream that ends within the next token is TruncatedStream. -/
def Obligations.Lz78DecExpandsTokens : Prop :=
  (∀ s ts out, DecoderReady s → ReaderInBuf s → expand78 ts [[]] = some out →
    out.length = s.cnt.toNat → NextBitsAre s (ts.flatMap lz78Bits) →
    ∃ t, exec .lz78Dec s = .next t ∧
      DecodeEnds s t out (ts.flatMap lz78Bits).length ts.length (min (ts.length + 1) 4096) 0) ∧
    ∀ s ts out, DecoderReady s → ReaderInBuf s → expand78 ts [[]] = some out →
      out.length < s.cnt.toNat →
      (∀ p b, p < 4096 → NextBitsAre s ((ts ++ [(p, b)]).flatMap lz78Bits) →
        (min (ts.length + 1) 4096 ≤ p → RunFails .lz78Dec s 0x06#8) ∧
        ∀ more, expand78 (ts ++ [(p, b)]) [[]] = some more → s.cnt.toNat < more.length →
          RunFails .lz78Dec s 0x07#8) ∧
      (NextBitsAre s (ts.flatMap lz78Bits) → s.rd.stop < s.rd.pos + 20 * (ts.length + 1) →
        RunFails .lz78Dec s 0x05#8)

/-! ## DCT -/

/-- R251, R316: QT_GEN writes the table of CFG.QUALITY by the rule's formula on the rule's base
table B and records the quality in QTAB_Q; in lossless mode it ends with UnsupportedModeForCodec,
and for a quality outside 1 to 100 with InvalidQuality. -/
def Obligations.QtGenWritesTable : Prop :=
  baseTable =
    [16, 11, 10, 16, 24, 40, 51, 61] ++ [12, 12, 14, 19, 26, 58, 60, 55] ++
      [14, 13, 16, 24, 40, 57, 69, 56] ++ [14, 17, 22, 29, 51, 87, 80, 62] ++
      [18, 22, 37, 56, 68, 109, 103, 77] ++ [24, 35, 55, 64, 81, 104, 113, 92] ++
      [49, 64, 78, 87, 103, 121, 120, 101] ++ [72, 92, 95, 98, 112, 100, 103, 99] ∧
  ∀ s, (s.mode = true → 1 ≤ s.quality.toNat → s.quality.toNat ≤ 100 →
    ∃ t, exec .qtGen s = .next t ∧
      t = { finish s s.quality.toNat 0 0 with qtab := t.qtab, qtabQ := s.quality } ∧
      ∀ i (hi : i < 64), ∀ scale,
        scale = (if s.quality.toNat < 50 then 5000 / s.quality.toNat
          else 200 - 2 * s.quality.toNat) →
        (t.qtab[i]'hi).toNat =
          min (max 1 (min 255 ((baseTable.getD i 0 * scale + 50) / 100)))
            (if i = 0 then 8 else 255)) ∧
    (s.mode = false → exec .qtGen s = .next (failWith s 0x03#8)) ∧
    (s.mode = true → (s.quality.toNat = 0 ∨ 100 < s.quality.toNat) →
      exec .qtGen s = .next (failWith s 0x01#8))

/-- R265 (b): every step of the table is non-increasing in quality. -/
def Obligations.QtabNonIncreasingInQuality : Prop :=
  ∀ p q i, 1 ≤ p → p < q → q ≤ 100 → i < 64 → qtabEntry q i ≤ qtabEntry p i

/-- R250 to R253, R11: the basis matrix T, the forward and inverse transforms by the rules' double
sums with one rounding at the end, the forward bound of 1024, the inverse range of 0 to 255, and
rdiv to the nearest integer with halves away from zero. -/
def Obligations.TransformArithmetic : Prop :=
  ((List.range 8).map fun k => (List.range 8).map fun n => basis k n) =
      [[1448, 1448, 1448, 1448, 1448, 1448, 1448, 1448],
        [2009, 1703, 1138, 400, -400, -1138, -1703, -2009],
        [1892, 784, -784, -1892, -1892, -784, 784, 1892],
        [1703, -400, -2009, -1138, 1138, 2009, 400, -1703],
        [1448, -1448, -1448, 1448, 1448, -1448, -1448, 1448],
        [1138, -2009, 400, 1703, -1703, -400, 2009, -1138],
        [784, -1892, 1892, -784, -784, 1892, -1892, 784],
        [400, -1138, 1703, -2009, 2009, -1703, 1138, -400]] ∧
    (∀ x u v, x.length = 64 → u < 8 → v < 8 →
    (fdct x).getD (8 * u + v) 0 =
      rdiv (((List.range 8).map fun y => ((List.range 8).map fun m =>
        basis u y * basis v m * (x.getD (8 * y + m) 0 - 128)).sum).sum) (2 ^ 24)) ∧
    (∀ x, x.length = 64 → (∀ v ∈ x, 0 ≤ v ∧ v ≤ 255) → ∀ c ∈ fdct x, -1024 ≤ c ∧ c ≤ 1024) ∧
    (∀ d y m, d.length = 64 → y < 8 → m < 8 →
      (idct d).getD (8 * y + m) 0 =
        max 0 (min 255 (rdiv (((List.range 8).map fun u => ((List.range 8).map fun v =>
          basis u y * basis v m * d.getD (8 * u + v) 0).sum).sum) (2 ^ 24) + 128))) ∧
    ∀ (a : Int) (b : Nat), 0 < b →
      2 * (rdiv a b * b - a).natAbs ≤ b ∧ (2 * (rdiv a b * b - a).natAbs = b →
        a.natAbs < (rdiv a b * b).natAbs)

/-- R256, R257, R259, R263: DCT_FWD stores the transform of every padded sample block, DCT_ENC its
quantization, as 16-bit big-endian coefficients; no other byte changes. Where the blocks do not
fit DST_CAP it is OutputOverflow. What a step of 0 gives, which R46 excludes, is the model's choice
(assumption 18). -/
def Obligations.ForwardCommandsStoreCoefficients : Prop :=
  (∀ s, DctReady s → 128 * blocks s.srcLen.toNat ≤ s.dstCap.toNat →
    (∃ t, exec .dctFwd s = .next t ∧ ForwardEnds s t fdct) ∧
      ∃ t, exec .dctEnc s = .next t ∧
        ForwardEnds s t fun x => List.zipWith rdiv (fdct x) (s.qtab.toList.map BitVec.toNat)) ∧
    ∀ s, DctReady s → s.dstCap.toNat < 128 * blocks s.srcLen.toNat →
      exec .dctFwd s = .next (failWith s 0x12#8) ∧ exec .dctEnc s = .next (failWith s 0x12#8)

/-- R254, R255, R260, R261: QUANT and DEQUANT store the quantized and the dequantized coefficients
at the same offsets of the destination; a length that is no multiple of 128 is CorruptStream, and
one above DST_CAP is OutputOverflow. What a step of 0 gives, which R46 excludes, is the model's
choice (assumption 18). -/
def Obligations.QuantAndDequantMapCoefficients : Prop :=
  ∀ s, DctReady s →
    (s.srcLen.toNat % 128 = 0 → s.srcLen.toNat ≤ s.dstCap.toNat →
      (∃ t, exec .quant s = .next t ∧ CoefMapEnds s t rdiv) ∧
        ∃ t, exec .dequant s = .next t ∧
          CoefMapEnds s t fun v q => max (-32768) (min 32767 (v * q))) ∧
      (s.srcLen.toNat % 128 ≠ 0 → exec .quant s = .next (failWith s 0x07#8) ∧
        exec .dequant s = .next (failWith s 0x07#8)) ∧
      (s.srcLen.toNat % 128 = 0 → s.dstCap.toNat < s.srcLen.toNat →
        exec .quant s = .next (failWith s 0x12#8) ∧ exec .dequant s = .next (failWith s 0x12#8))

/-- R253, R256, R262, R264: DCT_INV stores the first CNT samples of the inverse transform of the
coefficient blocks, DCT_DEC those of the dequantized blocks; a source with too few blocks is
TruncatedStream, and a CNT above DST_CAP is OutputOverflow. -/
def Obligations.InverseCommandsStoreSamples : Prop :=
  ∀ s, DctReady s →
    (128 * blocks s.cnt.toNat ≤ s.srcLen.toNat → s.cnt.toNat ≤ s.dstCap.toNat →
      (∃ t, exec .dctInv s = .next t ∧ InverseEnds s t idct) ∧
        ∃ t, exec .dctDec s = .next t ∧
          InverseEnds s t fun q => idct (List.zipWith (fun v (n : Nat) => sat16 (v * n)) q
            (s.qtab.toList.map BitVec.toNat))) ∧
      (s.srcLen.toNat < 128 * blocks s.cnt.toNat → exec .dctInv s = .next (failWith s 0x05#8) ∧
        exec .dctDec s = .next (failWith s 0x05#8)) ∧
      (128 * blocks s.cnt.toNat ≤ s.srcLen.toNat → s.dstCap.toNat < s.cnt.toNat →
        exec .dctInv s = .next (failWith s 0x12#8) ∧ exec .dctDec s = .next (failWith s 0x12#8))

/-- R263, R264: DCT_ENC is DCT_FWD followed by QUANT, and DCT_DEC is DEQUANT followed by DCT_INV,
byte for byte, with the same QTAB. -/
def Obligations.FusedCommandsAreCompositions : Prop :=
  (∀ s t₁ t₂ t₃ d, exec .dctFwd s = .next t₁ → t₁.done = true →
    exec .quant { t₁ with
      srcAddr := s.dstAddr, srcLen := BitVec.ofNat 64 (128 * blocks s.srcLen.toNat)
      dstAddr := d, dstCap := BitVec.ofNat 64 (128 * blocks s.srcLen.toNat) } = .next t₂ →
    t₂.done = true → exec .dctEnc s = .next t₃ →
    ∀ k, k < 128 * blocks s.srcLen.toNat →
      t₂.byteAt (d.toNat + k) = t₃.byteAt (s.dstAddr.toNat + k)) ∧
    ∀ s t₁ t₂ t₃ d cap, exec .dequant s = .next t₁ → t₁.done = true →
      exec .dctInv { t₁ with
        srcAddr := s.dstAddr, srcLen := s.srcLen, dstAddr := d, dstCap := cap } = .next t₂ →
      t₂.done = true →
      exec .dctDec { s with dstAddr := d, dstCap := cap } = .next t₃ → t₃.done = true →
      ∀ k, k < s.cnt.toNat → t₂.byteAt (d.toNat + k) = t₃.byteAt (d.toNat + k)

/-- R265 (a): at every quality a block of 64 equal samples survives encoding and decoding. -/
def Obligations.ConstantBlockSurvives : Prop :=
  ∀ q v : Nat, 1 ≤ q → q ≤ 100 → v ≤ 255 →
    idct (dequantBlock (stepsOf q) (quantBlock (stepsOf q)
      (fdct (List.replicate 64 (v : Int))))) = List.replicate 64 (v : Int)
end

