-- ==== Sys2Proof/Laws/State.lean ====
section
/-! SUPPORT. What each named update of the state does to each field: one lemma per field and update,
true by rfl, so that no later proof unfolds a record update. -/

namespace Sys2Proof.Machine

/-! ## endOk (R313) -/

@[simp] theorem endOk_aw (d : Done) : (endOk d).aw = d.state.aw := rfl
@[simp] theorem endOk_ien (d : Done) : (endOk d).ien = d.state.ien := rfl
@[simp] theorem endOk_done (d : Done) : (endOk d).done = true := rfl
@[simp] theorem endOk_err (d : Done) : (endOk d).err = false := rfl
@[simp] theorem endOk_wbusy (d : Done) : (endOk d).wbusy = d.state.wbusy := rfl
@[simp] theorem endOk_errCode (d : Done) : (endOk d).errCode = 0#8 := rfl
@[simp] theorem endOk_lastOp (d : Done) : (endOk d).lastOp = d.state.lastOp := rfl
@[simp] theorem endOk_quality (d : Done) : (endOk d).quality = d.state.quality := rfl
@[simp] theorem endOk_mode (d : Done) : (endOk d).mode = d.state.mode := rfl
@[simp] theorem endOk_srcAddr (d : Done) : (endOk d).srcAddr = d.state.srcAddr := rfl
@[simp] theorem endOk_srcLen (d : Done) : (endOk d).srcLen = d.state.srcLen := rfl
@[simp] theorem endOk_dstAddr (d : Done) : (endOk d).dstAddr = d.state.dstAddr := rfl
@[simp] theorem endOk_dstCap (d : Done) : (endOk d).dstCap = d.state.dstCap := rfl
@[simp] theorem endOk_cnt (d : Done) : (endOk d).cnt = d.state.cnt := rfl
@[simp] theorem endOk_bsData (d : Done) : (endOk d).bsData = d.state.bsData := rfl
@[simp] theorem endOk_out0 (d : Done) : (endOk d).out0 = BitVec.ofNat 64 d.out0 := rfl
@[simp] theorem endOk_out1 (d : Done) : (endOk d).out1 = BitVec.ofNat 64 d.out1 := rfl
@[simp] theorem endOk_out2 (d : Done) : (endOk d).out2 = BitVec.ofNat 64 d.out2 := rfl
@[simp] theorem endOk_qtabQ (d : Done) : (endOk d).qtabQ = d.state.qtabQ := rfl
@[simp] theorem endOk_freq (d : Done) : (endOk d).freq = d.state.freq := rfl
@[simp] theorem endOk_clen (d : Done) : (endOk d).clen = d.state.clen := rfl
@[simp] theorem endOk_qtab (d : Done) : (endOk d).qtab = d.state.qtab := rfl
@[simp] theorem endOk_wr (d : Done) : (endOk d).wr = d.state.wr := rfl
@[simp] theorem endOk_rd (d : Done) : (endOk d).rd = d.state.rd := rfl
@[simp] theorem endOk_pending (d : Done) : (endOk d).pending = none := rfl
@[simp] theorem endOk_buf (d : Done) : (endOk d).buf = d.state.buf := rfl
@[simp] theorem endOk_script (d : Done) : (endOk d).script = d.state.script := rfl
@[simp] theorem endOk_busData (d : Done) : (endOk d).busData = d.state.busData := rfl
@[simp] theorem endOk_draws (d : Done) : (endOk d).draws = d.state.draws := rfl
@[simp] theorem endOk_power (d : Done) : (endOk d).power = d.state.power := rfl

/-! ## endPreError (R317) -/

@[simp] theorem endPreError_aw (e : CmdError) (s : State) : (endPreError e s).aw = s.aw := rfl
@[simp] theorem endPreError_ien (e : CmdError) (s : State) : (endPreError e s).ien = s.ien := rfl
@[simp] theorem endPreError_done (e : CmdError) (s : State) : (endPreError e s).done = false := rfl
@[simp] theorem endPreError_err (e : CmdError) (s : State) : (endPreError e s).err = true := rfl
@[simp] theorem endPreError_wbusy (e : CmdError) (s : State) : (endPreError e s).wbusy = s.wbusy := rfl
@[simp] theorem endPreError_errCode (e : CmdError) (s : State) : (endPreError e s).errCode = e.code := rfl
@[simp] theorem endPreError_lastOp (e : CmdError) (s : State) : (endPreError e s).lastOp = s.lastOp := rfl
@[simp] theorem endPreError_quality (e : CmdError) (s : State) : (endPreError e s).quality = s.quality := rfl
@[simp] theorem endPreError_mode (e : CmdError) (s : State) : (endPreError e s).mode = s.mode := rfl
@[simp] theorem endPreError_srcAddr (e : CmdError) (s : State) : (endPreError e s).srcAddr = s.srcAddr := rfl
@[simp] theorem endPreError_srcLen (e : CmdError) (s : State) : (endPreError e s).srcLen = s.srcLen := rfl
@[simp] theorem endPreError_dstAddr (e : CmdError) (s : State) : (endPreError e s).dstAddr = s.dstAddr := rfl
@[simp] theorem endPreError_dstCap (e : CmdError) (s : State) : (endPreError e s).dstCap = s.dstCap := rfl
@[simp] theorem endPreError_cnt (e : CmdError) (s : State) : (endPreError e s).cnt = s.cnt := rfl
@[simp] theorem endPreError_bsData (e : CmdError) (s : State) : (endPreError e s).bsData = s.bsData := rfl
@[simp] theorem endPreError_out0 (e : CmdError) (s : State) : (endPreError e s).out0 = s.out0 := rfl
@[simp] theorem endPreError_out1 (e : CmdError) (s : State) : (endPreError e s).out1 = s.out1 := rfl
@[simp] theorem endPreError_out2 (e : CmdError) (s : State) : (endPreError e s).out2 = s.out2 := rfl
@[simp] theorem endPreError_qtabQ (e : CmdError) (s : State) : (endPreError e s).qtabQ = s.qtabQ := rfl
@[simp] theorem endPreError_freq (e : CmdError) (s : State) : (endPreError e s).freq = s.freq := rfl
@[simp] theorem endPreError_clen (e : CmdError) (s : State) : (endPreError e s).clen = s.clen := rfl
@[simp] theorem endPreError_qtab (e : CmdError) (s : State) : (endPreError e s).qtab = s.qtab := rfl
@[simp] theorem endPreError_wr (e : CmdError) (s : State) : (endPreError e s).wr = s.wr := rfl
@[simp] theorem endPreError_rd (e : CmdError) (s : State) : (endPreError e s).rd = s.rd := rfl
@[simp] theorem endPreError_pending (e : CmdError) (s : State) : (endPreError e s).pending = none := rfl
@[simp] theorem endPreError_buf (e : CmdError) (s : State) : (endPreError e s).buf = s.buf := rfl
@[simp] theorem endPreError_script (e : CmdError) (s : State) : (endPreError e s).script = s.script := rfl
@[simp] theorem endPreError_busData (e : CmdError) (s : State) : (endPreError e s).busData = s.busData := rfl
@[simp] theorem endPreError_draws (e : CmdError) (s : State) : (endPreError e s).draws = s.draws := rfl
@[simp] theorem endPreError_power (e : CmdError) (s : State) : (endPreError e s).power = s.power := rfl

/-! ## endRunError (R318) -/

@[simp] theorem endRunError_aw (e : CmdError) (r : Option (Nat × Nat)) (s : State) : (endRunError e r s).aw = s.aw := rfl
@[simp] theorem endRunError_ien (e : CmdError) (r : Option (Nat × Nat)) (s : State) : (endRunError e r s).ien = s.ien := rfl
@[simp] theorem endRunError_done (e : CmdError) (r : Option (Nat × Nat)) (s : State) : (endRunError e r s).done = false := rfl
@[simp] theorem endRunError_err (e : CmdError) (r : Option (Nat × Nat)) (s : State) : (endRunError e r s).err = true := rfl
@[simp] theorem endRunError_wbusy (e : CmdError) (r : Option (Nat × Nat)) (s : State) : (endRunError e r s).wbusy = s.wbusy := rfl
@[simp] theorem endRunError_errCode (e : CmdError) (r : Option (Nat × Nat)) (s : State) : (endRunError e r s).errCode = e.code := rfl
@[simp] theorem endRunError_lastOp (e : CmdError) (r : Option (Nat × Nat)) (s : State) : (endRunError e r s).lastOp = s.lastOp := rfl
@[simp] theorem endRunError_quality (e : CmdError) (r : Option (Nat × Nat)) (s : State) : (endRunError e r s).quality = s.quality := rfl
@[simp] theorem endRunError_mode (e : CmdError) (r : Option (Nat × Nat)) (s : State) : (endRunError e r s).mode = s.mode := rfl
@[simp] theorem endRunError_srcAddr (e : CmdError) (r : Option (Nat × Nat)) (s : State) : (endRunError e r s).srcAddr = s.srcAddr := rfl
@[simp] theorem endRunError_srcLen (e : CmdError) (r : Option (Nat × Nat)) (s : State) : (endRunError e r s).srcLen = s.srcLen := rfl
@[simp] theorem endRunError_dstAddr (e : CmdError) (r : Option (Nat × Nat)) (s : State) : (endRunError e r s).dstAddr = s.dstAddr := rfl
@[simp] theorem endRunError_dstCap (e : CmdError) (r : Option (Nat × Nat)) (s : State) : (endRunError e r s).dstCap = s.dstCap := rfl
@[simp] theorem endRunError_cnt (e : CmdError) (r : Option (Nat × Nat)) (s : State) : (endRunError e r s).cnt = s.cnt := rfl
@[simp] theorem endRunError_bsData (e : CmdError) (r : Option (Nat × Nat)) (s : State) : (endRunError e r s).bsData = s.bsData := rfl
@[simp] theorem endRunError_out0 (e : CmdError) (r : Option (Nat × Nat)) (s : State) : (endRunError e r s).out0 = Config.freeWord s.draws 0 := rfl
@[simp] theorem endRunError_out1 (e : CmdError) (r : Option (Nat × Nat)) (s : State) : (endRunError e r s).out1 = Config.freeWord s.draws 1 := rfl
@[simp] theorem endRunError_out2 (e : CmdError) (r : Option (Nat × Nat)) (s : State) : (endRunError e r s).out2 = Config.freeWord s.draws 2 := rfl
@[simp] theorem endRunError_qtabQ (e : CmdError) (r : Option (Nat × Nat)) (s : State) : (endRunError e r s).qtabQ = s.qtabQ := rfl
@[simp] theorem endRunError_freq (e : CmdError) (r : Option (Nat × Nat)) (s : State) : (endRunError e r s).freq = s.freq := rfl
@[simp] theorem endRunError_clen (e : CmdError) (r : Option (Nat × Nat)) (s : State) : (endRunError e r s).clen = s.clen := rfl
@[simp] theorem endRunError_qtab (e : CmdError) (r : Option (Nat × Nat)) (s : State) : (endRunError e r s).qtab = s.qtab := rfl
@[simp] theorem endRunError_wr (e : CmdError) (r : Option (Nat × Nat)) (s : State) : (endRunError e r s).wr = freeWriter s.draws s.wr.pad := rfl
@[simp] theorem endRunError_rd (e : CmdError) (r : Option (Nat × Nat)) (s : State) : (endRunError e r s).rd = freeReader s.draws := rfl
@[simp] theorem endRunError_pending (e : CmdError) (r : Option (Nat × Nat)) (s : State) : (endRunError e r s).pending = none := rfl
@[simp] theorem endRunError_buf (e : CmdError) (r : Option (Nat × Nat)) (s : State) : (endRunError e r s).buf = (match r with | none => s.buf | some r => s.spoil r) := rfl
@[simp] theorem endRunError_script (e : CmdError) (r : Option (Nat × Nat)) (s : State) : (endRunError e r s).script = s.script := rfl
@[simp] theorem endRunError_busData (e : CmdError) (r : Option (Nat × Nat)) (s : State) : (endRunError e r s).busData = s.busData := rfl
@[simp] theorem endRunError_draws (e : CmdError) (r : Option (Nat × Nat)) (s : State) : (endRunError e r s).draws = s.draws + 1 := rfl
@[simp] theorem endRunError_power (e : CmdError) (r : Option (Nat × Nat)) (s : State) : (endRunError e r s).power = s.power := rfl

/-! ## State.accept (R35) -/

@[simp] theorem accept_aw (s : State) (c : Word64) : (s.accept c).aw = s.aw := rfl
@[simp] theorem accept_ien (s : State) (c : Word64) : (s.accept c).ien = s.ien := rfl
@[simp] theorem accept_done (s : State) (c : Word64) : (s.accept c).done = false := rfl
@[simp] theorem accept_err (s : State) (c : Word64) : (s.accept c).err = false := rfl
@[simp] theorem accept_wbusy (s : State) (c : Word64) : (s.accept c).wbusy = s.wbusy := rfl
@[simp] theorem accept_errCode (s : State) (c : Word64) : (s.accept c).errCode = 0#8 := rfl
@[simp] theorem accept_lastOp (s : State) (c : Word64) : (s.accept c).lastOp = c.extractLsb' 0 8 := rfl
@[simp] theorem accept_quality (s : State) (c : Word64) : (s.accept c).quality = s.quality := rfl
@[simp] theorem accept_mode (s : State) (c : Word64) : (s.accept c).mode = s.mode := rfl
@[simp] theorem accept_srcAddr (s : State) (c : Word64) : (s.accept c).srcAddr = s.srcAddr := rfl
@[simp] theorem accept_srcLen (s : State) (c : Word64) : (s.accept c).srcLen = s.srcLen := rfl
@[simp] theorem accept_dstAddr (s : State) (c : Word64) : (s.accept c).dstAddr = s.dstAddr := rfl
@[simp] theorem accept_dstCap (s : State) (c : Word64) : (s.accept c).dstCap = s.dstCap := rfl
@[simp] theorem accept_cnt (s : State) (c : Word64) : (s.accept c).cnt = s.cnt := rfl
@[simp] theorem accept_bsData (s : State) (c : Word64) : (s.accept c).bsData = s.bsData := rfl
@[simp] theorem accept_out0 (s : State) (c : Word64) : (s.accept c).out0 = s.out0 := rfl
@[simp] theorem accept_out1 (s : State) (c : Word64) : (s.accept c).out1 = s.out1 := rfl
@[simp] theorem accept_out2 (s : State) (c : Word64) : (s.accept c).out2 = s.out2 := rfl
@[simp] theorem accept_qtabQ (s : State) (c : Word64) : (s.accept c).qtabQ = s.qtabQ := rfl
@[simp] theorem accept_freq (s : State) (c : Word64) : (s.accept c).freq = s.freq := rfl
@[simp] theorem accept_clen (s : State) (c : Word64) : (s.accept c).clen = s.clen := rfl
@[simp] theorem accept_qtab (s : State) (c : Word64) : (s.accept c).qtab = s.qtab := rfl
@[simp] theorem accept_wr (s : State) (c : Word64) : (s.accept c).wr = s.wr := rfl
@[simp] theorem accept_rd (s : State) (c : Word64) : (s.accept c).rd = s.rd := rfl
@[simp] theorem accept_pending (s : State) (c : Word64) : (s.accept c).pending = some c := rfl
@[simp] theorem accept_buf (s : State) (c : Word64) : (s.accept c).buf = s.buf := rfl
@[simp] theorem accept_script (s : State) (c : Word64) : (s.accept c).script = s.script := rfl
@[simp] theorem accept_busData (s : State) (c : Word64) : (s.accept c).busData = s.busData := rfl
@[simp] theorem accept_draws (s : State) (c : Word64) : (s.accept c).draws = s.draws := rfl
@[simp] theorem accept_power (s : State) (c : Word64) : (s.accept c).power = s.power := rfl

/-! ## State.storeBytes (R12) -/

@[simp] theorem storeBytes_aw (s : State) (a : Nat) (l : List Byte) : (s.storeBytes a l).aw = s.aw := rfl
@[simp] theorem storeBytes_ien (s : State) (a : Nat) (l : List Byte) : (s.storeBytes a l).ien = s.ien := rfl
@[simp] theorem storeBytes_done (s : State) (a : Nat) (l : List Byte) : (s.storeBytes a l).done = s.done := rfl
@[simp] theorem storeBytes_err (s : State) (a : Nat) (l : List Byte) : (s.storeBytes a l).err = s.err := rfl
@[simp] theorem storeBytes_wbusy (s : State) (a : Nat) (l : List Byte) : (s.storeBytes a l).wbusy = s.wbusy := rfl
@[simp] theorem storeBytes_errCode (s : State) (a : Nat) (l : List Byte) : (s.storeBytes a l).errCode = s.errCode := rfl
@[simp] theorem storeBytes_lastOp (s : State) (a : Nat) (l : List Byte) : (s.storeBytes a l).lastOp = s.lastOp := rfl
@[simp] theorem storeBytes_quality (s : State) (a : Nat) (l : List Byte) : (s.storeBytes a l).quality = s.quality := rfl
@[simp] theorem storeBytes_mode (s : State) (a : Nat) (l : List Byte) : (s.storeBytes a l).mode = s.mode := rfl
@[simp] theorem storeBytes_srcAddr (s : State) (a : Nat) (l : List Byte) : (s.storeBytes a l).srcAddr = s.srcAddr := rfl
@[simp] theorem storeBytes_srcLen (s : State) (a : Nat) (l : List Byte) : (s.storeBytes a l).srcLen = s.srcLen := rfl
@[simp] theorem storeBytes_dstAddr (s : State) (a : Nat) (l : List Byte) : (s.storeBytes a l).dstAddr = s.dstAddr := rfl
@[simp] theorem storeBytes_dstCap (s : State) (a : Nat) (l : List Byte) : (s.storeBytes a l).dstCap = s.dstCap := rfl
@[simp] theorem storeBytes_cnt (s : State) (a : Nat) (l : List Byte) : (s.storeBytes a l).cnt = s.cnt := rfl
@[simp] theorem storeBytes_bsData (s : State) (a : Nat) (l : List Byte) : (s.storeBytes a l).bsData = s.bsData := rfl
@[simp] theorem storeBytes_out0 (s : State) (a : Nat) (l : List Byte) : (s.storeBytes a l).out0 = s.out0 := rfl
@[simp] theorem storeBytes_out1 (s : State) (a : Nat) (l : List Byte) : (s.storeBytes a l).out1 = s.out1 := rfl
@[simp] theorem storeBytes_out2 (s : State) (a : Nat) (l : List Byte) : (s.storeBytes a l).out2 = s.out2 := rfl
@[simp] theorem storeBytes_qtabQ (s : State) (a : Nat) (l : List Byte) : (s.storeBytes a l).qtabQ = s.qtabQ := rfl
@[simp] theorem storeBytes_freq (s : State) (a : Nat) (l : List Byte) : (s.storeBytes a l).freq = s.freq := rfl
@[simp] theorem storeBytes_clen (s : State) (a : Nat) (l : List Byte) : (s.storeBytes a l).clen = s.clen := rfl
@[simp] theorem storeBytes_qtab (s : State) (a : Nat) (l : List Byte) : (s.storeBytes a l).qtab = s.qtab := rfl
@[simp] theorem storeBytes_wr (s : State) (a : Nat) (l : List Byte) : (s.storeBytes a l).wr = s.wr := rfl
@[simp] theorem storeBytes_rd (s : State) (a : Nat) (l : List Byte) : (s.storeBytes a l).rd = s.rd := rfl
@[simp] theorem storeBytes_pending (s : State) (a : Nat) (l : List Byte) : (s.storeBytes a l).pending = s.pending := rfl
@[simp] theorem storeBytes_buf (s : State) (a : Nat) (l : List Byte) : (s.storeBytes a l).buf = s.buf.writeBytes a l := rfl
@[simp] theorem storeBytes_script (s : State) (a : Nat) (l : List Byte) : (s.storeBytes a l).script = s.script := rfl
@[simp] theorem storeBytes_busData (s : State) (a : Nat) (l : List Byte) : (s.storeBytes a l).busData = s.busData := rfl
@[simp] theorem storeBytes_draws (s : State) (a : Nat) (l : List Byte) : (s.storeBytes a l).draws = s.draws := rfl
@[simp] theorem storeBytes_power (s : State) (a : Nat) (l : List Byte) : (s.storeBytes a l).power = s.power := rfl

/-! ## State.openWriter (R144) -/

@[simp] theorem openWriter_aw (s : State) : (s.openWriter).aw = s.aw := rfl
@[simp] theorem openWriter_ien (s : State) : (s.openWriter).ien = s.ien := rfl
@[simp] theorem openWriter_done (s : State) : (s.openWriter).done = s.done := rfl
@[simp] theorem openWriter_err (s : State) : (s.openWriter).err = s.err := rfl
@[simp] theorem openWriter_wbusy (s : State) : (s.openWriter).wbusy = s.wbusy := rfl
@[simp] theorem openWriter_errCode (s : State) : (s.openWriter).errCode = s.errCode := rfl
@[simp] theorem openWriter_lastOp (s : State) : (s.openWriter).lastOp = s.lastOp := rfl
@[simp] theorem openWriter_quality (s : State) : (s.openWriter).quality = s.quality := rfl
@[simp] theorem openWriter_mode (s : State) : (s.openWriter).mode = s.mode := rfl
@[simp] theorem openWriter_srcAddr (s : State) : (s.openWriter).srcAddr = s.srcAddr := rfl
@[simp] theorem openWriter_srcLen (s : State) : (s.openWriter).srcLen = s.srcLen := rfl
@[simp] theorem openWriter_dstAddr (s : State) : (s.openWriter).dstAddr = s.dstAddr := rfl
@[simp] theorem openWriter_dstCap (s : State) : (s.openWriter).dstCap = s.dstCap := rfl
@[simp] theorem openWriter_cnt (s : State) : (s.openWriter).cnt = s.cnt := rfl
@[simp] theorem openWriter_bsData (s : State) : (s.openWriter).bsData = s.bsData := rfl
@[simp] theorem openWriter_out0 (s : State) : (s.openWriter).out0 = s.out0 := rfl
@[simp] theorem openWriter_out1 (s : State) : (s.openWriter).out1 = s.out1 := rfl
@[simp] theorem openWriter_out2 (s : State) : (s.openWriter).out2 = s.out2 := rfl
@[simp] theorem openWriter_qtabQ (s : State) : (s.openWriter).qtabQ = s.qtabQ := rfl
@[simp] theorem openWriter_freq (s : State) : (s.openWriter).freq = s.freq := rfl
@[simp] theorem openWriter_clen (s : State) : (s.openWriter).clen = s.clen := rfl
@[simp] theorem openWriter_qtab (s : State) : (s.openWriter).qtab = s.qtab := rfl
@[simp] theorem openWriter_wr (s : State) : (s.openWriter).wr = { s.wr with isOpen := true, base := s.dstAddr.toNat, cap := s.dstCap.toNat, cnt := 0, acc := 0#8, nb := 0 } := rfl
@[simp] theorem openWriter_rd (s : State) : (s.openWriter).rd = s.rd := rfl
@[simp] theorem openWriter_pending (s : State) : (s.openWriter).pending = s.pending := rfl
@[simp] theorem openWriter_buf (s : State) : (s.openWriter).buf = s.buf := rfl
@[simp] theorem openWriter_script (s : State) : (s.openWriter).script = s.script := rfl
@[simp] theorem openWriter_busData (s : State) : (s.openWriter).busData = s.busData := rfl
@[simp] theorem openWriter_draws (s : State) : (s.openWriter).draws = s.draws := rfl
@[simp] theorem openWriter_power (s : State) : (s.openWriter).power = s.power := rfl

/-! ## State.openReader (R147) -/

@[simp] theorem openReader_aw (s : State) (pad : Nat) : (s.openReader pad).aw = s.aw := rfl
@[simp] theorem openReader_ien (s : State) (pad : Nat) : (s.openReader pad).ien = s.ien := rfl
@[simp] theorem openReader_done (s : State) (pad : Nat) : (s.openReader pad).done = s.done := rfl
@[simp] theorem openReader_err (s : State) (pad : Nat) : (s.openReader pad).err = s.err := rfl
@[simp] theorem openReader_wbusy (s : State) (pad : Nat) : (s.openReader pad).wbusy = s.wbusy := rfl
@[simp] theorem openReader_errCode (s : State) (pad : Nat) : (s.openReader pad).errCode = s.errCode := rfl
@[simp] theorem openReader_lastOp (s : State) (pad : Nat) : (s.openReader pad).lastOp = s.lastOp := rfl
@[simp] theorem openReader_quality (s : State) (pad : Nat) : (s.openReader pad).quality = s.quality := rfl
@[simp] theorem openReader_mode (s : State) (pad : Nat) : (s.openReader pad).mode = s.mode := rfl
@[simp] theorem openReader_srcAddr (s : State) (pad : Nat) : (s.openReader pad).srcAddr = s.srcAddr := rfl
@[simp] theorem openReader_srcLen (s : State) (pad : Nat) : (s.openReader pad).srcLen = s.srcLen := rfl
@[simp] theorem openReader_dstAddr (s : State) (pad : Nat) : (s.openReader pad).dstAddr = s.dstAddr := rfl
@[simp] theorem openReader_dstCap (s : State) (pad : Nat) : (s.openReader pad).dstCap = s.dstCap := rfl
@[simp] theorem openReader_cnt (s : State) (pad : Nat) : (s.openReader pad).cnt = s.cnt := rfl
@[simp] theorem openReader_bsData (s : State) (pad : Nat) : (s.openReader pad).bsData = s.bsData := rfl
@[simp] theorem openReader_out0 (s : State) (pad : Nat) : (s.openReader pad).out0 = s.out0 := rfl
@[simp] theorem openReader_out1 (s : State) (pad : Nat) : (s.openReader pad).out1 = s.out1 := rfl
@[simp] theorem openReader_out2 (s : State) (pad : Nat) : (s.openReader pad).out2 = s.out2 := rfl
@[simp] theorem openReader_qtabQ (s : State) (pad : Nat) : (s.openReader pad).qtabQ = s.qtabQ := rfl
@[simp] theorem openReader_freq (s : State) (pad : Nat) : (s.openReader pad).freq = s.freq := rfl
@[simp] theorem openReader_clen (s : State) (pad : Nat) : (s.openReader pad).clen = s.clen := rfl
@[simp] theorem openReader_qtab (s : State) (pad : Nat) : (s.openReader pad).qtab = s.qtab := rfl
@[simp] theorem openReader_wr (s : State) (pad : Nat) : (s.openReader pad).wr = s.wr := rfl
@[simp] theorem openReader_rd (s : State) (pad : Nat) : (s.openReader pad).rd = { isOpen := true, base := s.srcAddr.toNat, len := s.srcLen.toNat, stop := 8 * s.srcLen.toNat - pad, pos := 0 } := rfl
@[simp] theorem openReader_pending (s : State) (pad : Nat) : (s.openReader pad).pending = s.pending := rfl
@[simp] theorem openReader_buf (s : State) (pad : Nat) : (s.openReader pad).buf = s.buf := rfl
@[simp] theorem openReader_script (s : State) (pad : Nat) : (s.openReader pad).script = s.script := rfl
@[simp] theorem openReader_busData (s : State) (pad : Nat) : (s.openReader pad).busData = s.busData := rfl
@[simp] theorem openReader_draws (s : State) (pad : Nat) : (s.openReader pad).draws = s.draws := rfl
@[simp] theorem openReader_power (s : State) (pad : Nat) : (s.openReader pad).power = s.power := rfl

/-! ## State.clearStatus (R35) -/

@[simp] theorem clearStatus_aw (s : State) (v : Word64) : (s.clearStatus v).aw = s.aw := rfl
@[simp] theorem clearStatus_ien (s : State) (v : Word64) : (s.clearStatus v).ien = s.ien := rfl
@[simp] theorem clearStatus_done (s : State) (v : Word64) : (s.clearStatus v).done = (s.done && !v.getLsbD 1) := rfl
@[simp] theorem clearStatus_err (s : State) (v : Word64) : (s.clearStatus v).err = (s.err && !v.getLsbD 2) := rfl
@[simp] theorem clearStatus_wbusy (s : State) (v : Word64) : (s.clearStatus v).wbusy = (s.wbusy && !v.getLsbD 3) := rfl
@[simp] theorem clearStatus_errCode (s : State) (v : Word64) : (s.clearStatus v).errCode = s.errCode := rfl
@[simp] theorem clearStatus_lastOp (s : State) (v : Word64) : (s.clearStatus v).lastOp = s.lastOp := rfl
@[simp] theorem clearStatus_quality (s : State) (v : Word64) : (s.clearStatus v).quality = s.quality := rfl
@[simp] theorem clearStatus_mode (s : State) (v : Word64) : (s.clearStatus v).mode = s.mode := rfl
@[simp] theorem clearStatus_srcAddr (s : State) (v : Word64) : (s.clearStatus v).srcAddr = s.srcAddr := rfl
@[simp] theorem clearStatus_srcLen (s : State) (v : Word64) : (s.clearStatus v).srcLen = s.srcLen := rfl
@[simp] theorem clearStatus_dstAddr (s : State) (v : Word64) : (s.clearStatus v).dstAddr = s.dstAddr := rfl
@[simp] theorem clearStatus_dstCap (s : State) (v : Word64) : (s.clearStatus v).dstCap = s.dstCap := rfl
@[simp] theorem clearStatus_cnt (s : State) (v : Word64) : (s.clearStatus v).cnt = s.cnt := rfl
@[simp] theorem clearStatus_bsData (s : State) (v : Word64) : (s.clearStatus v).bsData = s.bsData := rfl
@[simp] theorem clearStatus_out0 (s : State) (v : Word64) : (s.clearStatus v).out0 = s.out0 := rfl
@[simp] theorem clearStatus_out1 (s : State) (v : Word64) : (s.clearStatus v).out1 = s.out1 := rfl
@[simp] theorem clearStatus_out2 (s : State) (v : Word64) : (s.clearStatus v).out2 = s.out2 := rfl
@[simp] theorem clearStatus_qtabQ (s : State) (v : Word64) : (s.clearStatus v).qtabQ = s.qtabQ := rfl
@[simp] theorem clearStatus_freq (s : State) (v : Word64) : (s.clearStatus v).freq = s.freq := rfl
@[simp] theorem clearStatus_clen (s : State) (v : Word64) : (s.clearStatus v).clen = s.clen := rfl
@[simp] theorem clearStatus_qtab (s : State) (v : Word64) : (s.clearStatus v).qtab = s.qtab := rfl
@[simp] theorem clearStatus_wr (s : State) (v : Word64) : (s.clearStatus v).wr = s.wr := rfl
@[simp] theorem clearStatus_rd (s : State) (v : Word64) : (s.clearStatus v).rd = s.rd := rfl
@[simp] theorem clearStatus_pending (s : State) (v : Word64) : (s.clearStatus v).pending = s.pending := rfl
@[simp] theorem clearStatus_buf (s : State) (v : Word64) : (s.clearStatus v).buf = s.buf := rfl
@[simp] theorem clearStatus_script (s : State) (v : Word64) : (s.clearStatus v).script = s.script := rfl
@[simp] theorem clearStatus_busData (s : State) (v : Word64) : (s.clearStatus v).busData = s.busData := rfl
@[simp] theorem clearStatus_draws (s : State) (v : Word64) : (s.clearStatus v).draws = s.draws := rfl
@[simp] theorem clearStatus_power (s : State) (v : Word64) : (s.clearStatus v).power = s.power := rfl

/-! ## unspecifiedRead (R360) -/

@[simp] theorem unspecifiedRead_aw (n : Nat) (s : State) : (unspecifiedRead n s).aw = s.aw := rfl
@[simp] theorem unspecifiedRead_ien (n : Nat) (s : State) : (unspecifiedRead n s).ien = s.ien := rfl
@[simp] theorem unspecifiedRead_done (n : Nat) (s : State) : (unspecifiedRead n s).done = s.done := rfl
@[simp] theorem unspecifiedRead_err (n : Nat) (s : State) : (unspecifiedRead n s).err = s.err := rfl
@[simp] theorem unspecifiedRead_wbusy (n : Nat) (s : State) : (unspecifiedRead n s).wbusy = s.wbusy := rfl
@[simp] theorem unspecifiedRead_errCode (n : Nat) (s : State) : (unspecifiedRead n s).errCode = s.errCode := rfl
@[simp] theorem unspecifiedRead_lastOp (n : Nat) (s : State) : (unspecifiedRead n s).lastOp = s.lastOp := rfl
@[simp] theorem unspecifiedRead_quality (n : Nat) (s : State) : (unspecifiedRead n s).quality = s.quality := rfl
@[simp] theorem unspecifiedRead_mode (n : Nat) (s : State) : (unspecifiedRead n s).mode = s.mode := rfl
@[simp] theorem unspecifiedRead_srcAddr (n : Nat) (s : State) : (unspecifiedRead n s).srcAddr = s.srcAddr := rfl
@[simp] theorem unspecifiedRead_srcLen (n : Nat) (s : State) : (unspecifiedRead n s).srcLen = s.srcLen := rfl
@[simp] theorem unspecifiedRead_dstAddr (n : Nat) (s : State) : (unspecifiedRead n s).dstAddr = s.dstAddr := rfl
@[simp] theorem unspecifiedRead_dstCap (n : Nat) (s : State) : (unspecifiedRead n s).dstCap = s.dstCap := rfl
@[simp] theorem unspecifiedRead_cnt (n : Nat) (s : State) : (unspecifiedRead n s).cnt = s.cnt := rfl
@[simp] theorem unspecifiedRead_bsData (n : Nat) (s : State) : (unspecifiedRead n s).bsData = s.bsData := rfl
@[simp] theorem unspecifiedRead_out0 (n : Nat) (s : State) : (unspecifiedRead n s).out0 = s.out0 := rfl
@[simp] theorem unspecifiedRead_out1 (n : Nat) (s : State) : (unspecifiedRead n s).out1 = s.out1 := rfl
@[simp] theorem unspecifiedRead_out2 (n : Nat) (s : State) : (unspecifiedRead n s).out2 = s.out2 := rfl
@[simp] theorem unspecifiedRead_qtabQ (n : Nat) (s : State) : (unspecifiedRead n s).qtabQ = s.qtabQ := rfl
@[simp] theorem unspecifiedRead_freq (n : Nat) (s : State) : (unspecifiedRead n s).freq = s.freq := rfl
@[simp] theorem unspecifiedRead_clen (n : Nat) (s : State) : (unspecifiedRead n s).clen = s.clen := rfl
@[simp] theorem unspecifiedRead_qtab (n : Nat) (s : State) : (unspecifiedRead n s).qtab = s.qtab := rfl
@[simp] theorem unspecifiedRead_wr (n : Nat) (s : State) : (unspecifiedRead n s).wr = s.wr := rfl
@[simp] theorem unspecifiedRead_rd (n : Nat) (s : State) : (unspecifiedRead n s).rd = s.rd := rfl
@[simp] theorem unspecifiedRead_pending (n : Nat) (s : State) : (unspecifiedRead n s).pending = s.pending := rfl
@[simp] theorem unspecifiedRead_buf (n : Nat) (s : State) : (unspecifiedRead n s).buf = s.buf := rfl
@[simp] theorem unspecifiedRead_script (n : Nat) (s : State) : (unspecifiedRead n s).script = s.script := rfl
@[simp] theorem unspecifiedRead_busData (n : Nat) (s : State) : (unspecifiedRead n s).busData = BitVec.ofNat 64 ((Config.freeWord s.draws 0).toNat % 2 ^ (8 * n)) := rfl
@[simp] theorem unspecifiedRead_draws (n : Nat) (s : State) : (unspecifiedRead n s).draws = s.draws + 1 := rfl
@[simp] theorem unspecifiedRead_power (n : Nat) (s : State) : (unspecifiedRead n s).power = s.power := rfl

/-! ## softReset (R352) -/

@[simp] theorem softReset_aw (s : State) : (softReset s).aw = s.aw := rfl
@[simp] theorem softReset_ien (s : State) : (softReset s).ien = false := rfl
@[simp] theorem softReset_done (s : State) : (softReset s).done = false := rfl
@[simp] theorem softReset_err (s : State) : (softReset s).err = false := rfl
@[simp] theorem softReset_wbusy (s : State) : (softReset s).wbusy = false := rfl
@[simp] theorem softReset_errCode (s : State) : (softReset s).errCode = 0#8 := rfl
@[simp] theorem softReset_lastOp (s : State) : (softReset s).lastOp = 0#8 := rfl
@[simp] theorem softReset_quality (s : State) : (softReset s).quality = 50#7 := rfl
@[simp] theorem softReset_mode (s : State) : (softReset s).mode = false := rfl
@[simp] theorem softReset_srcAddr (s : State) : (softReset s).srcAddr = 0#64 := rfl
@[simp] theorem softReset_srcLen (s : State) : (softReset s).srcLen = 0#64 := rfl
@[simp] theorem softReset_dstAddr (s : State) : (softReset s).dstAddr = 0#64 := rfl
@[simp] theorem softReset_dstCap (s : State) : (softReset s).dstCap = 0#64 := rfl
@[simp] theorem softReset_cnt (s : State) : (softReset s).cnt = 0#64 := rfl
@[simp] theorem softReset_bsData (s : State) : (softReset s).bsData = 0#64 := rfl
@[simp] theorem softReset_out0 (s : State) : (softReset s).out0 = 0#64 := rfl
@[simp] theorem softReset_out1 (s : State) : (softReset s).out1 = 0#64 := rfl
@[simp] theorem softReset_out2 (s : State) : (softReset s).out2 = 0#64 := rfl
@[simp] theorem softReset_qtabQ (s : State) : (softReset s).qtabQ = 50#7 := rfl
@[simp] theorem softReset_freq (s : State) : (softReset s).freq = Vector.replicate 256 0#64 := rfl
@[simp] theorem softReset_clen (s : State) : (softReset s).clen = Vector.replicate 256 0#8 := rfl
@[simp] theorem softReset_qtab (s : State) : (softReset s).qtab = qtabFor 50 := rfl
@[simp] theorem softReset_wr (s : State) : (softReset s).wr = Writer.reset := rfl
@[simp] theorem softReset_rd (s : State) : (softReset s).rd = Reader.reset := rfl
@[simp] theorem softReset_pending (s : State) : (softReset s).pending = none := rfl
@[simp] theorem softReset_buf (s : State) : (softReset s).buf = (match s.abortedRange with | none => s.buf | some r => s.spoil r) := rfl
@[simp] theorem softReset_script (s : State) : (softReset s).script = s.script := rfl
@[simp] theorem softReset_busData (s : State) : (softReset s).busData = s.busData := rfl
@[simp] theorem softReset_draws (s : State) : (softReset s).draws = s.draws + 1 := rfl
@[simp] theorem softReset_power (s : State) : (softReset s).power = s.power := rfl

/-! ## powerOnReset (R350) -/

@[simp] theorem powerOnReset_aw (s : State) : (powerOnReset s).aw = s.aw := rfl
@[simp] theorem powerOnReset_ien (s : State) : (powerOnReset s).ien = false := rfl
@[simp] theorem powerOnReset_done (s : State) : (powerOnReset s).done = false := rfl
@[simp] theorem powerOnReset_err (s : State) : (powerOnReset s).err = false := rfl
@[simp] theorem powerOnReset_wbusy (s : State) : (powerOnReset s).wbusy = false := rfl
@[simp] theorem powerOnReset_errCode (s : State) : (powerOnReset s).errCode = 0#8 := rfl
@[simp] theorem powerOnReset_lastOp (s : State) : (powerOnReset s).lastOp = 0#8 := rfl
@[simp] theorem powerOnReset_quality (s : State) : (powerOnReset s).quality = 50#7 := rfl
@[simp] theorem powerOnReset_mode (s : State) : (powerOnReset s).mode = false := rfl
@[simp] theorem powerOnReset_srcAddr (s : State) : (powerOnReset s).srcAddr = 0#64 := rfl
@[simp] theorem powerOnReset_srcLen (s : State) : (powerOnReset s).srcLen = 0#64 := rfl
@[simp] theorem powerOnReset_dstAddr (s : State) : (powerOnReset s).dstAddr = 0#64 := rfl
@[simp] theorem powerOnReset_dstCap (s : State) : (powerOnReset s).dstCap = 0#64 := rfl
@[simp] theorem powerOnReset_cnt (s : State) : (powerOnReset s).cnt = 0#64 := rfl
@[simp] theorem powerOnReset_bsData (s : State) : (powerOnReset s).bsData = 0#64 := rfl
@[simp] theorem powerOnReset_out0 (s : State) : (powerOnReset s).out0 = 0#64 := rfl
@[simp] theorem powerOnReset_out1 (s : State) : (powerOnReset s).out1 = 0#64 := rfl
@[simp] theorem powerOnReset_out2 (s : State) : (powerOnReset s).out2 = 0#64 := rfl
@[simp] theorem powerOnReset_qtabQ (s : State) : (powerOnReset s).qtabQ = 50#7 := rfl
@[simp] theorem powerOnReset_freq (s : State) : (powerOnReset s).freq = Vector.replicate 256 0#64 := rfl
@[simp] theorem powerOnReset_clen (s : State) : (powerOnReset s).clen = Vector.replicate 256 0#8 := rfl
@[simp] theorem powerOnReset_qtab (s : State) : (powerOnReset s).qtab = qtabFor 50 := rfl
@[simp] theorem powerOnReset_wr (s : State) : (powerOnReset s).wr = Writer.reset := rfl
@[simp] theorem powerOnReset_rd (s : State) : (powerOnReset s).rd = Reader.reset := rfl
@[simp] theorem powerOnReset_pending (s : State) : (powerOnReset s).pending = none := rfl
@[simp] theorem powerOnReset_buf (s : State) : (powerOnReset s).buf = [] := rfl
@[simp] theorem powerOnReset_script (s : State) : (powerOnReset s).script = s.script := rfl
@[simp] theorem powerOnReset_busData (s : State) : (powerOnReset s).busData = s.busData := rfl
@[simp] theorem powerOnReset_draws (s : State) : (powerOnReset s).draws = s.draws := rfl
@[simp] theorem powerOnReset_power (s : State) : (powerOnReset s).power = s.power + 1 := rfl

/-! ## Views that an update leaves alone -/

/-- BUF_SIZE depends on AW only. -/
theorem bufSize_congr {s t : State} (h : t.aw = s.aw) : t.bufSize = s.bufSize := by
  simp [State.bufSize, h]

@[simp] theorem storeBytes_bufSize (s : State) (a : Nat) (l : List Byte) :
    (s.storeBytes a l).bufSize = s.bufSize := rfl
@[simp] theorem endOk_bufSize (d : Done) : (endOk d).bufSize = d.state.bufSize := rfl
@[simp] theorem endPreError_bufSize (e : CmdError) (s : State) :
    (endPreError e s).bufSize = s.bufSize := rfl
@[simp] theorem endRunError_bufSize (e : CmdError) (r : Option (Nat × Nat)) (s : State) :
    (endRunError e r s).bufSize = s.bufSize := rfl
@[simp] theorem endOk_byteAt (d : Done) (a : Nat) : (endOk d).byteAt a = d.state.byteAt a := rfl
@[simp] theorem endPreError_byteAt (e : CmdError) (s : State) (a : Nat) :
    (endPreError e s).byteAt a = s.byteAt a := rfl
@[simp] theorem accept_byteAt (s : State) (c : Word64) (a : Nat) :
    (s.accept c).byteAt a = s.byteAt a := rfl

/-! ## The views BUSY and IRQ -/

@[simp] theorem busy_eq (s : State) : s.busy = s.pending.isSome := rfl

/-- R320: after a command's end IRQ is exactly IEN. -/
@[simp] theorem irq_endOk (d : Done) : (endOk d).irq = d.state.ien := by simp [State.irq]
@[simp] theorem irq_endPreError (e : CmdError) (s : State) : (endPreError e s).irq = s.ien := by
  simp [State.irq]
@[simp] theorem irq_endRunError (e : CmdError) (r : Option (Nat × Nat)) (s : State) :
    (endRunError e r s).irq = s.ien := by simp [State.irq]

/-- R320: acceptance clears IRQ. -/
@[simp] theorem irq_accept (s : State) (c : Word64) : (s.accept c).irq = false := by
  simp [State.irq]

end Sys2Proof.Machine
end

