-- ==== Sys2Proof/Laws/Memory.lean ====
section
/-! SUPPORT. The laws of BUF: what a read gives after a write, and that every memory operation keeps
the canonical form. -/

namespace Sys2Proof.Machine

/-! ## One byte -/

@[simp] theorem Memory.find_nil (a : Nat) : Memory.find [] a = none := rfl

theorem Memory.find_write (m : Memory) (a b : Nat) (v : Byte) :
    (m.write a v).find b = if a = b then some v else m.find b := by
  induction m with
  | nil => rfl
  | cons c rest ih =>
    obtain ⟨k, w⟩ := c
    simp only [Memory.write]
    by_cases hab : a = b
    · subst hab
      rw [if_pos rfl] at ih ⊢
      split_ifs with h1 h2
      · simp [Memory.find]
      · simp [Memory.find]
      · simp [Memory.find, ih, Ne.symm h2]
    · split_ifs with h1 h2
      · simp [Memory.find, hab]
      · simp [Memory.find, hab, h2.symm]
      · simp [Memory.find, ih, hab]

theorem Memory.mem_write {m : Memory} {a : Nat} {v : Byte} {c : Host.Cell}
    (h : c ∈ m.write a v) : c.1 = a ∨ c ∈ m := by
  induction m with
  | nil => simp_all [Memory.write]
  | cons d rest ih =>
    obtain ⟨k, w⟩ := d
    simp only [Memory.write] at h
    split_ifs at h with h1 h2
    · rcases List.mem_cons.mp h with rfl | h
      · exact .inl rfl
      · exact .inr h
    · rcases List.mem_cons.mp h with rfl | h
      · exact .inl rfl
      · exact .inr (List.mem_cons_of_mem _ h)
    · rcases List.mem_cons.mp h with rfl | h
      · exact .inr List.mem_cons_self
      · exact (ih h).imp_right (List.mem_cons_of_mem _)

theorem Memory.wf_nil : Memory.wf [] := List.Pairwise.nil

theorem Memory.wf_write {m : Memory} (h : m.wf) (a : Nat) (v : Byte) : (m.write a v).wf := by
  induction m with
  | nil => simp [Memory.write, Memory.wf]
  | cons d rest ih =>
    obtain ⟨k, w⟩ := d
    simp only [Memory.wf, List.map_cons, List.pairwise_cons, List.mem_map] at h
    obtain ⟨hk, hrest⟩ := h
    simp only [Memory.write]
    split_ifs with h1 h2
    · simp only [Memory.wf, List.map_cons, List.pairwise_cons, List.mem_cons, List.mem_map]
      refine ⟨?_, fun b hb => hk b hb, hrest⟩
      rintro b (rfl | hb)
      · exact h1
      · exact h1.trans (hk b hb)
    · subst h2
      simpa only [Memory.wf, List.map_cons, List.pairwise_cons, List.mem_map] using ⟨hk, hrest⟩
    · simp only [Memory.wf, List.map_cons, List.pairwise_cons, List.mem_map]
      refine ⟨?_, ih hrest⟩
      rintro b ⟨c, hc, rfl⟩
      rcases Memory.mem_write hc with hc | hc
      · simp only [hc]
        omega
      · exact hk _ ⟨c, hc, rfl⟩

/-! ## A string of bytes -/

@[simp] theorem Memory.writeBytes_nil (m : Memory) (a : Nat) : m.writeBytes a [] = m := rfl

/-- What an address reads as after a string of bytes has been written. -/
theorem Memory.find_writeBytes (m : Memory) (a b : Nat) (l : List Byte) :
    (m.writeBytes a l).find b = if a ≤ b ∧ b < a + l.length then l[b - a]? else m.find b := by
  induction l generalizing m a with
  | nil => simp [Memory.writeBytes]
  | cons v vs ih =>
    simp only [Memory.writeBytes, ih, Memory.find_write, List.length_cons]
    by_cases h1 : a = b
    · subst h1
      simp
    · by_cases h2 : a + 1 ≤ b ∧ b < a + 1 + vs.length
      · have h3 : a ≤ b ∧ b < a + (vs.length + 1) := by omega
        have h4 : b - a = (b - (a + 1)) + 1 := by omega
        simp [h2, h3, h4]
      · have h3 : ¬(a ≤ b ∧ b < a + (vs.length + 1)) := by omega
        rw [if_neg h2, if_neg h1, if_neg h3]

theorem Memory.wf_writeBytes {m : Memory} (h : m.wf) (a : Nat) (l : List Byte) :
    (m.writeBytes a l).wf := by
  induction l generalizing m a with
  | nil => exact h
  | cons v vs ih => exact ih (Memory.wf_write h a v) (a + 1)

theorem Memory.mem_writeBytes {m : Memory} {a : Nat} {l : List Byte} {c : Host.Cell}
    (h : c ∈ m.writeBytes a l) : (a ≤ c.1 ∧ c.1 < a + l.length) ∨ c ∈ m := by
  induction l generalizing m a with
  | nil => exact .inr h
  | cons v vs ih =>
    rcases ih h with h | h
    · exact .inl (by simp only [List.length_cons]; omega)
    · rcases Memory.mem_write h with h | h
      · exact .inl (by simp only [List.length_cons]; omega)
      · exact .inr h

/-! ## The machine's reads -/

theorem State.byteAt_storeBytes_of_mem (s : State) {a b : Nat} {l : List Byte}
    (h : a ≤ b ∧ b < a + l.length) : (s.storeBytes a l).byteAt b = l.getD (b - a) 0#8 := by
  have hb : b - a < l.length := by omega
  simp [State.byteAt, Memory.find_writeBytes, h, hb]

/-- A store leaves every other byte alone. -/
theorem State.byteAt_storeBytes_of_not_mem (s : State) {a b : Nat} {l : List Byte}
    (h : ¬(a ≤ b ∧ b < a + l.length)) : (s.storeBytes a l).byteAt b = s.byteAt b := by
  simp [State.byteAt, Memory.find_writeBytes, h]

/-- Reading back what was stored. -/
theorem State.bytesAt_storeBytes (s : State) (a : Nat) (l : List Byte) :
    (s.storeBytes a l).bytesAt a l.length = l := by
  apply List.ext_getElem
  · simp [State.bytesAt]
  · intro i h1 h2
    have h3 : i < l.length := h2
    simp [State.bytesAt, State.byteAt_storeBytes_of_mem s (l := l) (a := a) (b := a + i) (by omega), h3]

@[simp] theorem State.length_bytesAt (s : State) (a n : Nat) : (s.bytesAt a n).length = n := by
  simp [State.bytesAt]

/-- R318, R352: bytes outside the spoiled range keep their value. -/
theorem State.find_spoil_of_not_mem (s : State) {r : Nat × Nat} {b : Nat}
    (h : ¬(r.1 ≤ b ∧ b < r.1 + r.2)) : (s.spoil r).find b = s.buf.find b := by
  rw [State.spoil, Memory.find_writeBytes, if_neg]
  simp only [List.length_map, List.length_range]
  omega

/-! ## The canonical form is kept -/

theorem State.BufOk.storeBytes {s : State} (h : s.BufOk) {a : Nat} {l : List Byte}
    (hl : l = [] ∨ a + l.length ≤ s.bufSize) : (s.storeBytes a l).BufOk := by
  refine ⟨Memory.wf_writeBytes h.1 a l, fun c hc => ?_⟩
  rcases Memory.mem_writeBytes hc with hc | hc
  · rcases hl with rfl | hl
    · simp at hc
      omega
    · show c.1 < s.bufSize
      omega
  · exact h.2 c hc

theorem State.BufOk.spoil {s : State} (h : s.BufOk) (r : Nat × Nat) :
    (s.spoil r).wf ∧ ∀ c ∈ s.spoil r, c.1 < s.bufSize := by
  refine ⟨Memory.wf_writeBytes h.1 _ _, fun c hc => ?_⟩
  rcases Memory.mem_writeBytes hc with hc | hc
  · simp only [List.length_map, List.length_range] at hc
    omega
  · exact h.2 c hc

theorem State.reset_bufOk : State.reset.BufOk := ⟨Memory.wf_nil, by simp [State.reset, State.resetWith]⟩

end Sys2Proof.Machine
end

