-- ==== Sys2Proof/Laws/Ops.lean ====
section
/-! SUPPORT. What the shared operations can do, said once: the pre-checks, one command from its
pre-checks to its end, appending bits to the writer and getting bits from the reader. -/

namespace Sys2Proof.Machine

/-! ## Pre-checks (R316) -/

@[simp] theorem firstError_nil : firstError [] = none := rfl

@[simp] theorem firstError_cons (ok : Bool) (e : CmdError) (rest : List (Bool × CmdError)) :
    firstError ((ok, e) :: rest) = if ok then firstError rest else some e := rfl

theorem firstError_append (l m : List (Bool × CmdError)) :
    firstError (l ++ m) = (firstError l).or (firstError m) := by
  induction l with
  | nil => rfl
  | cons c rest ih =>
    obtain ⟨ok, e⟩ := c
    cases ok <;> simp [ih]

theorem firstError_eq_none {l : List (Bool × CmdError)} :
    firstError l = none ↔ ∀ c ∈ l, c.1 = true := by
  induction l with
  | nil => simp
  | cons c rest ih =>
    obtain ⟨ok, e⟩ := c
    cases ok <;> simp [ih]

theorem firstError_eq_some {l : List (Bool × CmdError)} {e : CmdError}
    (h : firstError l = some e) : (false, e) ∈ l := by
  induction l with
  | nil => simp at h
  | cons c rest ih =>
    obtain ⟨ok, e'⟩ := c
    cases ok
    · simp at h
      simp [h]
    · exact List.mem_cons_of_mem _ (ih (by simpa using h))

/-! ## One command (R313 to R318) -/

section
variable {checks : List (Bool × CmdError)} {range : Option (Nat × Nat)}
  {body : State → Except Halt Done} {s t : State}

/-- Every way a command can reach a next state. -/
theorem runCommand_cases (h : runCommand checks range body s = .next t) :
    (∃ e, firstError checks = some e ∧ t = endPreError e s) ∨
      (firstError checks = none ∧ ∃ d, body s = .ok d ∧ t = endOk d) ∨
      (firstError checks = none ∧ ∃ e, body s = .error (.raise e) ∧ t = endRunError e range s) := by
  unfold runCommand at h
  split at h
  next e he => exact .inl ⟨e, he, by cases h; rfl⟩
  next hn =>
    split at h
    next d hd => exact .inr (.inl ⟨hn, d, hd, by cases h; rfl⟩)
    next e he => exact .inr (.inr ⟨hn, e, he, by cases h; rfl⟩)
    next => cases h

theorem runCommand_ok {d : Done} (hc : firstError checks = none) (hb : body s = .ok d) :
    runCommand checks range body s = .next (endOk d) := by
  simp [runCommand, hc, hb]

theorem runCommand_pre {e : CmdError} (hc : firstError checks = some e) :
    runCommand checks range body s = .next (endPreError e s) := by
  simp [runCommand, hc]

theorem runCommand_run {e : CmdError} (hc : firstError checks = none)
    (hb : body s = .error (.raise e)) :
    runCommand checks range body s = .next (endRunError e range s) := by
  simp [runCommand, hc, hb]

/-- A command stops with a fault only where a stream access left BUF. -/
theorem runCommand_fault {r : Fault} (h : runCommand checks range body s = .fault r) :
    firstError checks = none ∧ ∃ a, body s = .error (.outside a) ∧ r = .outsideBuf a := by
  unfold runCommand at h
  split at h
  next => cases h
  next hn =>
    split at h
    next => cases h
    next => cases h
    next a ha => exact ⟨hn, a, ha, by cases h; rfl⟩

theorem runCommand_not_refused {r : Refusal} :
    runCommand checks range body s ≠ .refused r := by
  unfold runCommand
  split
  · simp
  · split <;> simp

end

/-! ## Bits -/

@[simp] theorem length_bitsOf (v n : Nat) : (bitsOf v n).length = n := by
  induction n with
  | zero => rfl
  | succ n ih => simp [bitsOf, ih]

theorem bitsOf_double (v n : Nat) (b : Bool) :
    bitsOf (2 * v + b.toNat) (n + 1) = bitsOf v n ++ [b] := by
  induction n with
  | zero => cases b <;> simp [bitsOf, Nat.testBit_zero]
  | succ n ih =>
    rw [bitsOf, ih, bitsOf, List.cons_append]
    congr 1
    rw [Nat.testBit_succ]
    congr 1
    cases b <;> simp
    omega

/-- Only the low `n` bits of a value count. -/
theorem bitsOf_mod (v n m : Nat) (h : n ≤ m) : bitsOf (v % 2 ^ m) n = bitsOf v n := by
  induction n with
  | zero => rfl
  | succ n ih =>
    have h1 : n < m := h
    simp [bitsOf, ih (Nat.le_of_succ_le h), Nat.testBit_mod_two_pow, h1]

/-- R142, R143: reading the bits of a value back gives its low bits. -/
theorem ofBits_append (bs : List Bool) (b : Bool) : ofBits (bs ++ [b]) = 2 * ofBits bs + b.toNat := by
  simp [ofBits]

/-! ## The bit writer (R141) -/

theorem State.length_writtenBits (s : State) : s.writtenBits.length = s.writerBits := by
  have h : ∀ l : List Byte, (l.flatMap fun b => bitsOf b.toNat 8).length = 8 * l.length := by
    intro l
    induction l with
    | nil => rfl
    | cons b bs ih => simp [ih]; omega
  simp [State.writtenBits, State.writerBits, h]

theorem Appends.refl (s : State) : Appends s s [] := by
  have h1 : s.writerBits / 8 = s.wr.cnt := by
    have := s.wr.nb.isLt
    simp only [State.writerBits]; omega
  have h2 : s.writerBits % 8 = s.wr.nb.val := by
    have := s.wr.nb.isLt
    simp only [State.writerBits]; omega
  exact ⟨by simp, by simp [h1], by simp [h2], fun _ _ => rfl⟩

theorem Appends.writerBits {s t : State} {bits : List Bool} (h : Appends s t bits) :
    t.writerBits = s.writerBits + bits.length := by
  rw [← State.length_writtenBits, h.1, List.length_append, State.length_writtenBits]

theorem Appends.cnt {s t : State} {bits : List Bool} (h : Appends s t bits) :
    t.wr.cnt = (s.writerBits + bits.length) / 8 := by
  rw [h.2.1]

theorem Appends.base {s t : State} {bits : List Bool} (h : Appends s t bits) :
    t.wr.base = s.wr.base := by
  rw [h.2.1]

theorem Appends.cap {s t : State} {bits : List Bool} (h : Appends s t bits) :
    t.wr.cap = s.wr.cap := by
  rw [h.2.1]

theorem Appends.bufSize {s t : State} {bits : List Bool} (h : Appends s t bits) :
    t.bufSize = s.bufSize := by
  rw [h.2.1]
  rfl

theorem Appends.trans {s t u : State} {xs ys : List Bool} (h : Appends s t xs)
    (h' : Appends t u ys) : Appends s u (xs ++ ys) := by
  have hb := h.writerBits
  refine ⟨by rw [h'.1, h.1, List.append_assoc], ?_, ?_, ?_⟩
  · have e1 := h'.2.1
    rw [hb, h.2.1] at e1
    rw [List.length_append, ← Nat.add_assoc]
    exact e1
  · rw [h'.2.2.1, hb, List.length_append, Nat.add_assoc]
  · intro a ha
    have hc := h.cnt
    have hs : s.wr.cnt ≤ (s.writerBits + xs.length) / 8 := by
      simp only [State.writerBits]; omega
    rw [List.length_append, ← Nat.add_assoc] at ha
    have hle : (s.writerBits + xs.length) / 8 ≤ (s.writerBits + xs.length + ys.length) / 8 :=
      Nat.div_le_div_right (Nat.le_add_right _ _)
    rw [h'.2.2.2 a, h.2.2.2 a]
    · omega
    · rw [h.base, hc, hb]
      omega

/-- R141: one append. -/
theorem State.appendBit_ok {s t : State} {b : Bool} (hacc : s.wr.acc.toNat < 2 ^ s.wr.nb.val)
    (h : s.appendBit b = .ok t) :
    s.writerBits + 1 ≤ 8 * s.wr.cap ∧ Appends s t [b] ∧ t.wr.acc.toNat < 2 ^ t.wr.nb.val ∧
      (s.BufOk → t.BufOk) := by
  unfold State.appendBit at h
  have hnb := s.wr.nb.isLt
  have hval : (2#8 * s.wr.acc + (BitVec.ofBool b).zeroExtend 8).toNat =
      2 * s.wr.acc.toNat + b.toNat := by
    have h1 : s.wr.acc.toNat < 128 :=
      Nat.lt_of_lt_of_le hacc (Nat.pow_le_pow_right (n := 2) (by omega) (by omega : s.wr.nb.val ≤ 7))
    have h2 : b.toNat < 2 := by cases b <;> decide
    simp only [BitVec.toNat_add, BitVec.toNat_mul, BitVec.toNat_ofNat, BitVec.truncate_eq_setWidth,
      BitVec.toNat_setWidth, BitVec.toNat_ofBool]
    omega
  split_ifs at h with h1 h2 h3
  · cases h
    have hcap : s.writerBits + 1 ≤ 8 * s.wr.cap := by simp only [State.writerBits]; omega
    refine ⟨hcap, ⟨?_, ?_, ?_, ?_⟩, by simp, ?_⟩
    · simp only [State.writtenBits, State.bytesAt, List.range_succ, List.map_append,
        List.flatMap_append, List.map_cons, List.map_nil, List.flatMap_cons, List.flatMap_nil,
        List.append_nil, State.byteAt, Memory.find_write]
      have hold : ∀ j ∈ List.range s.wr.cnt,
          ((if s.wr.base + s.wr.cnt = s.wr.base + j then
              some (2#8 * s.wr.acc + (BitVec.ofBool b).zeroExtend 8)
            else s.buf.find (s.wr.base + j)).getD (unlistedByte s.power (s.wr.base + j))) =
          (s.buf.find (s.wr.base + j)).getD (unlistedByte s.power (s.wr.base + j)) := by
        intro j hj
        have hj' := List.mem_range.mp hj
        rw [if_neg (by omega)]
      rw [List.map_congr_left hold, h2]
      simp only [if_true, Option.getD_some, hval, bitsOf_double, List.append_assoc]
      simp [bitsOf]
    · have : (s.writerBits + [b].length) / 8 = s.wr.cnt + 1 := by
        simp only [State.writerBits, List.length_singleton]; omega
      simp only [this]
    · simp only [State.writerBits, List.length_singleton]
      simp only [Fin.val_zero]
      omega
    · intro a ha
      have : (s.writerBits + [b].length) / 8 = s.wr.cnt + 1 := by
        simp only [State.writerBits, List.length_singleton]; omega
      rw [this] at ha
      simp only [State.byteAt, Memory.find_write]
      rw [if_neg (by omega)]
    · intro hbuf
      refine ⟨Memory.wf_write hbuf.1 _ _, fun c hc => ?_⟩
      rcases Memory.mem_write hc with hc | hc
      · rw [hc]; exact h3
      · exact hbuf.2 c hc
  · cases h
    have hcap : s.writerBits + 1 ≤ 8 * s.wr.cap := by simp only [State.writerBits]; omega
    have hnb1 : (s.wr.nb + 1).val = s.wr.nb.val + 1 := by
      rw [Fin.val_add]
      simp
      omega
    have hcnt : (s.writerBits + [b].length) / 8 = s.wr.cnt := by
      simp only [State.writerBits, List.length_singleton]; omega
    refine ⟨hcap, ⟨?_, ?_, ?_, fun _ _ => rfl⟩, ?_, id⟩
    · simp only [State.writtenBits, hnb1, hval, bitsOf_double, List.append_assoc]
      rfl
    · simp only [hcnt]
    · simp only [hnb1, State.writerBits, List.length_singleton]
      omega
    · simp only [hval, hnb1, Nat.pow_succ]
      cases b <;> simp <;> omega

/-- R141: appending in order; what an append that does not stop has done. -/
theorem State.appendBits_ok {s t : State} {bits : List Bool}
    (hacc : s.wr.acc.toNat < 2 ^ s.wr.nb.val) (h : s.appendBits bits = .ok t) :
    (bits ≠ [] → s.writerBits + bits.length ≤ 8 * s.wr.cap) ∧ Appends s t bits ∧
      t.wr.acc.toNat < 2 ^ t.wr.nb.val ∧ (s.BufOk → t.BufOk) := by
  induction bits generalizing s with
  | nil =>
    cases h
    exact ⟨fun h => absurd rfl h, Appends.refl _, hacc, id⟩
  | cons b bs ih =>
    rw [State.appendBits] at h
    split at h
    next => cases h
    next u hu =>
      obtain ⟨hc1, ha1, hacc1, hb1⟩ := State.appendBit_ok hacc hu
      obtain ⟨hc2, ha2, hacc2, hb2⟩ := ih hacc1 h
      refine ⟨fun _ => ?_, ha1.trans ha2, hacc2, fun hb => hb2 (hb1 hb)⟩
      rcases eq_or_ne bs [] with rfl | hne
      · simpa using hc1
      · have := hc2 hne
        rw [ha1.cap, ha1.writerBits] at this
        simp only [List.length_cons, List.length_nil] at this ⊢
        omega

/-- R141: an append to a writer that lies in BUF does not stop while the bits fit. -/
theorem State.appendBit_fits {s : State} (b : Bool) (hbuf : s.wr.base + s.wr.cap ≤ s.bufSize)
    (hcap : s.writerBits + 1 ≤ 8 * s.wr.cap) : ∃ t, s.appendBit b = .ok t := by
  unfold State.appendBit
  simp only [State.writerBits] at hcap
  rw [if_neg (by omega)]
  split_ifs with h1 h2
  · exact ⟨_, rfl⟩
  · omega
  · exact ⟨_, rfl⟩

theorem State.appendBits_fits {s : State} {bits : List Bool}
    (hacc : s.wr.acc.toNat < 2 ^ s.wr.nb.val) (hbuf : s.wr.base + s.wr.cap ≤ s.bufSize)
    (hcap : s.writerBits + bits.length ≤ 8 * s.wr.cap) : ∃ t, s.appendBits bits = .ok t := by
  induction bits generalizing s with
  | nil => exact ⟨s, rfl⟩
  | cons b bs ih =>
    simp only [List.length_cons] at hcap
    obtain ⟨u, hu⟩ := State.appendBit_fits b hbuf (by omega)
    obtain ⟨-, ha, hacc', -⟩ := State.appendBit_ok hacc hu
    have hb := ha.writerBits
    simp only [List.length_cons, List.length_nil] at hb
    obtain ⟨t, ht⟩ := ih hacc' (by rw [ha.base, ha.cap, ha.bufSize]; exact hbuf)
      (by rw [ha.cap, hb]; omega)
    exact ⟨t, by rw [State.appendBits, hu]; exact ht⟩

theorem State.appendBits_append (s : State) (xs ys : List Bool) :
    s.appendBits (xs ++ ys) = (s.appendBits xs).bind fun t => t.appendBits ys := by
  induction xs generalizing s with
  | nil => rfl
  | cons b bs ih =>
    rw [List.cons_append, State.appendBits, State.appendBits]
    split
    · rfl
    · exact ih _

/-! ## The bit reader (R143) -/

/-- R143: everything `get` can answer. -/
theorem State.get_ok {s t : State} {n v : Nat} {e : CmdError} (h : s.get n e = .ok (v, t)) :
    s.rd.pos + n ≤ s.rd.stop ∧ v = ofBits (s.nextBits n) ∧
      t = { s with rd := { s.rd with pos := s.rd.pos + n } } := by
  unfold State.get at h
  split_ifs at h with h1 h2
  cases h
  exact ⟨by omega, rfl, rfl⟩

/-- R143: a `get` on a reader that lies in BUF does not stop while the bits last. -/
theorem State.get_fits {s : State} (n : Nat) (e : CmdError)
    (hbuf : s.rd.base + s.rd.len ≤ s.bufSize) (hstop : s.rd.stop ≤ 8 * s.rd.len)
    (h : s.rd.pos + n ≤ s.rd.stop) :
    s.get n e =
      .ok (ofBits (s.nextBits n), { s with rd := { s.rd with pos := s.rd.pos + n } }) := by
  unfold State.get
  rw [if_neg (by omega), if_neg (by omega)]

/-- R143: the only error of a `get` on a reader that lies in BUF is the one it is given. -/
theorem State.get_error {s : State} {n : Nat} {e : CmdError} {h : Halt}
    (hbuf : s.rd.base + s.rd.len ≤ s.bufSize) (hstop : s.rd.stop ≤ 8 * s.rd.len)
    (hg : s.get n e = .error h) : h = .raise e ∧ s.rd.stop < s.rd.pos + n := by
  unfold State.get at hg
  split_ifs at hg with h1 h2
  · cases hg
    exact ⟨rfl, by omega⟩
  · omega

@[simp] theorem State.length_nextBits (s : State) (n : Nat) : (s.nextBits n).length = n := by
  simp [State.nextBits]

end Sys2Proof.Machine
end

