-- ==== Sys2Proof/Laws/Codec.lean ====
section
/-! SUPPORT. What the loops of the decoding commands can do (42_huffman.md R174, R177, R178;
43_lz.md R214, R218): they move R.pos and write BUF bytes of one range, and nothing else; and the
errors that can end them. -/

namespace Sys2Proof.Machine

/-- `t` is `s` after reading bits of the open stream and writing bytes below `d + n` from `d` on. -/
def Consumes (d n : Nat) (s t : State) : Prop :=
  t = { s with rd := { s.rd with pos := t.rd.pos }, buf := t.buf } ∧ s.rd.pos ≤ t.rd.pos ∧
    (s.rd.pos ≤ s.rd.stop → t.rd.pos ≤ s.rd.stop) ∧
    (∀ a, ¬(d ≤ a ∧ a < d + n) → t.byteAt a = s.byteAt a) ∧
    (d + n ≤ s.bufSize → s.BufOk → t.BufOk)

/-- The open reader lies in BUF. -/
def State.ReaderFits (s : State) : Prop :=
  s.rd.base + s.rd.len ≤ s.bufSize ∧ s.rd.stop ≤ 8 * s.rd.len

namespace Consumes

variable {d n : Nat} {s t u : State}

theorem refl : Consumes d n s s := ⟨rfl, Nat.le_refl _, id, fun _ _ => rfl, fun _ => id⟩

theorem bufSize (h : Consumes d n s t) : t.bufSize = s.bufSize := by rw [h.1]; rfl

theorem rd (h : Consumes d n s t) : t.rd = { s.rd with pos := t.rd.pos } := by
  conv_lhs => rw [h.1]

theorem stop (h : Consumes d n s t) : t.rd.stop = s.rd.stop := by rw [h.rd]

theorem trans (h : Consumes d n s t) (h' : Consumes d n t u) : Consumes d n s u := by
  refine ⟨?_, Nat.le_trans h.2.1 h'.2.1, fun hp => ?_, fun a ha => ?_, fun hd hb => ?_⟩
  · have e := h'.1
    rw [h.1] at e
    exact e
  · rw [← h.stop]
    exact h'.2.2.1 (by rw [h.stop]; exact h.2.2.1 hp)
  · rw [h'.2.2.2.1 a ha, h.2.2.2.1 a ha]
  · exact h'.2.2.2.2 (by rw [h.bufSize]; exact hd) (h.2.2.2.2 hd hb)

theorem readerFits (h : Consumes d n s t) (hs : s.ReaderFits) : t.ReaderFits := by
  rw [State.ReaderFits, h.bufSize, h.rd]
  exact hs

theorem of_get {k v : Nat} {e : CmdError} (h : s.get k e = .ok (v, t)) : Consumes d n s t := by
  obtain ⟨hk, -, rfl⟩ := State.get_ok h
  exact ⟨rfl, Nat.le_add_right _ _, fun _ => hk, fun _ _ => rfl, fun _ => id⟩

theorem of_store {a : Nat} {l : List Byte} (h : l = [] ∨ (d ≤ a ∧ a + l.length ≤ d + n)) :
    Consumes d n s (s.storeBytes a l) := by
  refine ⟨rfl, Nat.le_refl _, id, fun b hb => ?_, fun hd hb => hb.storeBytes ?_⟩
  · refine State.byteAt_storeBytes_of_not_mem s fun hm => ?_
    rcases h with rfl | h
    · simp only [List.length_nil] at hm; omega
    · omega
  · exact h.imp_right fun h => by omega

end Consumes

/-! ## Errors -/

/-- What can end a stream loop early: an error of the list, or a stream byte outside BUF, which a
reader that fits excludes. -/
def StopsWith (s : State) (es : List CmdError) (h : Halt) : Prop :=
  (∃ e ∈ es, h = .raise e) ∨ ((∃ a, h = .outside a) ∧ ¬s.ReaderFits)

theorem StopsWith.mono {s t : State} {es es' : List CmdError} {h : Halt} {d n : Nat}
    (hs : StopsWith t es h) (hc : Consumes d n s t) (he : ∀ e ∈ es, e ∈ es') :
    StopsWith s es' h := by
  rcases hs with ⟨e, hm, rfl⟩ | ⟨ha, hf⟩
  · exact .inl ⟨e, he e hm, rfl⟩
  · exact .inr ⟨ha, fun h => hf (hc.readerFits h)⟩

theorem StopsWith.raise {s : State} {es : List CmdError} {e : CmdError} (he : e ∈ es) :
    StopsWith s es (.raise e) := .inl ⟨e, he, rfl⟩

theorem State.get_stops {s : State} {n : Nat} {e : CmdError} {h : Halt}
    (hg : s.get n e = .error h) : StopsWith s [e] h := by
  by_cases hf : s.ReaderFits
  · exact .inl ⟨e, List.mem_singleton_self e, (State.get_error hf.1 hf.2 hg).1⟩
  · unfold State.get at hg
    split_ifs at hg with h1 h2
    · cases hg; exact .raise (List.mem_singleton_self e)
    · cases hg; exact .inr ⟨⟨_, rfl⟩, hf⟩

/-- The two ends of a step of a loop that begins with a `get`. -/
theorem State.get_bind {α : Type} {s : State} {n : Nat} {e : CmdError}
    {f : Nat × State → Except Halt α} {r : Except Halt α} (h : (s.get n e >>= f) = r) :
    (∃ x, StopsWith s [e] x ∧ r = .error x) ∨
      ∃ v t, s.get n e = .ok (v, t) ∧ f (v, t) = r := by
  cases hg : s.get n e with
  | error x =>
    rw [hg] at h
    exact .inl ⟨x, State.get_stops hg, h.symm⟩
  | ok p =>
    rw [hg] at h
    exact .inr ⟨p.1, p.2, rfl, h⟩

/-! ## Huffman -/

theorem readPairs_ok {k low : Nat} {c c' : Vector Byte 256} {s t : State}
    (h : readPairs k low c s = .ok (c', t)) : Consumes 0 0 s t := by
  induction k generalizing low c s with
  | zero => cases h; exact .refl
  | succ k ih =>
    rw [readPairs] at h
    rcases State.get_bind h with ⟨x, -, hx⟩ | ⟨b, s₁, h₁, h⟩
    · cases hx
    rcases State.get_bind h with ⟨x, -, hx⟩ | ⟨l, s₂, h₂, h⟩
    · cases hx
    dsimp only at h
    split_ifs at h
    exact (Consumes.of_get h₁).trans ((Consumes.of_get h₂).trans (ih h))

theorem readPairs_stops {k low : Nat} {c : Vector Byte 256} {s : State} {x : Halt}
    (h : readPairs k low c s = .error x) : StopsWith s [.truncatedStream, .corruptHeader] x := by
  induction k generalizing low c s with
  | zero => cases h
  | succ k ih =>
    rw [readPairs] at h
    rcases State.get_bind h with ⟨y, hy, hx⟩ | ⟨b, s₁, h₁, h⟩
    · cases hx; exact hy.mono (d := 0) (n := 0) .refl (by simp)
    have c₁ : Consumes 0 0 s s₁ := .of_get h₁
    rcases State.get_bind h with ⟨y, hy, hx⟩ | ⟨l, s₂, h₂, h⟩
    · cases hx; exact hy.mono c₁ (by simp)
    dsimp only at h
    split_ifs at h
    · cases h; exact .raise (by simp)
    · cases h; exact .raise (by simp)
    · exact (ih h).mono (c₁.trans (.of_get h₂)) (by simp)

theorem decodeSym_ok {c : Vector Byte 256} {left code l : Nat} {s t : State} {b : Byte}
    {d n : Nat} (h : decodeSym c left code l s = .ok (b, t)) : Consumes d n s t := by
  induction left generalizing code l s with
  | zero => cases h
  | succ left ih =>
    rw [decodeSym] at h
    rcases State.get_bind h with ⟨x, -, hx⟩ | ⟨v, s₁, h₁, h⟩
    · cases hx
    dsimp only at h
    split_ifs at h
    · cases h; exact .of_get h₁
    · exact (Consumes.of_get h₁).trans (ih h)

theorem decodeSym_stops {c : Vector Byte 256} {left code l : Nat} {s : State} {x : Halt}
    (h : decodeSym c left code l s = .error x) :
    StopsWith s [.truncatedStream, .corruptStream] x := by
  induction left generalizing code l s with
  | zero => cases h; exact .raise (by simp)
  | succ left ih =>
    rw [decodeSym] at h
    rcases State.get_bind h with ⟨y, hy, hx⟩ | ⟨v, s₁, h₁, h⟩
    · cases hx; exact hy.mono (d := 0) (n := 0) .refl (by simp)
    dsimp only at h
    split_ifs at h
    · cases h
    · exact (ih h).mono (d := 0) (n := 0) (.of_get h₁) (by simp)

/-- R178: the decoder writes only the bytes of its destination. -/
theorem hufDecode_ok {c : Vector Byte 256} {k a d n : Nat} {s t : State} (hd : d ≤ a)
    (hn : a + k ≤ d + n) (h : hufDecode c k a s = .ok t) : Consumes d n s t := by
  induction k generalizing a s with
  | zero => cases h; exact .refl
  | succ k ih =>
    rw [hufDecode] at h
    cases hs : decodeSym c (maxLen c) 0 0 s with
    | error x => rw [hs] at h; cases h
    | ok p =>
      rw [hs] at h
      exact (decodeSym_ok hs).trans ((Consumes.of_store (.inr ⟨hd, by simp; omega⟩)).trans
        (ih (by omega) (by omega) h))

theorem hufDecode_stops {c : Vector Byte 256} {k a d n : Nat} {s : State} {x : Halt} (hd : d ≤ a)
    (hn : a + k ≤ d + n) (h : hufDecode c k a s = .error x) :
    StopsWith s [.truncatedStream, .corruptStream] x := by
  induction k generalizing a s with
  | zero => cases h
  | succ k ih =>
    rw [hufDecode] at h
    cases hs : decodeSym c (maxLen c) 0 0 s with
    | error y => rw [hs] at h; cases h; exact decodeSym_stops hs
    | ok p =>
      rw [hs] at h
      exact (ih (by omega) (by omega) h).mono (d := d) (n := n)
        ((decodeSym_ok hs).trans (.of_store (.inr ⟨hd, by simp; omega⟩))) (fun _ => id)

/-! ## LZ -/

/-- R214: the copy writes `len` bytes. -/
theorem copyBack_consumes {off len a d n : Nat} {s : State} (hd : d ≤ a)
    (hn : a + len ≤ d + n) : Consumes d n s (copyBack off len a s) := by
  induction len generalizing a s with
  | zero => exact .refl
  | succ len ih =>
    exact (Consumes.of_store (.inr ⟨hd, by simp; omega⟩)).trans (ih (by omega) (by omega))

theorem lz77Decode_ok {d n fuel out tokens k : Nat} {s t : State} (ho : out ≤ n)
    (h : lz77Decode d n fuel out tokens s = .ok (k, t)) : Consumes d n s t := by
  induction fuel generalizing out tokens s with
  | zero => cases h; exact .refl
  | succ fuel ih =>
    rw [lz77Decode] at h
    split_ifs at h with hlt
    · rcases State.get_bind h with ⟨x, -, hx⟩ | ⟨flag, s₁, h₁, h⟩
      · cases hx
      refine (Consumes.of_get h₁).trans ?_
      dsimp only at h
      split_ifs at h with hf
      · rcases State.get_bind h with ⟨x, -, hx⟩ | ⟨b, s₂, h₂, h⟩
        · cases hx
        exact (Consumes.of_get h₂).trans
          ((Consumes.of_store (.inr ⟨by omega, by simp; omega⟩)).trans (ih (by omega) h))
      · rcases State.get_bind h with ⟨x, -, hx⟩ | ⟨o, s₂, h₂, h⟩
        · cases hx
        rcases State.get_bind h with ⟨x, -, hx⟩ | ⟨l, s₃, h₃, h⟩
        · cases hx
        dsimp only at h
        split_ifs at h with hb hc
        exact (Consumes.of_get h₂).trans ((Consumes.of_get h₃).trans
          ((copyBack_consumes (by omega) (by omega)).trans (ih (by omega) h)))
    · cases h; exact .refl

theorem lz77Decode_stops {d n fuel out tokens : Nat} {s : State} {x : Halt} (ho : out ≤ n)
    (h : lz77Decode d n fuel out tokens s = .error x) :
    StopsWith s [.truncatedStream, .invalidBackReference, .corruptStream] x := by
  induction fuel generalizing out tokens s with
  | zero => cases h
  | succ fuel ih =>
    rw [lz77Decode] at h
    split_ifs at h with hlt
    · rcases State.get_bind h with ⟨y, hy, hx⟩ | ⟨flag, s₁, h₁, h⟩
      · cases hx; exact hy.mono (d := d) (n := n) .refl (by simp)
      have c₁ : Consumes d n s s₁ := .of_get h₁
      dsimp only at h
      split_ifs at h with hf
      · rcases State.get_bind h with ⟨y, hy, hx⟩ | ⟨b, s₂, h₂, h⟩
        · cases hx; exact hy.mono c₁ (by simp)
        exact (ih (by omega) h).mono (c₁.trans ((Consumes.of_get h₂).trans
          (.of_store (.inr ⟨by omega, by simp; omega⟩)))) (fun _ => id)
      · rcases State.get_bind h with ⟨y, hy, hx⟩ | ⟨o, s₂, h₂, h⟩
        · cases hx; exact hy.mono c₁ (by simp)
        have c₂ : Consumes d n s s₂ := c₁.trans (.of_get h₂)
        rcases State.get_bind h with ⟨y, hy, hx⟩ | ⟨l, s₃, h₃, h⟩
        · cases hx; exact hy.mono c₂ (by simp)
        dsimp only at h
        split_ifs at h with hb hc
        · cases h; exact .raise (by simp)
        · cases h; exact .raise (by simp)
        · exact (ih (by omega) h).mono (c₂.trans ((Consumes.of_get h₃).trans
            (copyBack_consumes (by omega) (by omega)))) (fun _ => id)

theorem lz78Decode_ok {d n fuel out tokens k : Nat} {dict dict' : Dict} {s t : State}
    (ho : out ≤ n) (h : lz78Decode d n fuel out tokens dict s = .ok (k, dict', t)) :
    Consumes d n s t := by
  induction fuel generalizing out tokens dict s with
  | zero => cases h; exact .refl
  | succ fuel ih =>
    rw [lz78Decode] at h
    split_ifs at h with hlt
    · rcases State.get_bind h with ⟨x, -, hx⟩ | ⟨i, s₁, h₁, h⟩
      · cases hx
      rcases State.get_bind h with ⟨x, -, hx⟩ | ⟨b, s₂, h₂, h⟩
      · cases hx
      dsimp only at h
      split_ifs at h with hi hc
      exact (Consumes.of_get h₁).trans ((Consumes.of_get h₂).trans
        ((Consumes.of_store (.inr ⟨by omega, by omega⟩)).trans (ih (by omega) h)))
    · cases h; exact .refl

theorem lz78Decode_stops {d n fuel out tokens : Nat} {dict : Dict} {s : State} {x : Halt}
    (ho : out ≤ n) (h : lz78Decode d n fuel out tokens dict s = .error x) :
    StopsWith s [.truncatedStream, .invalidBackReference, .corruptStream] x := by
  induction fuel generalizing out tokens dict s with
  | zero => cases h
  | succ fuel ih =>
    rw [lz78Decode] at h
    split_ifs at h with hlt
    · rcases State.get_bind h with ⟨y, hy, hx⟩ | ⟨i, s₁, h₁, h⟩
      · cases hx; exact hy.mono (d := d) (n := n) .refl (by simp)
      have c₁ : Consumes d n s s₁ := .of_get h₁
      rcases State.get_bind h with ⟨y, hy, hx⟩ | ⟨b, s₂, h₂, h⟩
      · cases hx; exact hy.mono c₁ (by simp)
      dsimp only at h
      split_ifs at h with hi hc
      · cases h; exact .raise (by simp)
      · cases h; exact .raise (by simp)
      · exact (ih (by omega) h).mono (c₁.trans ((Consumes.of_get h₂).trans
          (.of_store (.inr ⟨by omega, by omega⟩)))) (fun _ => id)

/-! ## Huffman encoding -/

/-- R176: on bytes that all have a code the encoder appends their codes. -/
theorem hufEncode_eq {c : Vector Byte 256} {l : List Byte} {bits : Nat} {s : State}
    (h : ∀ b ∈ l, 0 < lenOf c b) :
    hufEncode c l bits s =
      (s.appendBits (l.flatMap (codeBits c))).map fun t =>
        (bits + (l.map (lenOf c)).sum, t) := by
  induction l generalizing bits s with
  | nil => rfl
  | cons b bs ih =>
    rw [hufEncode, if_neg (Nat.pos_iff_ne_zero.1 (h b List.mem_cons_self)), List.flatMap_cons,
      State.appendBits_append]
    show (s.appendBits (codeBits c b) >>= _) = _
    cases s.appendBits (codeBits c b) with
    | error x => rfl
    | ok t =>
      show hufEncode c bs (bits + lenOf c b) t = _
      rw [ih fun x hx => h x (List.mem_cons_of_mem _ hx), List.map_cons, List.sum_cons,
        ← Nat.add_assoc]
      rfl

end Sys2Proof.Machine
end

