-- ==== Sys2Proof/Laws/PerInstr.lean ====
section
/-! SUPPORT. Facts about every command as syntax, one lemma per constructor: the fields of the word
it encodes to (30_encoding.md R110, R116). -/

namespace Sys2Proof.Laws.EncodeFields

/-- R110, R116: the encoded word has the command's OPC and IMM in their fields and RSV = 0. -/
def Statement (i : Instr) : Prop :=
  opcField (encode i) = i.opcode ∧ immField (encode i) = i.imm ∧ rsvField (encode i) = 0#48

/-- The fields of a concatenation are its parts (R9). -/
theorem fields_append (r : BitVec 48) (m o : Byte) :
    opcField ((r ++ m : BitVec 56) ++ o) = o ∧ immField ((r ++ m : BitVec 56) ++ o) = m ∧
      rsvField ((r ++ m : BitVec 56) ++ o) = r := by
  refine ⟨?_, ?_, ?_⟩ <;>
  · apply BitVec.eq_of_getLsbD_eq
    intro k hk
    simp only [opcField, immField, rsvField, BitVec.getLsbD_extractLsb', BitVec.getLsbD_append, hk,
      decide_true, Bool.true_and]
    split_ifs <;> first | omega | (congr 1; omega)

theorem of_any (i : Instr) : Statement i := fields_append _ _ _

theorem nop : Statement .nop := of_any _
theorem bswOpen : Statement .bswOpen := of_any _
theorem bswPut (n : Byte) : Statement (.bswPut n) := of_any _
theorem bswFlush : Statement .bswFlush := of_any _
theorem bsrOpen (pad : Byte) : Statement (.bsrOpen pad) := of_any _
theorem bsrGet (n : Byte) : Statement (.bsrGet n) := of_any _
theorem bsrAlign : Statement .bsrAlign := of_any _
theorem hufCount : Statement .hufCount := of_any _
theorem hufBuild : Statement .hufBuild := of_any _
theorem hufSerial : Statement .hufSerial := of_any _
theorem hufDeser : Statement .hufDeser := of_any _
theorem hufEnc : Statement .hufEnc := of_any _
theorem hufDec : Statement .hufDec := of_any _
theorem hufCode (b : Byte) : Statement (.hufCode b) := of_any _
theorem lz77Find : Statement .lz77Find := of_any _
theorem lz77Enc : Statement .lz77Enc := of_any _
theorem lz77Dec : Statement .lz77Dec := of_any _
theorem lz78Enc : Statement .lz78Enc := of_any _
theorem lz78Dec : Statement .lz78Dec := of_any _
theorem qtGen : Statement .qtGen := of_any _
theorem dctFwd : Statement .dctFwd := of_any _
theorem quant : Statement .quant := of_any _
theorem dequant : Statement .dequant := of_any _
theorem dctInv : Statement .dctInv := of_any _
theorem dctEnc : Statement .dctEnc := of_any _
theorem dctDec : Statement .dctDec := of_any _

end Sys2Proof.Laws.EncodeFields
end

