-- ==== Sys2Proof/Laws/Step.lean ====
section
/-! SUPPORT. What a step can do, said once (10_state.md R49, 20_memory.md R90), what a host action
can do (R95), and that the script language names the registers of the map (30_encoding.md R117). -/

namespace Sys2Proof.Machine

/-- A step does nothing, or is the host's next action, or is the engine's. -/
theorem step_cases {s t : State} (h : step s = .next t) :
    (s.pending = none ∧ s.script = [] ∧ t = s) ∨
      (∃ e rest, s.script = e :: rest ∧ (s.pending = none ∨ e.early = true) ∧
        hostAct e.act { s with script := rest } = .next t) ∨
      (∃ c i, s.pending = some c ∧ s.hostWaits = true ∧ decode c = .ok i ∧ exec i s = .next t) ∨
      ∃ c e, s.pending = some c ∧ s.hostWaits = true ∧ decode c = .error e ∧
        t = endPreError .illegalCommand s := by
  unfold step machineStep at h
  split at h
  next hp =>
    unfold hostTurn at h
    split at h
    next hs => exact .inl ⟨hp, hs, by cases h; rfl⟩
    next e rest hs => exact .inr (.inl ⟨e, rest, hs, .inl hp, h⟩)
  next c hp =>
    split_ifs at h with hw
    · unfold engineStep at h
      split at h
      next i hd => exact .inr (.inr (.inl ⟨c, i, hp, hw, hd, h⟩))
      next e hd => exact .inr (.inr (.inr ⟨c, e, hp, hw, hd, by cases h; rfl⟩))
    · unfold hostTurn at h
      unfold State.hostWaits at hw
      split at h
      next hs => simp [hs] at hw
      next e rest hs => exact .inr (.inl ⟨e, rest, hs, .inr (by simpa [hs] using hw), h⟩)

/-- What an access to BUF that is no bus error reaches lies in BUF. -/
theorem busTarget_buf {s : State} {width a : Nat} {addr : Offset}
    (h : busTarget s width addr = some (.buf a)) : a + width ≤ s.bufSize := by
  revert h
  unfold busTarget
  generalize Config.bufBase = base
  intro h
  simp only at h
  split_ifs at h with h1 h2 h3
  · simp at h
  · simp only [Option.some.injEq, BusTarget.buf.injEq] at h
    rw [← h]
    exact h3.2.2

/-- A host action looks at the CXB and changes none of its state; or it is a write to BUF or to a
register while the engine is idle, a write dropped while it is busy, a write to CTRL, or a
power-on. -/
theorem hostAct_cases {act : HostAction} {s t : State} (h : hostAct act s = .next t) :
    (∃ v n script, t = { s with busData := v, draws := n, script := script }) ∨
      (∃ a width v, s.busy = false ∧ a + width ≤ s.bufSize ∧ t = s.storeBytes a (leBytes v width)) ∨
      (∃ r v, s.busy = false ∧ t = writeReg r v s) ∨
      (s.busy = true ∧ t = { s with wbusy := true }) ∨
      (∃ v, t = writeCtrl v s) ∨ t = powerOnReset s := by
  cases act with
  | read width addr =>
    simp only [hostAct] at h
    split at h <;> cases h
    refine .inl ?_
    unfold hostRead unspecifiedRead
    split <;> split <;> exact ⟨_, _, _, rfl⟩
  | write width addr v =>
    simp only [hostAct] at h
    split at h
    · cases h
    next tgt ht =>
      cases h
      unfold hostWrite
      split_ifs with hb
      · rw [Bool.and_eq_true] at hb
        exact .inr (.inr (.inr (.inl ⟨hb.1, rfl⟩)))
      · cases hbusy : s.busy with
        | false =>
          cases tgt with
          | reg r => exact .inr (.inr (.inl ⟨r, v, rfl, rfl⟩))
          | buf a => exact .inr (.inl ⟨a, width, v, rfl, busTarget_buf ht, rfl⟩)
        | true =>
          simp only [hbusy, Bool.true_and, decide_eq_true_eq, not_not, ne_eq] at hb
          subst hb
          exact .inr (.inr (.inr (.inr (.inl ⟨v, rfl⟩))))
  | sampleIrq => cases h; exact .inl ⟨_, _, _, rfl⟩
  | wait polls => cases h; exact .inl ⟨_, _, _, rfl⟩
  | powerOn => cases h; exact .inr (.inr (.inr (.inr (.inr rfl))))

/-- R32, R117: the register map has each register at the offset a script uses for it. -/
theorem regAt_offset (r : Reg) : regAt r.offset = r := by
  cases r with
  | freq i =>
    have hi := i.isLt
    simp only [Reg.offset]
    unfold regAt
    rw [if_pos (by omega)]
    exact congrArg Reg.freq (Fin.ext (by simp only [Fin.ofNat]; omega))
  | clen i =>
    have hi := i.isLt
    simp only [Reg.offset]
    unfold regAt
    rw [if_neg (by omega), if_pos (by omega)]
    exact congrArg Reg.clen (Fin.ext (by simp only [Fin.ofNat]; omega))
  | qtab i =>
    have hi := i.isLt
    simp only [Reg.offset]
    unfold regAt
    rw [if_neg (by omega), if_neg (by omega), if_pos (by omega)]
    exact congrArg Reg.qtab (Fin.ext (by simp only [Fin.ofNat]; omega))
  | _ => rfl

/-- R362: when the accesses of a script land changes none of them and not their order. -/
@[simp] theorem landEarly_acts (n : Nat) (evs : List HostEvent) :
    (landEarly n evs).map HostEvent.act = evs.map HostEvent.act := by
  have h : HostEvent.act ∘ (fun e : HostEvent => { e with early := true }) = HostEvent.act := rfl
  rw [landEarly, List.map_append, List.map_map, h, ← List.map_append, List.take_append_drop]

/-- A line whose accesses all wait is its statement. -/
@[simp] theorem landEarly_zero (evs : List HostEvent) : landEarly 0 evs = evs := by
  simp [landEarly]

end Sys2Proof.Machine
end

