-- ==== Sys2Proof/Tests/Slice0.lean ====
section
/-! SUPPORT. Tests. The decode tests take their words from the opcode map of 30_encoding.md R113, the
command tests take their values from the vectors of 95_test_vectors.md, and each witness theorem
shows a state and operands that meet every hypothesis of a statement. -/

namespace Sys2Proof.Tests

open Sys2Proof.Machine Sys2Proof.Claims

-- One evaluation at a time: each one that is under way holds a thread of its own.
set_option Elab.async false

/-! ## Small states -/

/-- Does the outcome go on to a state of which `p` holds? -/
def endsIn (o : Host.Outcome State Fault Refusal) (p : State → Bool) : Bool :=
  match o with
  | .next t => p t
  | .fault _ => false
  | .refused _ => false

theorem endsIn_next {o : Host.Outcome State Fault Refusal} {p : State → Bool}
    (h : endsIn o p = true) : ∃ t, o = .next t ∧ p t = true := by
  cases o with
  | next t => exact ⟨t, rfl, h⟩
  | fault r => cases h
  | refused r => cases h

/-- Source (a, n). -/
def src (a n : Nat) (s : State) : State :=
  { s with srcAddr := BitVec.ofNat 64 a, srcLen := BitVec.ofNat 64 n }
/-- Destination (a, n). -/
def dst (a n : Nat) (s : State) : State :=
  { s with dstAddr := BitVec.ofNat 64 a, dstCap := BitVec.ofNat 64 n }
/-- CNT = n. -/
def cnt (n : Nat) (s : State) : State := { s with cnt := BitVec.ofNat 64 n }
/-- BUF bytes from `a` on. -/
def bytes (a : Nat) (l : List Nat) (s : State) : State := s.storeBytes a (l.map (BitVec.ofNat 8))
/-- Lossy mode with quality `q`. -/
def lossy (q : Nat) (s : State) : State := { s with mode := true, quality := BitVec.ofNat 7 q }
/-- The writer just opened on (a, n). -/
def writing (a n : Nat) (s : State) : State := { s with wr := ⟨true, a, n, 0, 0#8, 0, 0⟩ }
/-- The reader just opened on (a, n) with `pad` bits of padding. -/
def reading (a n pad : Nat) (s : State) : State := { s with rd := ⟨true, a, n, 8 * n - pad, 0⟩ }
/-- A table with the given (index, entry) pairs and zeros elsewhere. -/
def table {w : Nat} (l : List (Nat × Nat)) : Vector (BitVec w) 256 :=
  l.foldl (fun c p => c.setIfInBounds p.1 (BitVec.ofNat w p.2)) (Vector.replicate 256 0#w)
/-- CLEN with the given (symbol, length) pairs and zeros elsewhere. -/
def codes (l : List (Nat × Nat)) (s : State) : State :=
  { s with clen := table l }
/-- FREQ with the given (symbol, count) pairs and zeros elsewhere. -/
def freqs (l : List (Nat × Nat)) (s : State) : State :=
  { s with freq := table l }
/-- OUT0 to OUT2. -/
def outs (s : State) : List Nat := [s.out0.toNat, s.out1.toNat, s.out2.toNat]
/-- `n` BUF bytes from `a` on. -/
def peek (s : State) (a n : Nat) : List Nat := (s.bytesAt a n).map BitVec.toNat
/-- STATUS. -/
def status (s : State) : Nat := s.statusWord.toNat
/-- BUSY with the word `w` running, the host's next action `act` landing before its end. -/
def running (w : Word64) (act : HostAction) : State :=
  { State.reset with pending := some w, lastOp := w.extractLsb' 0 8, script := [⟨act, true⟩] }
/-- Idle, the host's next action being `act`. -/
def idle (act : HostAction) : State := { State.reset with script := [⟨act, false⟩] }

/-- "aaaabbbcc" at 0 (P1). -/
def text1 : List Nat := [0x61, 0x61, 0x61, 0x61, 0x62, 0x62, 0x62, 0x63, 0x63]
/-- The code of P1: a:1, b:2, c:2. -/
def code1 : List (Nat × Nat) := [(0x61, 1), (0x62, 2), (0x63, 2)]
/-- The serialized table of P1. -/
def table1 : List Nat := [0x00, 0x03, 0x61, 0x01, 0x62, 0x02, 0x63, 0x02]
/-- "ABABABAB" (P3). -/
def text3 : List Nat := [0x41, 0x42, 0x41, 0x42, 0x41, 0x42, 0x41, 0x42]

/-! ## Well-formedness: the check of each immediate refuses a term outside R112 -/

theorem test_wellFormed_bswPut : (Instr.bswPut 64#8).wellFormed = true ∧
    (Instr.bswPut 65#8).wellFormed = false := by decide
theorem test_wellFormed_bsrGet : (Instr.bsrGet 64#8).wellFormed = true ∧
    (Instr.bsrGet 65#8).wellFormed = false := by decide
theorem test_wellFormed_bsrOpen : (Instr.bsrOpen 7#8).wellFormed = true ∧
    (Instr.bsrOpen 8#8).wellFormed = false := by decide

/-! ## Decoding: words written out from R113 -/

theorem test_decode_control_and_writer :
    decode 0x0000000000000000#64 = .ok .nop ∧ decode 0x0000000000000010#64 = .ok .bswOpen ∧
      decode 0x0000000000000311#64 = .ok (.bswPut 3#8) ∧
      decode 0x0000000000000012#64 = .ok .bswFlush := by decide
theorem test_decode_reader :
    decode 0x0000000000000418#64 = .ok (.bsrOpen 4#8) ∧
      decode 0x0000000000000919#64 = .ok (.bsrGet 9#8) ∧
      decode 0x000000000000001A#64 = .ok .bsrAlign := by decide
theorem test_decode_huffman :
    decode 0x0000000000000020#64 = .ok .hufCount ∧ decode 0x0000000000000021#64 = .ok .hufBuild ∧
      decode 0x0000000000000022#64 = .ok .hufSerial ∧
      decode 0x0000000000000023#64 = .ok .hufDeser ∧ decode 0x0000000000000024#64 = .ok .hufEnc ∧
      decode 0x0000000000000025#64 = .ok .hufDec ∧
      decode 0x000000000000FF26#64 = .ok (.hufCode 255#8) := by decide
theorem test_decode_lz :
    decode 0x0000000000000030#64 = .ok .lz77Find ∧ decode 0x0000000000000031#64 = .ok .lz77Enc ∧
      decode 0x0000000000000032#64 = .ok .lz77Dec ∧ decode 0x0000000000000038#64 = .ok .lz78Enc ∧
      decode 0x0000000000000039#64 = .ok .lz78Dec := by decide
theorem test_decode_dct :
    decode 0x0000000000000040#64 = .ok .qtGen ∧ decode 0x0000000000000041#64 = .ok .dctFwd ∧
      decode 0x0000000000000042#64 = .ok .quant ∧ decode 0x0000000000000043#64 = .ok .dequant ∧
      decode 0x0000000000000044#64 = .ok .dctInv ∧ decode 0x0000000000000045#64 = .ok .dctEnc ∧
      decode 0x0000000000000046#64 = .ok .dctDec := by decide
/-- Vectors C2 to C6 and C8. -/
theorem test_decode_illegal :
    decode 0x0000000000000001#64 = .error .unmappedOpcode ∧
      decode 0x0000000000010000#64 = .error .reservedBits ∧
      decode 0x0000000000000100#64 = .error .badImmediate ∧
      decode 0x0000000000000818#64 = .error .badImmediate ∧
      decode 0x0000000000004111#64 = .error .badImmediate ∧
      decode 0x0000000000000147#64 = .error .unmappedOpcode := by decide
theorem test_decodeTableWord :
    decodeTableWord 16 0x4019 = some (.bsrGet 64#8) ∧ decodeTableWord 16 0x4119 = none ∧
      decodeTableWord 64 0x45 = some .dctEnc := by decide

/-! ## Arithmetic (vectors A1 to A8) -/

theorem test_rdiv :
    rdiv 6 11 = 1 ∧ rdiv 5 11 = 0 ∧ rdiv (-224) 8 = -28 ∧ rdiv 4 8 = 1 ∧ rdiv (-4) 8 = -1 ∧
      rdiv (-12) 8 = -2 ∧ rdiv 11 2 = 6 ∧ rdiv (-11) 2 = -6 := by decide
theorem test_sixteen_bits :
    sat16 262136 = 32767 ∧ be16 (-28) = [0xFF#8, 0xE4#8] ∧ sbe16 0xFF#8 0xE4#8 = -28 := by decide

/-! ## One command, one step -/

/-- C1. -/
theorem test_nop : endsIn (step (State.reset.withFetchWord 64 0))
    (fun t => status t = 0x000002 ∧ outs t = [0, 0, 0]) = true := by decide +kernel
/-- C8: an illegal word. -/
theorem test_illegal : endsIn (step (State.reset.withFetchWord 64 0x147))
    (fun t => status t = 0x471004) = true := by decide +kernel
/-- B1. -/
theorem test_bswOpen : endsIn (exec .bswOpen (dst 0x300 4 State.reset))
    (fun t => t.writerBits = 0 ∧ t.bsStatWord = 0x1#64 ∧ t.wr.base = 0x300) = true := by
  decide +kernel
/-- B3, from the state B2 leaves. -/
theorem test_bswPut : endsIn (exec (.bswPut 9#8)
      { State.reset with bsData := 0x1FF#64, wr := ⟨true, 0x300, 4, 0, 5#8, 3, 0⟩ })
    (fun t => t.writerBits = 12 ∧ peek t 0x300 1 = [0xBF]) = true := by decide +kernel
/-- B15: the ninth bit does not fit. -/
theorem test_bswPut_overflow :
    endsIn (exec (.bswPut 9#8) { writing 0x300 1 State.reset with bsData := 0x1FF#64 })
      (fun t => t.errCode = 0x12#8 ∧ t.err ∧ !t.wr.isOpen ∧ !t.rd.isOpen) = true := by
  decide +kernel
/-- B4, from the state B3 leaves. -/
theorem test_bswFlush : endsIn (exec .bswFlush
      (bytes 0x300 [0xBF] { State.reset with wr := ⟨true, 0x300, 4, 1, 0xF#8, 4, 0⟩ }))
    (fun t => peek t 0x300 2 = [0xBF, 0xF0] ∧ outs t = [2, 4, 0] ∧ t.bsStatWord = 0x401#64 ∧
      t.writerBits = 16) = true := by decide +kernel
/-- B5. -/
theorem test_bsrOpen : endsIn (exec (.bsrOpen 4#8) (src 0x300 2 State.reset))
    (fun t => t.rd.stop = 12 ∧ outs t = [12, 0, 0] ∧ t.rd.isOpen) = true := by decide +kernel
/-- B17 and B18. -/
theorem test_bsrOpen_errors :
    endsIn (exec (.bsrOpen 1#8) (src 0x300 0 State.reset)) (fun t => t.errCode = 0x07#8) = true ∧
      endsIn (exec (.bsrOpen 0#8) (src 0xFFFFF 2 State.reset))
        (fun t => t.errCode = 0x11#8) = true := by decide +kernel
/-- B8. -/
theorem test_bsrGet : endsIn (exec (.bsrGet 4#8)
      (bytes 0x300 [0xBF, 0xF0] { State.reset with rd := ⟨true, 0x300, 2, 12, 8⟩ }))
    (fun t => t.bsData = 0xF#64 ∧ t.rd.pos = 12) = true := by decide +kernel
/-- B9: no bit is left; a pre-check. -/
theorem test_bsrGet_insufficient : endsIn (exec (.bsrGet 1#8)
      { State.reset with rd := ⟨true, 0x300, 2, 12, 12⟩, bsData := 0xF#64, out0 := 4#64 })
    (fun t => t.errCode = 0x08#8 ∧ t.rd.isOpen ∧ t.rd.pos = 12 ∧ t.bsData = 0xF#64 ∧
      outs t = [4, 0, 0]) = true := by decide +kernel
/-- B7. -/
theorem test_bsrAlign :
    endsIn (exec .bsrAlign { State.reset with rd := ⟨true, 0x300, 2, 12, 3⟩ })
      (fun t => t.rd.pos = 8 ∧ outs t = [5, 0, 0]) = true := by decide +kernel
/-- H1. -/
theorem test_hufCount : endsIn (exec .hufCount (src 0 9 (bytes 0 text1 State.reset)))
    (fun t => [0x60#8, 0x61#8, 0x62#8, 0x63#8].map t.freqOf = [0, 4, 3, 2] ∧
      outs t = [3, 9, 0]) = true := by decide +kernel
/-- H2. -/
theorem test_hufBuild :
    endsIn (exec .hufBuild (freqs [(0x61, 4), (0x62, 3), (0x63, 2)] State.reset))
      (fun t => [0x60#8, 0x61#8, 0x62#8, 0x63#8].map (lenOf t.clen) = [0, 1, 2, 2] ∧
        outs t = [3, 2, 0]) = true := by decide +kernel
/-- H5 with five symbols: Fibonacci counts give the longest code, and ties go by order. -/
theorem test_hufBuild_fibonacci :
    endsIn (exec .hufBuild (freqs [(0, 1), (1, 1), (2, 2), (3, 3), (4, 5)] State.reset))
      (fun t => [0#8, 1#8, 2#8, 3#8, 4#8].map (lenOf t.clen) = [4, 4, 3, 2, 1]) = true := by
  decide +kernel
/-- P1. -/
theorem test_hufSerial : endsIn (exec .hufSerial (codes code1 (writing 0x100 64 State.reset)))
    (fun t => peek t 0x100 8 = table1 ∧ outs t = [3, 64, 0]) = true := by decide +kernel
/-- P2. -/
theorem test_hufDeser :
    endsIn (exec .hufDeser (bytes 0x100 table1 (reading 0x100 8 0 State.reset)))
      (fun t => [0x61#8, 0x62#8, 0x63#8].map (lenOf t.clen) = [1, 2, 2] ∧ outs t = [3, 2, 0] ∧
        t.rd.pos = 64) = true := by decide +kernel
/-- H9 and H12: a Kraft sum above 1, and a table that stops short. -/
theorem test_hufDeser_errors :
    endsIn (exec .hufDeser (bytes 0x100 [0, 3, 0x61, 1, 0x62, 1, 0x63, 1]
        (reading 0x100 8 0 State.reset)))
      (fun t => t.errCode = 0x04#8 ∧ !t.rd.isOpen) = true ∧
      endsIn (exec .hufDeser (bytes 0x100 [0, 2, 0x61, 1] (reading 0x100 4 0 State.reset)))
        (fun t => t.errCode = 0x05#8) = true := by decide +kernel
/-- P1. -/
theorem test_hufEnc :
    endsIn (exec .hufEnc
        (src 0 9 (bytes 0 text1 (codes code1 (writing 0x108 8 State.reset)))))
      (fun t => outs t = [14, 9, 0] ∧ peek t 0x108 1 = [0x0A] ∧ t.wr.acc = 0x2F#8) = true := by
  decide +kernel
/-- H17. -/
theorem test_hufEnc_missing :
    endsIn (exec .hufEnc (src 0 3 (bytes 0 [0x61, 0x61, 0x62]
        (codes [(0x61, 1)] (writing 0x100 4 State.reset)))))
      (fun t => t.errCode = 0x14#8 ∧ !t.wr.isOpen) = true := by decide +kernel
/-- P2. -/
theorem test_hufDec :
    endsIn (exec .hufDec (cnt 9 (dst 0x200 16 (bytes 0x108 [0x0A, 0xBC]
        (codes code1 (reading 0x108 2 2 State.reset))))))
      (fun t => peek t 0x200 9 = text1 ∧ outs t = [9, 14, 0]) = true := by decide +kernel
/-- H14 and H16. -/
theorem test_hufDec_errors :
    endsIn (exec .hufDec (cnt 3 (dst 0x200 3 (bytes 0x100 [0x40]
        (codes [(0x61, 1)] (reading 0x100 1 0 State.reset))))))
      (fun t => t.errCode = 0x07#8) = true ∧
      endsIn (exec .hufDec (cnt 1 (dst 0x200 1 (reading 0x100 1 0 State.reset))))
        (fun t => t.errCode = 0x04#8 ∧ t.rd.isOpen) = true := by decide +kernel
/-- H3. -/
theorem test_hufCode :
    endsIn (exec (.hufCode 0x62#8) (codes code1 State.reset)) (fun t => outs t = [2, 2, 0]) = true ∧
      endsIn (exec (.hufCode 0x63#8) (codes code1 State.reset))
        (fun t => outs t = [3, 2, 0]) = true := by decide +kernel
/-- L1. -/
theorem test_lz77Find :
    endsIn (exec .lz77Find (cnt 2 (src 0 8 (bytes 0 text3 State.reset))))
      (fun t => outs t = [2, 6, 0]) = true ∧
      endsIn (exec .lz77Find (cnt 7 (src 0 8 (bytes 0 text3 State.reset))))
        (fun t => outs t = [2, 1, 0]) = true := by decide +kernel
/-- P3. -/
theorem test_lz77Enc :
    endsIn (exec .lz77Enc (src 0 8 (bytes 0 text3 (writing 0x100 16 State.reset))))
      (fun t => outs t = [3, 1, 0] ∧ t.writerBits = 39 ∧
        peek t 0x100 4 = [0x20, 0x90, 0xA0, 0x02]) = true := by decide +kernel
/-- P3: the match copies over its own output. -/
theorem test_lz77Dec :
    endsIn (exec .lz77Dec (cnt 8 (dst 0x200 8 (bytes 0x100 [0x20, 0x90, 0xA0, 0x02, 0x06]
        (reading 0x100 5 1 State.reset)))))
      (fun t => peek t 0x200 8 = text3 ∧ outs t = [3, 8, 0]) = true := by decide +kernel
/-- L5 and L8. -/
theorem test_lz77Dec_errors :
    endsIn (exec .lz77Dec (cnt 8 (dst 0x200 8 (bytes 0x100 [0x80, 0, 0]
        (reading 0x100 3 3 State.reset)))))
      (fun t => t.errCode = 0x06#8 ∧ !t.rd.isOpen) = true ∧
      endsIn (exec .lz77Dec (cnt 4 (dst 0x200 8 (bytes 0x100 [0x20, 0xC0, 0x00, 0x04]
          (reading 0x100 4 2 State.reset)))))
        (fun t => t.errCode = 0x07#8) = true := by decide +kernel
/-- P4. -/
theorem test_lz78Enc :
    endsIn (exec .lz78Enc (src 0 7 (bytes 0 (text3.take 7) (writing 0x100 16 State.reset))))
      (fun t => outs t = [4, 5, 0] ∧
        peek t 0x100 10 = [0x00, 0x04, 0x10, 0x00, 0x42, 0x00, 0x14, 0x20, 0x03, 0x41]) = true := by
  decide +kernel
/-- P4. -/
theorem test_lz78Dec :
    endsIn (exec .lz78Dec (cnt 7 (dst 0x200 7
        (bytes 0x100 [0x00, 0x04, 0x10, 0x00, 0x42, 0x00, 0x14, 0x20, 0x03, 0x41]
          (reading 0x100 10 0 State.reset)))))
      (fun t => peek t 0x200 7 = text3.take 7 ∧ outs t = [4, 5, 0]) = true := by decide +kernel
/-- M4. -/
theorem test_lz78Dec_index :
    endsIn (exec .lz78Dec (cnt 4 (dst 0x200 8 (bytes 0x100 [0x00, 0x14, 0x10]
        (reading 0x100 3 4 State.reset)))))
      (fun t => t.errCode = 0x06#8) = true := by decide +kernel
/-- D8. -/
theorem test_qtGen : endsIn (exec .qtGen (lossy 90 State.reset))
    (fun t => (t.qtab.toList.take 8).map BitVec.toNat = [3, 2, 2, 3, 5, 8, 10, 12] ∧
      outs t = [90, 0, 0] ∧ t.qtabQ = 90#7) = true := by decide +kernel
/-- D1, D4 and D5. -/
theorem test_qtGen_errors :
    endsIn (exec .qtGen State.reset) (fun t => t.errCode = 0x03#8) = true ∧
      endsIn (exec .qtGen (lossy 0 State.reset)) (fun t => t.errCode = 0x01#8) = true ∧
      endsIn (exec .qtGen (lossy 101 State.reset)) (fun t => t.errCode = 0x01#8) = true := by
  decide +kernel
/-- D15 with one sample in place of 65: the single byte 64 is repeated over the block. -/
theorem test_dctFwd_padding :
    endsIn (exec .dctFwd (lossy 50 (src 0 1 (dst 0x1000 128 (bytes 0 [64] State.reset)))))
      (fun t => peek t 0x1000 4 = [0xFE, 0x00, 0, 0] ∧ outs t = [128, 1, 1]) = true := by
  decide +kernel
/-- D16 with one sample: the destination is one byte too short. -/
theorem test_dctFwd_overflow :
    endsIn (exec .dctFwd (lossy 50 (src 0 1 (dst 0x1000 127 (bytes 0 [64] State.reset)))))
      (fun t => t.errCode = 0x12#8) = true := by decide +kernel
/-- P5: FF 20 quantizes to FF E4. -/
theorem test_quant :
    endsIn (exec .quant (lossy 50 (src 0x100 128 (dst 0x200 128
        (bytes 0x100 (0xFF :: 0x20 :: List.replicate 126 0) State.reset)))))
      (fun t => peek t 0x200 3 = [0xFF, 0xE4, 0] ∧ outs t = [128, 1, 0]) = true := by
  decide +kernel
/-- D18 and D19d. -/
theorem test_quant_errors :
    endsIn (exec .quant (lossy 50 (src 0 100 State.reset))) (fun t => t.errCode = 0x07#8) = true ∧
      endsIn (exec .quant (lossy 50 (src 0x1000 128 (dst 0x1000 128 State.reset))))
        (fun t => t.errCode = 0x11#8) = true := by decide +kernel
/-- D24: saturation. -/
theorem test_dequant :
    endsIn (exec .dequant (lossy 50 (src 0x100 128 (dst 0x200 128
        (bytes 0x100 (0x7F :: 0xFF :: List.replicate 126 0) State.reset)))))
      (fun t => peek t 0x200 3 = [0x7F, 0xFF, 0]) = true := by decide +kernel
/-- D23. -/
theorem test_dctInv :
    endsIn (exec .dctInv (lossy 50 (cnt 8 (src 0x100 128 (dst 0x200 8
        (bytes 0x100 (0 :: 0 :: 0 :: 100 :: List.replicate 124 0) State.reset))))))
      (fun t => peek t 0x200 8 = [145, 143, 138, 131, 125, 118, 113, 111] ∧
        outs t = [8, 1, 0]) = true := by decide +kernel
/-- D19. -/
theorem test_dctInv_truncated :
    endsIn (exec .dctInv (lossy 50 (cnt 65 (src 0x100 128 State.reset))))
      (fun t => t.errCode = 0x05#8) = true := by decide +kernel
/-- P5. -/
theorem test_dctEnc :
    endsIn (exec .dctEnc (lossy 50 (src 0 64 (dst 0x100 128
        (bytes 0 (List.replicate 64 100) State.reset)))))
      (fun t => peek t 0x100 4 = [0xFF, 0xE4, 0, 0] ∧ outs t = [128, 1, 64]) = true := by
  decide +kernel
/-- P5. -/
theorem test_dctDec :
    endsIn (exec .dctDec (lossy 50 (cnt 64 (src 0x100 128 (dst 0x200 64
        (bytes 0x100 (0xFF :: 0xE4 :: List.replicate 126 0) State.reset))))))
      (fun t => peek t 0x200 64 = List.replicate 64 100) = true := by decide +kernel

/-! ## The host -/

/-- R1 and R2. -/
theorem test_reset_registers :
    readReg .id State.reset = 0x0000140143584231#64 ∧ readReg .cfg State.reset = 0x32#64 ∧
      readReg (regAt 0x090) State.reset = 50#64 ∧ readReg (regAt 0x1800) State.reset = 8#64 ∧
      readReg (regAt 0x19F8) State.reset = 99#64 := by decide +kernel
/-- R4 and R5: W1C of DONE takes IRQ away; SRST discards IEN. -/
theorem test_status_and_srst :
    endsIn (step { idle (.write 8 0x010#32 2#64) with done := true, ien := true })
      (fun t => status t = 0 ∧ !t.irq) = true ∧
      endsIn (step { idle (.write 8 0x008#32 3#64) with done := true, ien := true })
        (fun t => t.ctrlWord = 0#64 ∧ !t.irq) = true := by decide +kernel
/-- R6: a CFG write while BUSY = 1 is dropped. -/
theorem test_busy_write : endsIn (step (running 0x20#64 (.write 8 0x020#32 0x164#64)))
    (fun t => t.cfgWord = 0x32#64 ∧ t.wbusy ∧ t.busy) = true := by decide +kernel
/-- R8 and R9: bus errors; R10: the bus is little-endian. -/
theorem test_bus :
    step (idle (.read 1 0x02000000#32)) = .refused (.busError 1 0x02000000#32) ∧
      step (idle (.read 4 0x010#32)) = .refused (.busError 4 0x010#32) ∧
      endsIn (step (bytes 0x10 [0x11, 0x22, 0x33, 0x44, 0x55, 0x66, 0x77, 0x88]
          (idle (.read 8 0x01000010#32))))
        (fun t => t.busData = 0x8877665544332211#64) = true := by
  refine ⟨rfl, rfl, by decide +kernel⟩

/-- R117: a poll while BUSY = 1 keeps the loop, and one while BUSY = 0 ends it. -/
theorem test_wait :
    endsIn (step (running 0x20#64 (.wait 2)))
      (fun t => t.script = [⟨.wait 1, true⟩] ∧ t.busData = 0x200001#64 ∧ t.busy) = true ∧
      endsIn (step (idle (.wait 2))) (fun t => t.script = [] ∧ t.busData = 0#64) = true := by
  decide +kernel
/-- R116, R117: `BSW_PUT 12` is `WR CMD, 0xC11` and its `WAIT`; `EXPECT` performs no access. -/
theorem test_script_command :
    expandScript [⟨.command (.bswPut 12#8) 1, 0⟩, ⟨.expect .out0 12#64, 0⟩, ⟨.rd .out0, 0⟩] =
      [⟨.write 8 0x018#32 0xC11#64, false⟩, ⟨.wait 1, true⟩, ⟨.read 8 0x058#32, false⟩] := by
  decide
/-- R117: `WRS 0x10, "AB"` is `WRB 0x10, 0x41 0x42`. -/
theorem test_script_wrs :
    expandScript [⟨.wrs 0x10 "AB", 0⟩] =
      [⟨.write 1 0x01000010#32 0x41#64, false⟩, ⟨.write 1 0x01000011#32 0x42#64, false⟩] := by
  simp [expandScript, ScriptLine.expand, landEarly, ScriptStmt.expand, scriptWrs, scriptWrb,
    plainEvent, Config.bufBase]
/-- R6: `WR CMD, 0x20`, then `WR CFG, 0x164` while the command runs, then its `WAIT`. -/
theorem test_script_early :
    expandScript [⟨.wr .cmd 0x20#64, 0⟩, ⟨.wr .cfg 0x164#64, 1⟩, ⟨.wait 0, 0⟩] =
      [⟨.write 8 0x018#32 0x20#64, false⟩, ⟨.write 8 0x020#32 0x164#64, true⟩,
        ⟨.wait 0, false⟩] := by
  decide

/-! ## Witnesses: for each statement with hypotheses, a state and operands that meet them all, and
one for each clause, at the values where clauses meet -/

theorem witness_DecodeEncodeAgree :
    (Instr.bsrGet 64#8).wellFormed = true ∧ decode 0x4019#64 = .ok (.bsrGet 64#8) := by decide

theorem witness_LegalWordsDecode :
    LegalWord 0x4019#64 ∧ ¬LegalWord 0x4119#64 ∧ LegalWord 0x0718#64 ∧ ¬LegalWord 0x0818#64 ∧
      LegalWord 0xFF26#64 ∧ ¬LegalWord 0x10000#64 := by
  simp only [LegalWord, LegalImm, immFreeOpcodes]; decide

theorem witness_IllegalWordEndsWithError :
    (State.reset.withFetchWord 64 0x47).pending = some 0x47#64 ∧
      (State.reset.withFetchWord 64 0x47).hostWaits = true ∧ ¬LegalWord 0x47#64 := by
  refine ⟨rfl, rfl, ?_⟩
  simp only [LegalWord, LegalImm, immFreeOpcodes]; decide

theorem witness_StepRunsPendingCommand :
    (State.reset.withFetchWord 64 0x4019).pending = some 0x4019#64 ∧
      (State.reset.withFetchWord 64 0x4019).hostWaits = true ∧
      decode 0x4019#64 = .ok (.bsrGet 64#8) ∧
      HostActsNext (idle .sampleIrq) .sampleIrq [] ∧
      HostActsNext (running 0x20#64 .sampleIrq) .sampleIrq [] ∧
      State.reset.pending = none ∧ State.reset.script = [] :=
  ⟨rfl, rfl, by decide, ⟨false, rfl, .inl rfl⟩, ⟨true, rfl, .inr rfl⟩, rfl, rfl⟩

theorem witness_CmdWriteIssuesCommand :
    (idle (.write 8 0x018#32 0x20#64)).pending = none ∧
      HostActsNext (idle (.write 8 0x018#32 0x20#64)) (.write 8 0x018#32 0x20#64) [] ∧
      (running 0x21#64 (.write 8 0x018#32 0x20#64)).pending ≠ none ∧
      HostActsNext (running 0x21#64 (.write 8 0x018#32 0x20#64)) (.write 8 0x018#32 0x20#64) [] :=
  ⟨rfl, ⟨false, rfl, .inl rfl⟩, by simp [running], ⟨true, rfl, .inr rfl⟩⟩

theorem witness_BusyWritesAreDropped :
    (running 0x20#64 (.write 1 0x010FFFFF#32 1#64)).pending ≠ none ∧
      HostActsNext (running 0x20#64 (.write 1 0x010FFFFF#32 1#64)) (.write 1 0x010FFFFF#32 1#64)
        [] ∧
      ValidAccess (running 0x20#64 (.write 1 0x010FFFFF#32 1#64)) 1 0x010FFFFF#32 ∧
      0x010FFFFF#32 ≠ 0x008#32 ∧
      (running 0x20#64 (.write 8 0x008#32 1#64)).pending ≠ none ∧
      HostActsNext (running 0x20#64 (.write 8 0x008#32 1#64)) (.write 8 0x008#32 1#64) [] ∧
      (1#64).getLsbD 1 = false := by
  refine ⟨by simp [running], ⟨true, rfl, .inr rfl⟩, ?_, by decide, by simp [running],
    ⟨true, rfl, .inr rfl⟩, by decide⟩
  simp only [ValidAccess]; decide

/-- Also at the offsets next to ID, STATUS and CTRL. -/
theorem witness_BusyReadsChangeNothing : ∀ addr ∈ [0x000#32, 0x008#32, 0x010#32, 0x018#32],
    (running 0x20#64 (.read 8 addr)).pending ≠ none ∧
      HostActsNext (running 0x20#64 (.read 8 addr)) (.read 8 addr) [] ∧
      ValidAccess (running 0x20#64 (.read 8 addr)) 8 addr := by
  intro addr ha
  refine ⟨by simp [running], ⟨true, rfl, .inr rfl⟩, ?_⟩
  simp only [List.mem_cons, List.not_mem_nil, or_false] at ha
  rcases ha with rfl | rfl | rfl | rfl <;> simp [ValidAccess]

/-- The last byte of BUF and the first address past it, a register's width, and alignment. -/
theorem witness_BadAccessesAreRefused :
    HostActsNext (idle (.read 1 0x010FFFFF#32)) (.read 1 0x010FFFFF#32) [] ∧
      HostActsNext (idle (.write 1 0x01100000#32 0#64)) (.write 1 0x01100000#32 0#64) [] ∧
      ValidAccess State.reset 1 0x010FFFFF#32 ∧ ¬ValidAccess State.reset 1 0x01100000#32 ∧
      ValidAccess State.reset 8 0x00FFFFF8#32 ∧ ¬ValidAccess State.reset 4 0x00FFFFF8#32 ∧
      ¬ValidAccess State.reset 2 0x01000001#32 ∧ ¬ValidAccess State.reset 3 0x01000000#32 := by
  refine ⟨⟨false, rfl, .inl rfl⟩, ⟨false, rfl, .inl rfl⟩, ?_⟩
  simp only [ValidAccess]; decide

/-- The whole-word access that ends at the last byte of BUF. -/
theorem witness_HostBufWriteReadsBack :
    ∃ s : State, s.pending = none ∧
      s.script = [⟨.write 8 0x010FFFF8#32 0x1122#64, false⟩, ⟨.read 8 0x010FFFF8#32, false⟩] ∧
      ValidAccess s 8 0x010FFFF8#32 ∧ 0x01000000 ≤ (0x010FFFF8#32).toNat := by
  refine ⟨{ State.reset with script :=
    [⟨.write 8 0x010FFFF8#32 0x1122#64, false⟩, ⟨.read 8 0x010FFFF8#32, false⟩] },
    rfl, rfl, ?_, by decide⟩
  simp only [ValidAccess]; decide

/-- One address of each clause, at both ends of each range. -/
theorem witness_HostRegisterWrites :
    (∀ addr : Offset, ∀ v : Word64, (idle (.write 8 addr v)).pending = none ∧
      HostActsNext (idle (.write 8 addr v)) (.write 8 addr v) []) ∧
      (∀ a ∈ [0x028#32, 0x050#32, 0x800#32, 0xFF8#32], a.toNat < 0x01000000 ∧ a.toNat % 8 = 0 ∧
        (0x028 ≤ a.toNat ∧ a.toNat ≤ 0x050 ∨ 0x800 ≤ a.toNat ∧ a.toNat < 0x1000)) ∧
      (∀ a ∈ [0x000#32, 0x058#32, 0x7F8#32, 0x1000#32, 0xFFFFF8#32],
        a.toNat < 0x01000000 ∧ a.toNat % 8 = 0 ∧
          (a = 0x000#32 ∨ 0x058 ≤ a.toNat ∧ a.toNat < 0x800 ∨ 0x1000 ≤ a.toNat)) ∧
      (∀ a ∈ [0x008#32, 0x010#32, 0x020#32, 0x030#32, 0x038#32, 0x040#32, 0x048#32],
        a.toNat < 0x01000000 ∧ a.toNat % 8 = 0) ∧
      (0x800#32).toNat = 0x800 + 8 * 0 ∧ (0xFF8#32).toNat = 0x800 + 8 * 255 ∧
      (1#64).getLsbD 1 = false :=
  ⟨fun _ _ => ⟨rfl, false, rfl, .inl rfl⟩, by simp, by simp, by simp, by decide,
    by decide, by decide⟩

/-- A register read at both ends of the map; looks at IRQ while idle and while a command runs. -/
theorem witness_RegisterMapAndLayouts :
    (∀ addr : Offset, (idle (.read 8 addr)).pending = none ∧
      HostActsNext (idle (.read 8 addr)) (.read 8 addr) []) ∧
      (0x000#32).toNat % 8 = 0 ∧ (0xFFFFF8#32).toNat < 0x01000000 ∧
      (0xFFFFF8#32).toNat % 8 = 0 ∧
      HostActsNext (idle .sampleIrq) .sampleIrq [] ∧
      HostActsNext (running 0x20#64 .sampleIrq) .sampleIrq [] :=
  ⟨fun _ => ⟨rfl, false, rfl, .inl rfl⟩, by decide, by decide, by decide, ⟨false, rfl, .inl rfl⟩,
    ⟨true, rfl, .inr rfl⟩⟩

/-- Idle, and with a command running. -/
theorem witness_ResetValues :
    HostActsNext (idle .powerOn) .powerOn [] ∧
      HostActsNext (running 0x31#64 .powerOn) .powerOn [] :=
  ⟨⟨false, rfl, .inl rfl⟩, ⟨true, rfl, .inr rfl⟩⟩

/-- Idle, and with a command running; a byte that is no output byte of the aborted command. -/
theorem witness_SoftResetRestoresState :
    HostActsNext (idle (.write 8 0x008#32 2#64)) (.write 8 0x008#32 2#64) [] ∧
      HostActsNext (running 0x31#64 (.write 8 0x008#32 2#64)) (.write 8 0x008#32 2#64) [] ∧
      (2#64).getLsbD 1 = true ∧ ¬AbortedByte (running 0x31#64 (.write 8 0x008#32 2#64)) 5 := by
  refine ⟨⟨false, rfl, .inl rfl⟩, ⟨true, rfl, .inr rfl⟩, by decide, ?_⟩
  rintro ⟨c, i, hc, hi, h⟩
  cases hc
  cases hi
  rcases h with ⟨hi, -⟩ | ⟨-, h, -⟩
  · exact absurd hi (by decide)
  · exact absurd h (by decide)

/-- Both streams open on the last bytes of BUF. -/
theorem witness_EveryCommandEnds :
    (writing 0xFFFFF 1 (reading 0xFFFFE 1 7 State.reset)).StreamsInBuf := by
  unfold State.StreamsInBuf; decide +kernel

/-- One command for each of the three ends. -/
theorem witness_ErrorsAreAsTabled :
    State.reset.WriterOk ∧ (writing 0xFFFFF 1 State.reset).WriterOk ∧
      (∃ t, exec .nop State.reset = .next t ∧ decide (t.done = true) = true) ∧
      (∃ t, exec .hufEnc State.reset = .next t ∧ decide (t.errCode = 0x13#8) = true) ∧
      ∃ t, exec (.bswPut 9#8) (writing 0xFFFFF 1 State.reset) = .next t ∧
        decide (t.errCode = 0x12#8) = true := by
  refine ⟨?_, ?_, endsIn_next (by decide +kernel), endsIn_next (by decide +kernel),
    endsIn_next (by decide +kernel)⟩ <;> unfold State.WriterOk <;> decide +kernel

/-- A command that writes nothing but STATUS and OUT, and an address next to an output range. -/
theorem witness_CommandsWriteOnlyTheirState :
    (∃ t, exec .nop State.reset = .next t ∧ decide (t.err = false) = true) ∧
      outputRange .dctFwd (dst 0x200 8 State.reset) = some (0x200, 8) ∧
      ¬(0x200 ≤ 0x208 ∧ 0x208 < 0x200 + 8) :=
  ⟨endsIn_next (by decide +kernel), by decide +kernel, by decide⟩

/-- Each pre-check of each group failing while those before it pass. -/
theorem witness_PreChecksInOrder :
    (¬SourceInBuf (src 0xFFFFF 2 (writing 0 1 State.reset)) ∧
      (src 0xFFFFF 2 (writing 0 1 State.reset)).wr.isOpen = true) ∧
    (∃ s, s.wr.isOpen = true ∧ SourceInBuf s ∧
      Overlapping s.srcAddr.toNat s.srcLen.toNat s.wr.base s.wr.cap) ∧
    (∃ s, s.rd.isOpen = true ∧ ¬DestInBuf s) ∧
    (∃ s, s.rd.isOpen = true ∧ DestInBuf s ∧
      Overlapping s.dstAddr.toNat s.dstCap.toNat s.rd.base s.rd.len) ∧
    (∃ s, s.rd.isOpen = true ∧ DestInBuf s ∧
      ¬Overlapping s.dstAddr.toNat s.dstCap.toNat s.rd.base s.rd.len ∧
      s.dstCap.toNat < s.cnt.toNat) ∧
    (∃ s, s.mode = true ∧ ¬SourceInBuf s) ∧ (∃ s, s.mode = true ∧ SourceInBuf s ∧ ¬DestInBuf s) ∧
    ∃ s, s.mode = true ∧ SourceInBuf s ∧ DestInBuf s ∧
      Overlapping s.srcAddr.toNat s.srcLen.toNat s.dstAddr.toNat s.dstCap.toNat := by
  unfold SourceInBuf DestInBuf Overlapping
  exact ⟨by decide +kernel, ⟨src 7 1 (writing 7 1 State.reset), by decide +kernel⟩,
    ⟨dst 0x100000 1 (reading 0 1 0 State.reset), by decide +kernel⟩,
    ⟨dst 0 2 (reading 1 1 0 State.reset), by decide +kernel⟩,
    ⟨cnt 3 (dst 0 2 (reading 2 1 0 State.reset)), by decide +kernel⟩,
    ⟨lossy 50 (src 0x100001 0 State.reset), by decide +kernel⟩,
    ⟨lossy 50 (dst 0x100001 0 State.reset), by decide +kernel⟩,
    ⟨lossy 50 (src 5 1 (dst 5 1 State.reset)), by decide +kernel⟩⟩

theorem witness_ModeMattersOnlyToDct : Instr.lz77Enc ∉ dctFamily := by decide

/-- A script's command, whose WAIT polls twice before its end. -/
theorem witness_EngineBecomesIdle_script :
    Instr.nop.wellFormed = true ∧ State.reset.pending = none ∧
      ({ State.reset with script := scriptCmd .nop 2 ++ [plainEvent .sampleIrq] } :
        State).StreamsInBuf := by
  refine ⟨rfl, rfl, ?_⟩
  unfold State.StreamsInBuf; decide +kernel

/-- A command is running, and before its end the host reads STATUS and begins to wait. -/
theorem witness_EngineBecomesIdle :
    ∃ s : State, s.StreamsInBuf ∧ (∀ e ∈ s.script, ValidAction s e.act) ∧ s.pending ≠ none ∧
      s.script.length = 2 := by
  refine ⟨{ State.reset with pending := some 0x20#64, script :=
    [⟨.read 8 0x010#32, true⟩, ⟨.wait 3, true⟩] }, ?_, ?_, by simp, rfl⟩
  · unfold State.StreamsInBuf; decide +kernel
  · intro e he
    simp only [List.mem_cons, List.not_mem_nil, or_false] at he
    rcases he with rfl | rfl
    · simp only [ValidAction, ValidAccess]; decide
    · trivial

/-- A state that meets every invariant, with both streams open, from which a step goes on. -/
theorem witness_invariants_kept :
    ∃ s : State, s.BufOk ∧ s.WriterOk ∧ s.ReaderOk ∧ s.StatusOk ∧ s.QtabOk ∧ s.KraftOk ∧
      s.wr.isOpen = true ∧ s.rd.isOpen = true ∧ s.buf ≠ [] ∧
      ∃ t, step s = .next t ∧ decide (t.done = true) = true := by
  refine ⟨(bytes 0xFFFFE [1, 2] (writing 0xFFFFF 1
    (reading 0xFFFFE 1 7 State.reset))).withFetchWord 64 0x12, ?_, ?_, ?_, ?_, ?_, ?_, rfl, rfl,
    by decide +kernel, endsIn_next (by decide +kernel)⟩
  · unfold State.BufOk; decide +kernel
  · unfold State.WriterOk; decide +kernel
  · unfold State.ReaderOk; decide +kernel
  · refine ⟨by decide +kernel, by decide +kernel, by decide +kernel, ?_⟩
    intro c hc
    cases hc
    decide +kernel
  · unfold State.QtabOk; decide +kernel
  · unfold State.KraftOk; decide +kernel

theorem witness_IdentityNeverChanges :
    ∃ t, step State.reset = .next t ∧ decide (t.pending = none) = true :=
  endsIn_next (by decide +kernel)

/-- The words next to the word 0 that have NOP's opcode. -/
theorem witness_NopOnlyEnds :
    (State.reset.withFetchWord 64 0x100).pending = some 0x100#64 ∧
      (State.reset.withFetchWord 64 0x100).hostWaits = true ∧ (0x100#64).toNat % 256 = 0 ∧
      0x100#64 ≠ 0#64 ∧ (0x10000#64).toNat % 256 = 0 :=
  ⟨rfl, rfl, by decide, by decide, by decide⟩

/-- The last byte of BUF, and one byte past it. -/
theorem witness_BswOpenOpensWriter :
    DestInBuf (dst 0xFFFFF 1 State.reset) ∧ ¬DestInBuf (dst 0xFFFFF 2 State.reset) := by
  unfold DestInBuf; decide +kernel

/-- Just enough room for 64 bits, and one bit too little. -/
theorem witness_BswPutAppendsBits :
    (64#8).toNat ≤ 64 ∧ WriterHasRoom (writing 0xFFFF8 8 State.reset) (64#8).toNat ∧
      (writing 0xFFFFF 1 State.reset).StreamsInBuf ∧
      8 * (writing 0xFFFFF 1 State.reset).wr.cap <
        8 * (writing 0xFFFFF 1 State.reset).wr.cnt +
          (writing 0xFFFFF 1 State.reset).wr.nb.val + (9#8).toNat ∧
      64 < (65#8).toNat ∧ State.reset.wr.isOpen = false := by
  unfold WriterHasRoom State.StreamsInBuf; decide +kernel

/-- Seven pending bits in the last byte. -/
theorem witness_BswFlushPadsWithZeros :
    WriterHasRoom { State.reset with wr := ⟨true, 0xFFFFE, 2, 1, 0x7F#8, 7, 0⟩ } 0 ∧
      State.reset.wr.isOpen = false := by
  unfold WriterHasRoom; decide +kernel

theorem witness_BsrOpenOpensReader :
    (7#8).toNat ≤ 7 ∧ 7 < (8#8).toNat ∧ SourceInBuf (src 0xFFFFF 1 State.reset) ∧
      (7#8).toNat ≤ 8 * (src 0xFFFFF 1 State.reset).srcLen.toNat ∧
      ¬SourceInBuf (src 0xFFFFF 2 State.reset) ∧ SourceInBuf (src 0x100000 0 State.reset) ∧
      8 * (src 0x100000 0 State.reset).srcLen.toNat < (1#8).toNat := by
  unfold SourceInBuf; decide +kernel

/-- Four bits up to R.end, and one bit too many. -/
theorem witness_BsrGetReadsBits :
    ∃ s : State, ReaderInBuf s ∧ [true, false, true, true].length = (4#8).toNat ∧
      NextBitsAre s [true, false, true, true] ∧ s.rd.stop < s.rd.pos + (5#8).toNat ∧
      (64#8).toNat ≤ 64 ∧ 64 < (65#8).toNat ∧ State.reset.rd.isOpen = false := by
  refine ⟨bytes 0x100 [0x0B] { State.reset with rd := ⟨true, 0x100, 1, 8, 4⟩ }, ?_⟩
  unfold ReaderInBuf NextBitsAre; decide +kernel

/-- Inside the padded final byte, where R.end is the target, and at R.end itself. -/
theorem witness_BsrAlignSkips :
    (∃ s : State, s.ReaderOk ∧ s.rd.isOpen = true ∧ s.rd.pos ≤ s.rd.stop ∧
      s.rd.stop < 8 * ((s.rd.pos + 7) / 8)) ∧
      (∃ s : State, s.ReaderOk ∧ s.rd.isOpen = true ∧ s.rd.pos = s.rd.stop) ∧
      State.reset.rd.isOpen = false := by
  refine ⟨⟨{ State.reset with rd := ⟨true, 0x100, 2, 12, 9⟩ }, ?_⟩,
    ⟨{ State.reset with rd := ⟨true, 0x100, 2, 12, 12⟩ }, ?_⟩, rfl⟩ <;>
  · unfold State.ReaderOk; decide +kernel

/-- A source that ends at the last byte of BUF. -/
theorem witness_HufCountCounts : SourceInBuf (src 0xFFFFE 2 State.reset) ∧
    ¬SourceInBuf (src 0xFFFFF 2 State.reset) := by
  unfold SourceInBuf; decide +kernel

/-- No symbol, one symbol, and two. -/
theorem witness_HufBuildLengths :
    symbolCount State.reset = 0 ∧ symbolCount (freqs [(7, 3)] State.reset) = 1 ∧
      symbolCount (freqs [(7, 3), (9, 1)] State.reset) = 2 := by decide +kernel

theorem witness_HufBuildKraftEquality :
    2 ≤ symbolCount (freqs [(7, 3), (9, 1)] State.reset) ∧
      ∃ t, exec .hufBuild (freqs [(7, 3), (9, 1)] State.reset) = .next t ∧
        decide (t.done = true) = true :=
  ⟨by decide +kernel, endsIn_next (by decide +kernel)⟩

theorem witness_HufBuildMonotone :
    (∃ t, exec .hufBuild (freqs [(7, 3), (9, 1)] State.reset) = .next t ∧
      decide (t.done = true) = true) ∧
      0 < (freqs [(7, 3), (9, 1)] State.reset).freqOf 9#8 ∧
      (freqs [(7, 3), (9, 1)] State.reset).freqOf 9#8 <
        (freqs [(7, 3), (9, 1)] State.reset).freqOf 7#8 :=
  ⟨endsIn_next (by decide +kernel), by decide +kernel, by decide +kernel⟩

/-- Two coded symbols and exactly their 48 bits of room. -/
theorem witness_HufSerialAppendsTable :
    ∃ s : State, WriterHasRoom s
      (16 + 16 * (allBytes.filter fun b => decide (0 < lenOf s.clen b)).length) ∧
        s.clen = (codes [(0x61, 1), (0x62, 1)] State.reset).clen := by
  refine ⟨codes [(0x61, 1), (0x62, 1)] (writing 0xFFFFA 6 State.reset), ?_, rfl⟩
  unfold WriterHasRoom; decide +kernel

/-- The same with one byte of room less. -/
theorem witness_HufSerialAppendsTable_lacks :
    State.reset.wr.isOpen = false ∧ ∃ s : State, WriterLacks s
      (16 + 16 * (allBytes.filter fun b => decide (0 < lenOf s.clen b)).length) ∧
        s.clen = (codes [(0x61, 1), (0x62, 1)] State.reset).clen := by
  refine ⟨rfl, codes [(0x61, 1), (0x62, 1)] (writing 0xFFFFB 5 State.reset), ?_, rfl⟩
  unfold WriterLacks WriterHasRoom; decide +kernel

/-- A table that meets the Kraft inequality with equality, and one that breaks it. -/
theorem witness_HufDeserReadsSerializedTable :
    (∃ s : State, ∃ c, ReaderInBuf s ∧ NextBitsAre s (tableBits c) ∧ kraftSum c = 2 ^ 255) ∧
      ∃ s : State, ∃ c, ReaderInBuf s ∧ NextBitsAre s (tableBits c) ∧ 2 ^ 255 < kraftSum c := by
  unfold ReaderInBuf NextBitsAre
  exact ⟨⟨bytes 0x100 table1 (reading 0x100 8 0 State.reset), (codes code1 State.reset).clen,
      by decide +kernel⟩,
    ⟨bytes 0x100 [0, 3, 0x61, 1, 0x62, 1, 0x63, 1] (reading 0x100 8 0 State.reset),
      (codes [(0x61, 1), (0x62, 1), (0x63, 1)] State.reset).clen, by decide +kernel⟩⟩

/-- K = 257 (H8); a symbol that does not ascend (H10) and a length 0 (H11); a stream that ends in
the count, and one that ends in the second pair (H12). -/
theorem witness_HufDeserReadsSerializedTable_errors :
    State.reset.rd.isOpen = false ∧
      (∃ s, ReaderInBuf s ∧ NextBitsAre s (bitsOf 257 16)) ∧
      (∃ s ps p, ReaderInBuf s ∧ ps.length < 2 ∧ LegalPairs ps ∧ BadPair ps p ∧
        NextBitsAre s (bitsOf 2 16 ++ pairBits (ps ++ [p]))) ∧
      (∃ s p, ReaderInBuf s ∧ LegalPairs [] ∧ BadPair [] p ∧
        NextBitsAre s (bitsOf 1 16 ++ pairBits [p])) ∧
      (∃ s, ReaderInBuf s ∧ s.rd.stop < s.rd.pos + 16) ∧
      ∃ s, ∃ ps, ReaderInBuf s ∧ ps.length = 1 ∧ LegalPairs ps ∧
        NextBitsAre s (bitsOf 2 16 ++ pairBits ps) ∧ s.rd.stop < s.rd.pos + (16 + 16 * 2) := by
  unfold ReaderInBuf NextBitsAre
  exact ⟨rfl, ⟨bytes 0x100 [1, 1] (reading 0x100 2 0 State.reset), by decide +kernel⟩,
    ⟨bytes 0x100 [0, 2, 0x62, 1, 0x61, 1] (reading 0x100 6 0 State.reset), [(0x62#8, 1#8)],
      (0x61#8, 1#8), by decide +kernel, by decide, by simp [LegalPairs], by simp [BadPair],
      by decide +kernel⟩,
    ⟨bytes 0x100 [0, 1, 0x61, 0] (reading 0x100 4 0 State.reset), (0x61#8, 0#8),
      by decide +kernel, by simp [LegalPairs], by simp [BadPair], by decide +kernel⟩,
    ⟨reading 0x100 2 1 State.reset, by decide +kernel⟩,
    ⟨bytes 0x100 [0, 2, 0x61, 1, 0x62] (reading 0x100 5 0 State.reset), [(0x61#8, 1#8)],
      by decide +kernel, rfl, by simp [LegalPairs], by decide +kernel, by decide +kernel⟩⟩

theorem witness_CanonicalCodes :
    kraftSum (codes code1 State.reset).clen ≤ 2 ^ 255 ∧ 0x61#8 ≠ 0x62#8 ∧
      0 < lenOf (codes code1 State.reset).clen 0x61#8 ∧
      0 < lenOf (codes code1 State.reset).clen 0x62#8 := by decide +kernel

/-- Three source bytes and exactly the room for their codes; and a byte with no code. -/
theorem witness_HufEncAppendsCodes :
    (∃ s : State, EncoderReady s ∧
      (∀ b ∈ s.bytesAt s.srcAddr.toNat s.srcLen.toNat, 0 < lenOf s.clen b) ∧
      s.srcLen.toNat = 3 ∧ WriterHasRoom s
        ((s.bytesAt s.srcAddr.toNat s.srcLen.toNat).flatMap (codeBits s.clen)).length) ∧
      ∃ s : State, ∃ xs b ys, s.bytesAt s.srcAddr.toNat s.srcLen.toNat = xs ++ b :: ys ∧
        EncoderReady s ∧ (∀ x ∈ xs, 0 < lenOf s.clen x) ∧ lenOf s.clen b = 0 ∧
        WriterHasRoom s (xs.flatMap (codeBits s.clen)).length := by
  unfold EncoderReady SourceInBuf Overlapping WriterHasRoom
  exact ⟨⟨src 0 3 (bytes 0 [0x61, 0x62, 0x63] (codes code1
        { writing 3 1 State.reset with wr := ⟨true, 3, 1, 0, 1#8, 3, 0⟩ })), by decide +kernel⟩,
    ⟨src 0 2 (bytes 0 [0x61, 0x64] (codes code1 (writing 3 1 State.reset))), [0x61#8], 0x64#8, [],
      by decide +kernel⟩⟩

/-- The code of one byte fits, and with the next it does not. -/
theorem witness_HufEncAppendsCodes_lacks :
    ∃ s : State, ∃ xs ys, s.bytesAt s.srcAddr.toNat s.srcLen.toNat = xs ++ ys ∧ EncoderReady s ∧
      (∀ x ∈ xs, 0 < lenOf s.clen x) ∧
      WriterLacks s (xs.flatMap (codeBits s.clen)).length := by
  unfold EncoderReady SourceInBuf Overlapping WriterLacks WriterHasRoom
  exact ⟨src 0 3 (bytes 0 [0x61, 0x62, 0x64] (codes code1
      { State.reset with wr := ⟨true, 3, 1, 0, 1#8, 6, 0⟩ })), [0x61#8, 0x62#8], [0x64#8],
    by decide +kernel⟩

/-- H14: after one byte a bit that begins no code of the incomplete code; the same of a code of two
bits whose second is missing; and the empty code (H16). -/
theorem witness_HufDecInvertsHufEnc_errors :
    (∃ s : State, kraftSum s.clen ≤ 2 ^ 255 ∧ DecoderReady s ∧ ReaderInBuf s ∧
      [0x61#8].length < s.cnt.toNat ∧ LargestLen s.clen 1 ∧ NoCodeBegins s.clen [true] ∧
      NextBitsAre s ([0x61#8].flatMap (codeBits s.clen) ++ [true])) ∧
      (∃ s : State, kraftSum s.clen ≤ 2 ^ 255 ∧ DecoderReady s ∧ ReaderInBuf s ∧
        [0x61#8].length < s.cnt.toNat ∧ LargestLen s.clen 2 ∧ NoCodeBegins s.clen [true] ∧
        LastBitsAre s ([0x61#8].flatMap (codeBits s.clen) ++ [true])) ∧
      ∃ s : State, DecoderReady s ∧ s.cnt ≠ 0#64 ∧ s.clen = Vector.replicate 256 0#8 := by
  have small : ∀ c : Vector Byte 256, ∀ w, (allBytes.all fun b =>
      lenOf c b = 0 || !(codeBits c b).isPrefixOf w) = true → NoCodeBegins c w := by
    intro c w h b hb hp
    have hm : b ∈ allBytes := by
      simp only [allBytes, List.mem_map, List.mem_range]
      exact ⟨b.toNat, b.isLt, by simp⟩
    have := List.all_eq_true.1 h b hm
    rw [List.isPrefixOf_iff_prefix.2 hp] at this
    simp [Nat.pos_iff_ne_zero.1 hb] at this
  have largest : ∀ c : Vector Byte 256, ∀ m, 0 < m → (allBytes.all fun b => lenOf c b ≤ m) = true →
      (allBytes.any fun b => lenOf c b = m) = true → LargestLen c m := by
    intro c m h0 h1 h2
    refine ⟨h0, fun b => ?_, ?_⟩
    · have hm : b ∈ allBytes := by
        simp only [allBytes, List.mem_map, List.mem_range]
        exact ⟨b.toNat, b.isLt, by simp⟩
      exact of_decide_eq_true (List.all_eq_true.1 h1 b hm)
    · obtain ⟨b, -, hb⟩ := List.any_eq_true.1 h2
      exact ⟨b, of_decide_eq_true hb⟩
  unfold LastBitsAre DecoderReady DestInBuf Overlapping ReaderInBuf NextBitsAre
  refine ⟨⟨cnt 2 (dst 0x200 2 (bytes 0x100 [0x40] (codes [(0x61, 1)]
      (reading 0x100 1 0 State.reset)))), by decide +kernel, by decide +kernel, by decide +kernel,
      by decide +kernel, largest _ _ (by decide) (by decide +kernel) (by decide +kernel),
      small _ _ (by decide +kernel), by decide +kernel⟩,
    ⟨cnt 2 (dst 0x200 2 (bytes 0x100 [0x40] (codes code1
      (reading 0x100 1 6 State.reset)))), by decide +kernel, by decide +kernel, by decide +kernel,
      by decide +kernel, largest _ _ (by decide) (by decide +kernel) (by decide +kernel),
      small _ _ (by decide +kernel), by decide +kernel⟩,
    ⟨cnt 1 (dst 0x200 1 (reading 0x100 1 0 State.reset)), by decide +kernel, by decide +kernel,
      rfl⟩⟩

/-- Two bytes decoded from three bits. -/
theorem witness_HufDecInvertsHufEnc :
    ∃ s : State, kraftSum s.clen ≤ 2 ^ 255 ∧ DecoderReady s ∧ ReaderInBuf s ∧
      [0x61#8, 0x63#8].length = s.cnt.toNat ∧ (∀ b ∈ [0x61#8, 0x63#8], 0 < lenOf s.clen b) ∧
      NextBitsAre s ([0x61#8, 0x63#8].flatMap (codeBits s.clen)) := by
  unfold DecoderReady DestInBuf Overlapping ReaderInBuf NextBitsAre
  exact ⟨cnt 2 (dst 0x101 2 (bytes 0x100 [0x60] (codes code1 (reading 0x100 1 5 State.reset)))),
    by decide +kernel⟩

theorem witness_HufCodeReports :
    0 < lenOf (codes code1 State.reset).clen 0x61#8 ∧
      lenOf (codes code1 State.reset).clen 0x64#8 = 0 := by decide +kernel

theorem witness_Lz77FindLongest : SourceInBuf (cnt 1 (src 0xFFFFE 2 State.reset)) ∧
    ¬SourceInBuf (cnt 1 (src 0xFFFFF 2 State.reset)) := by
  unfold SourceInBuf; decide +kernel

/-- One source byte just below the writer's range; the worst case of the token size fits. -/
theorem witness_LzEncTokensExpand :
    EncoderReady (src 0 1 (writing 1 3 State.reset)) ∧
      WriterHasRoom (src 0 1 (writing 1 3 State.reset))
        (9 * (src 0 1 (writing 1 3 State.reset)).srcLen.toNat) ∧
      WriterHasRoom (src 0 1 (writing 1 3 State.reset))
        (20 * (src 0 1 (writing 1 3 State.reset)).srcLen.toNat) := by
  unfold EncoderReady SourceInBuf Overlapping WriterHasRoom; decide +kernel

/-- The greedy tokens of the one source byte, and a writer with room for 8 bits only. -/
theorem witness_LzEncTokensExpand_lacks :
    (src 0 1 (bytes 0 [0x41] (writing 1 1 State.reset))).bytesAt 0 1 = [0x41#8] ∧
      EncoderReady (src 0 1 (bytes 0 [0x41] (writing 1 1 State.reset))) ∧
      Greedy77 [0x41#8] [.literal 0x41#8] 0 ∧ Greedy78 [(0, 0x41#8)] [0x41#8] [[]] ∧
      WriterHasRoom (src 0 1 (writing 1 3 State.reset)) (20 * 1) ∧
      WriterLacks (src 0 1 (bytes 0 [0x41] (writing 1 1 State.reset))) 9 ∧
      WriterLacks (src 0 1 (bytes 0 [0x41] (writing 1 1 State.reset))) (20 * 1) := by
  unfold EncoderReady SourceInBuf Overlapping WriterLacks WriterHasRoom
  refine ⟨by decide +kernel, by decide +kernel, ?_, ?_, by decide +kernel, by decide +kernel,
    by decide +kernel⟩
  · refine ⟨rfl, ⟨0, 0, ⟨by decide, fun _ => rfl, fun h => absurd h (by decide), ?_⟩, by decide⟩,
      by simp [Greedy77]⟩
    intro d' l' h1 h2
    omega
  · exact ⟨[], [], rfl, rfl, by simp, by simp [Greedy78]⟩

/-- The three tokens of P3: the match overlaps its own output. -/
theorem witness_Lz77DecExpandsTokens :
    ∃ s : State, ∃ ts, DecoderReady s ∧ ReaderInBuf s ∧ Valid77 ts 0 ∧ ts.length = 3 ∧
      (expand77 ts []).length = s.cnt.toNat ∧ NextBitsAre s (ts.flatMap Lz77Token.bits) := by
  refine ⟨cnt 8 (dst 0x200 8 (bytes 0x100 [0x20, 0x90, 0xA0, 0x02, 0x06]
      (reading 0x100 5 1 State.reset))), [.literal 0x41#8, .literal 0x42#8, .copy 2 6],
    ?_, ?_, by simp [Valid77], rfl, by decide +kernel, ?_⟩
  · unfold DecoderReady DestInBuf Overlapping; decide +kernel
  · unfold ReaderInBuf; decide +kernel
  · unfold NextBitsAre; decide +kernel

/-- L5 after one literal: an offset beyond the one byte; L8: a match that gives too much; and a
stream that ends in the next token. -/
theorem witness_Lz77DecExpandsTokens_errors :
    (∃ s : State, DecoderReady s ∧ ReaderInBuf s ∧ Valid77 [.literal 0x41#8] 0 ∧
      (expand77 [.literal 0x41#8] []).length < s.cnt.toNat ∧
      NextBitsAre s (([Lz77Token.literal 0x41#8] ++ [Lz77Token.copy 2 3]).flatMap Lz77Token.bits)) ∧
      (∃ s : State, DecoderReady s ∧ ReaderInBuf s ∧
        (expand77 [.literal 0x41#8] []).length < s.cnt.toNat ∧
        NextBitsAre s (([Lz77Token.literal 0x41#8] ++ [Lz77Token.copy 1 4]).flatMap Lz77Token.bits) ∧
        s.cnt.toNat < (expand77 [.literal 0x41#8] []).length + 4) ∧
      (∃ s : State, ∃ w, DecoderReady s ∧ ReaderInBuf s ∧
        (expand77 [.literal 0x41#8] []).length < s.cnt.toNat ∧ TooShort77 w ∧
        LastBitsAre s ([Lz77Token.literal 0x41#8].flatMap Lz77Token.bits ++ w) ∧ w.length = 20) ∧
      TooShort77 [] ∧ TooShort77 (List.replicate 8 false) := by
  unfold LastBitsAre DecoderReady DestInBuf Overlapping ReaderInBuf NextBitsAre TooShort77
  exact ⟨⟨cnt 4 (dst 0x200 8 (bytes 0x100 [0x20, 0xC0, 0x04, 0x00] (reading 0x100 4 2 State.reset))),
      by decide +kernel, by decide +kernel, by simp [Valid77], by decide +kernel,
      by decide +kernel⟩,
    ⟨cnt 4 (dst 0x200 8 (bytes 0x100 [0x20, 0xC0, 0x00, 0x04]
      (reading 0x100 4 2 State.reset))), by decide +kernel⟩,
    ⟨cnt 4 (dst 0x200 8 (bytes 0x100 [0x20, 0xC0, 0x00, 0x04] (reading 0x100 4 3 State.reset))),
      true :: List.replicate 19 false, by decide +kernel⟩,
    by decide, by decide⟩

/-- The four tokens of P4. -/
theorem witness_Lz78DecExpandsTokens :
    ∃ s : State, ∃ ts out, DecoderReady s ∧ ReaderInBuf s ∧ expand78 ts [[]] = some out ∧
      ts.length = 4 ∧ out.length = s.cnt.toNat ∧ NextBitsAre s (ts.flatMap lz78Bits) := by
  unfold DecoderReady DestInBuf Overlapping ReaderInBuf NextBitsAre
  exact ⟨cnt 7 (dst 0x200 7
      (bytes 0x100 [0x00, 0x04, 0x10, 0x00, 0x42, 0x00, 0x14, 0x20, 0x03, 0x41]
        (reading 0x100 10 0 State.reset))),
    [(0, 0x41#8), (0, 0x42#8), (1, 0x42#8), (3, 0x41#8)], (text3.take 7).map (BitVec.ofNat 8),
    by decide +kernel⟩

/-- After the token (0, 'A'): the index 2 not yet defined, a token that gives a byte too much, and a
stream that ends in the next token. -/
theorem witness_Lz78DecExpandsTokens_errors :
    expand78 [(0, 0x41#8)] [[]] = some [0x41#8] ∧
      (∃ s : State, DecoderReady s ∧ ReaderInBuf s ∧ 1 < s.cnt.toNat ∧
        NextBitsAre s (([(0, 0x41#8)] ++ [(2, 0x41#8)]).flatMap lz78Bits)) ∧
      (∃ s : State, ∃ more, DecoderReady s ∧ ReaderInBuf s ∧ 1 < s.cnt.toNat ∧
        NextBitsAre s (([(0, 0x41#8)] ++ [(1, 0x42#8)]).flatMap lz78Bits) ∧
        expand78 ([(0, 0x41#8)] ++ [(1, 0x42#8)]) [[]] = some more ∧
        s.cnt.toNat < more.length) ∧
      ∃ s : State, DecoderReady s ∧ ReaderInBuf s ∧ 1 < s.cnt.toNat ∧
        NextBitsAre s ([(0, 0x41#8)].flatMap lz78Bits) ∧ s.rd.stop < s.rd.pos + 20 * 2 := by
  unfold DecoderReady DestInBuf Overlapping ReaderInBuf NextBitsAre
  exact ⟨by decide, ⟨cnt 2 (dst 0x200 8 (bytes 0x100 [0x00, 0x04, 0x10, 0x02, 0x41]
      (reading 0x100 5 0 State.reset))), by decide +kernel⟩,
    ⟨cnt 2 (dst 0x200 8 (bytes 0x100 [0x00, 0x04, 0x10, 0x01, 0x42]
      (reading 0x100 5 0 State.reset))), [0x41#8, 0x41#8, 0x42#8], by decide +kernel⟩,
    ⟨cnt 2 (dst 0x200 8 (bytes 0x100 [0x00, 0x04, 0x10, 0x01, 0x42]
      (reading 0x100 5 1 State.reset))), by decide +kernel⟩⟩

/-- Qualities 1, 100, 0 and 101, and lossless mode. -/
theorem witness_QtGenWritesTable :
    (∀ q ∈ [1, 49, 50, 100], (lossy q State.reset).mode = true ∧
      1 ≤ (lossy q State.reset).quality.toNat ∧ (lossy q State.reset).quality.toNat ≤ 100) ∧
      State.reset.mode = false ∧ (lossy 0 State.reset).quality.toNat = 0 ∧
      100 < (lossy 101 State.reset).quality.toNat := by decide +kernel

theorem witness_QtabNonIncreasingInQuality :
    1 ≤ 1 ∧ 1 < 100 ∧ 100 ≤ 100 ∧ 63 < 64 := by decide

theorem witness_TransformArithmetic :
    (List.replicate 64 (255 : Int)).length = 64 ∧
      (∀ v ∈ List.replicate 64 (255 : Int), 0 ≤ v ∧ v ≤ 255) := by decide +kernel

/-- 65 samples just below the two coefficient blocks they give. -/
theorem witness_ForwardCommandsStoreCoefficients :
    DctReady (lossy 50 (src 0 65 (dst 65 256 State.reset))) ∧
      128 * blocks (lossy 50 (src 0 65 (dst 65 256 State.reset))).srcLen.toNat ≤
        (lossy 50 (src 0 65 (dst 65 256 State.reset))).dstCap.toNat ∧
      DctReady (lossy 50 (src 0 65 (dst 65 255 State.reset))) ∧
      (lossy 50 (src 0 65 (dst 65 255 State.reset))).dstCap.toNat <
        128 * blocks (lossy 50 (src 0 65 (dst 65 255 State.reset))).srcLen.toNat := by
  unfold DctReady SourceInBuf DestInBuf Overlapping; decide +kernel

/-- A full source, one of a wrong length, and a destination one byte too short. -/
theorem witness_QuantAndDequantMapCoefficients :
    DctReady (lossy 50 (src 0 128 (dst 128 128 State.reset))) ∧
      DctReady (lossy 50 (src 0 127 (dst 128 128 State.reset))) ∧
      DctReady (lossy 50 (src 0 128 (dst 128 127 State.reset))) := by
  unfold DctReady SourceInBuf DestInBuf Overlapping; decide +kernel

/-- 64 samples from one block, 65 from one, and 64 into 63 bytes. -/
theorem witness_InverseCommandsStoreSamples :
    (∃ s, DctReady s ∧ 128 * blocks s.cnt.toNat ≤ s.srcLen.toNat ∧ s.cnt.toNat ≤ s.dstCap.toNat ∧
      s.cnt.toNat = 64) ∧
      (∃ s, DctReady s ∧ s.srcLen.toNat < 128 * blocks s.cnt.toNat ∧ s.cnt.toNat = 65) ∧
      ∃ s, DctReady s ∧ 128 * blocks s.cnt.toNat ≤ s.srcLen.toNat ∧
        s.dstCap.toNat < s.cnt.toNat := by
  unfold DctReady SourceInBuf DestInBuf Overlapping
  exact ⟨⟨lossy 50 (cnt 64 (src 0 128 (dst 128 64 State.reset))), by decide +kernel⟩,
    ⟨lossy 50 (cnt 65 (src 0 128 (dst 128 64 State.reset))), by decide +kernel⟩,
    ⟨lossy 50 (cnt 64 (src 0 128 (dst 128 63 State.reset))), by decide +kernel⟩⟩

/-- One sample through DCT_FWD and QUANT, and through DCT_ENC. -/
theorem witness_FusedCommandsAreCompositions_forward :
    ∃ s t₁ t₂ t₃ : State, exec .dctFwd s = .next t₁ ∧ t₁.done = true ∧
      exec .quant { t₁ with
        srcAddr := s.dstAddr, srcLen := BitVec.ofNat 64 (128 * blocks s.srcLen.toNat)
        dstAddr := 0x200#64, dstCap := BitVec.ofNat 64 (128 * blocks s.srcLen.toNat) } =
          .next t₂ ∧
      t₂.done = true ∧ exec .dctEnc s = .next t₃ := by
  let s : State := lossy 50 (src 0 1 (dst 0x100 128 State.reset))
  obtain ⟨t₁, h₁, d₁⟩ := endsIn_next (o := exec .dctFwd s) (p := fun t => t.done && endsIn
    (exec .quant { t with
      srcAddr := s.dstAddr, srcLen := BitVec.ofNat 64 (128 * blocks s.srcLen.toNat)
      dstAddr := 0x200#64, dstCap := BitVec.ofNat 64 (128 * blocks s.srcLen.toNat) })
    fun u => u.done) (by decide +kernel)
  obtain ⟨t₃, h₃, -⟩ := endsIn_next (o := exec .dctEnc s) (p := fun t => t.done)
    (by decide +kernel)
  rw [Bool.and_eq_true] at d₁
  obtain ⟨t₂, h₂, d₂⟩ := endsIn_next d₁.2
  exact ⟨s, t₁, t₂, t₃, h₁, d₁.1, h₂, d₂, h₃⟩

/-- One block through DEQUANT and DCT_INV, and through DCT_DEC. -/
theorem witness_FusedCommandsAreCompositions_inverse :
    ∃ s t₁ t₂ t₃ : State, exec .dequant s = .next t₁ ∧ t₁.done = true ∧
      exec .dctInv { t₁ with
        srcAddr := s.dstAddr, srcLen := s.srcLen, dstAddr := 0x200#64, dstCap := 64#64 } =
          .next t₂ ∧
      t₂.done = true ∧ exec .dctDec { s with dstAddr := 0x200#64, dstCap := 64#64 } = .next t₃ ∧
      t₃.done = true := by
  let s : State := lossy 50 (cnt 64 (src 0 128 (dst 0x100 128 State.reset)))
  obtain ⟨t₁, h₁, d₁⟩ := endsIn_next (o := exec .dequant s) (p := fun t => t.done && endsIn
    (exec .dctInv { t with
      srcAddr := s.dstAddr, srcLen := s.srcLen, dstAddr := 0x200#64, dstCap := 64#64 })
    fun u => u.done) (by decide +kernel)
  obtain ⟨t₃, h₃, d₃⟩ := endsIn_next
    (o := exec .dctDec { s with dstAddr := 0x200#64, dstCap := 64#64 }) (p := fun t => t.done)
    (by decide +kernel)
  rw [Bool.and_eq_true] at d₁
  obtain ⟨t₂, h₂, d₂⟩ := endsIn_next d₁.2
  exact ⟨s, t₁, t₂, t₃, h₁, d₁.1, h₂, d₂, h₃, d₃⟩

theorem witness_ConstantBlockSurvives : 1 ≤ 1 ∧ 1 ≤ 100 ∧ 255 ≤ 255 := by decide

end Sys2Proof.Tests
end

section
/-! What a command can do, said once: every command that reaches a next state ends with a pre-check
error, with a run-time error, or with the work of its own rule (60_exceptions.md R313 to R318). -/

namespace Sys2Proof.Machine

open Sys2Proof.Claims

/-! ## Sequencing of work that can stop -/

theorem bind_eq_ok {α β : Type} {x : Except Halt α} {f : α → Except Halt β} {b : β} :
    (x >>= f) = .ok b ↔ ∃ a, x = .ok a ∧ f a = .ok b := by
  cases x <;> simp [bind, Except.bind]

theorem bind_eq_error {α β : Type} {x : Except Halt α} {f : α → Except Halt β} {h : Halt} :
    (x >>= f) = .error h ↔ x = .error h ∨ ∃ a, x = .ok a ∧ f a = .error h := by
  cases x <;> simp [bind, Except.bind]

/-- Only an error of the list is raised. -/
theorem StopsWith.mem {s : State} {es : List CmdError} {e : CmdError}
    (h : StopsWith s es (.raise e)) : e ∈ es := by
  rcases h with ⟨e', he, heq⟩ | ⟨⟨a, ha⟩, -⟩
  · cases heq
    exact he
  · cases ha

theorem Consumes.widen {d n m : Nat} {s t : State} (h : Consumes d n s t) (hnm : n ≤ m) :
    Consumes d m s t := by
  obtain ⟨hframe, hpos, hend, hbytes, hbuf⟩ := h
  exact ⟨hframe, hpos, hend, fun a ha => hbytes a (by omega), fun hd => hbuf (by omega)⟩

/-! ## Appending, without the form of the writer -/

/-- R141, R303: `t` is `s` after bits were appended to its writer, whatever the writer held: only
W.cnt, W.acc and W.nb and the bytes of the writer's range move. -/
structure Appended (s t : State) : Prop where
  frame : t = { s with
    wr := { s.wr with cnt := t.wr.cnt, acc := t.wr.acc, nb := t.wr.nb }, buf := t.buf }
  fits : s.writerBits ≤ 8 * s.wr.cap → t.writerBits ≤ 8 * s.wr.cap
  acc : s.wr.acc.toNat < 2 ^ s.wr.nb.val → t.wr.acc.toNat < 2 ^ t.wr.nb.val
  bytes : ∀ a, ¬(s.wr.base ≤ a ∧ a < s.wr.base + s.wr.cap) → t.byteAt a = s.byteAt a
  bufOk : s.BufOk → t.BufOk

namespace Appended

variable {s t u : State}

theorem refl (s : State) : Appended s s := ⟨rfl, id, id, fun _ _ => rfl, id⟩

theorem wr (h : Appended s t) :
    t.wr = { s.wr with cnt := t.wr.cnt, acc := t.wr.acc, nb := t.wr.nb } := by
  conv_lhs => rw [h.frame]

theorem base (h : Appended s t) : t.wr.base = s.wr.base := by rw [h.wr]

theorem cap (h : Appended s t) : t.wr.cap = s.wr.cap := by rw [h.wr]

theorem bufSize (h : Appended s t) : t.bufSize = s.bufSize := by rw [h.frame]; rfl

theorem trans (h : Appended s t) (h' : Appended t u) : Appended s u where
  frame := by
    have e := h'.frame
    rw [h.frame] at e
    exact e
  fits hs := h.cap ▸ h'.fits (h.cap.symm ▸ h.fits hs)
  acc hs := h'.acc (h.acc hs)
  bytes a ha := by rw [h'.bytes a (by rwa [h.base, h.cap]), h.bytes a ha]
  bufOk hs := h'.bufOk (h.bufOk hs)

theorem of_appendBit {b : Bool} (h : s.appendBit b = .ok t) : Appended s t := by
  have hacc := fun hs => (State.appendBit_ok hs h).2.2.1
  have hnb := s.wr.nb.isLt
  unfold State.appendBit at h
  split_ifs at h with hfull h7 hin <;> cases h
  · refine ⟨rfl, fun _ => ?_, hacc, fun a ha => ?_, fun hs => ?_⟩
    · simp only [State.writerBits, Fin.val_zero]
      omega
    · simp only [State.byteAt, Memory.find_write]
      rw [if_neg (by omega)]
    · refine ⟨Memory.wf_write hs.1 _ _, fun c hc => ?_⟩
      rcases Memory.mem_write hc with hc | hc
      · rw [hc]
        exact hin
      · exact hs.2 c hc
  · refine ⟨rfl, fun _ => ?_, hacc, fun _ _ => rfl, id⟩
    have hnext : (s.wr.nb + 1).val ≤ s.wr.nb.val + 1 := by
      rw [Fin.val_add]
      exact Nat.mod_le _ _
    simp only [State.writerBits]
    omega

theorem of_appendBits {bits : List Bool} (h : s.appendBits bits = .ok t) : Appended s t := by
  induction bits generalizing s with
  | nil => cases h; exact refl _
  | cons b bs ih =>
    rw [State.appendBits] at h
    split at h
    next => cases h
    next u hu => exact (of_appendBit hu).trans (ih h)

theorem of_hufEncode {c : Vector Byte 256} {l : List Byte} {bits n : Nat}
    (h : hufEncode c l bits s = .ok (n, t)) : Appended s t := by
  induction l generalizing bits s with
  | nil => cases h; exact refl _
  | cons b bs ih =>
    rw [hufEncode] at h
    split_ifs at h
    obtain ⟨u, hu, h⟩ := bind_eq_ok.1 h
    exact (of_appendBits hu).trans (ih h)

end Appended

theorem State.appendBits_raise {s : State} {bits : List Bool} {e : CmdError}
    (h : s.appendBits bits = .error (.raise e)) : e = .outputOverflow := by
  induction bits generalizing s with
  | nil => cases h
  | cons b bs ih =>
    rw [State.appendBits] at h
    split at h
    next x hx =>
      cases h
      unfold State.appendBit at hx
      split_ifs at hx <;> cases hx
      rfl
    next u hu => exact ih h

theorem hufEncode_raise {c : Vector Byte 256} {l : List Byte} {bits : Nat} {s : State}
    {e : CmdError} (h : hufEncode c l bits s = .error (.raise e)) :
    e ∈ [.outputOverflow, .symbolNotInTable] := by
  induction l generalizing bits s with
  | nil => cases h
  | cons b bs ih =>
    rw [hufEncode] at h
    split_ifs at h
    · cases h
      simp
    · rcases bind_eq_error.1 h with hp | ⟨u, -, h⟩
      · simp [State.appendBits_raise hp]
      · exact ih h

/-! ## HUF_DESER (R174) -/

/-- R174, R45: a table that HUF_DESER writes meets the Kraft inequality. -/
theorem deserialize_ok {s : State} {d : Done} (h : deserialize s = .ok d) :
    ∃ c t, kraftSum c ≤ 2 ^ Config.maxClen ∧ Consumes 0 0 s t ∧ d.state = { t with clen := c } := by
  unfold deserialize at h
  obtain ⟨⟨k, s₁⟩, h₁, h⟩ := bind_eq_ok.1 h
  dsimp only at h
  split_ifs at h
  obtain ⟨⟨c, s₂⟩, h₂, h⟩ := bind_eq_ok.1 h
  dsimp only at h
  split_ifs at h with hk
  cases h
  exact ⟨c, s₂, Nat.le_of_not_lt hk, (Consumes.of_get h₁).trans (readPairs_ok h₂), rfl⟩

theorem deserialize_raise {s : State} {e : CmdError} (h : deserialize s = .error (.raise e)) :
    e ∈ [.truncatedStream, .corruptHeader] := by
  unfold deserialize at h
  rcases bind_eq_error.1 h with h₁ | ⟨⟨k, s₁⟩, -, h⟩
  · have := (State.get_stops h₁).mem
    simp_all
  dsimp only at h
  split_ifs at h
  · cases h
    simp
  rcases bind_eq_error.1 h with h₂ | ⟨⟨c, s₂⟩, -, h⟩
  · exact (readPairs_stops h₂).mem
  dsimp only at h
  split_ifs at h
  · cases h
    simp
  · cases h

/-! ## The lengths of what the DCT commands store (R256, R257) -/

@[simp] theorem length_coefBytes (c : List Int) : (coefBytes c).length = 2 * c.length := by
  simp [coefBytes, be16, List.length_flatMap, Nat.mul_comm]

theorem length_flatMap_range_le {α : Type} {f : Nat → List α} {k : Nat} (n : Nat)
    (h : ∀ b, (f b).length ≤ k) : ((List.range n).flatMap f).length ≤ k * n := by
  rw [List.length_flatMap]
  have hsum := List.sum_le_card_nsmul ((List.range n).map fun b => (f b).length) k
    (by simpa using fun b _ => h b)
  simpa [Nat.mul_comm] using hsum

@[simp] theorem length_fdct (x : List Int) : (fdct x).length = 64 := by simp [fdct, blockIdx]

@[simp] theorem length_coefBlock (s : State) (b : Nat) : (s.coefBlock b).length = 64 := by
  simp [State.coefBlock, blockIdx]

theorem length_forwardBytes_le (s : State) {f : List Int → List Int}
    (hf : ∀ x, (f x).length ≤ 64) :
    (s.forwardBytes f).length ≤ 128 * blockCount s.srcLen.toNat := by
  refine length_flatMap_range_le _ fun b => ?_
  have := hf (s.sampleBlock b)
  simp only [length_coefBytes]
  omega

theorem length_coefMapBytes_le (s : State) {f : List Int → List Int}
    (hf : ∀ x, (f x).length ≤ x.length) : (s.coefMapBytes f).length ≤ s.srcLen.toNat := by
  have hle : (s.coefMapBytes f).length ≤ 128 * (s.srcLen.toNat / 128) := by
    refine length_flatMap_range_le _ fun b => ?_
    have := hf (s.coefBlock b)
    simp only [length_coefBytes, length_coefBlock] at this ⊢
    omega
  omega

theorem length_inverseBytes_le (s : State) (f : List Int → List Int) :
    (s.inverseBytes f).length ≤ s.cnt.toNat := by
  simp [State.inverseBytes]

/-! ## The pre-checks, as what they ask and what they raise (R316) -/

@[simp] theorem checkImm_snd (i : Instr) : (checkImm i).2 = .illegalCommand := rfl
@[simp] theorem checkMode_snd (s : State) : (checkMode s).2 = .unsupportedModeForCodec := rfl
@[simp] theorem checkQuality_snd (s : State) : (checkQuality s).2 = .invalidQuality := rfl
@[simp] theorem checkWriter_snd (s : State) : (checkWriter s).2 = .streamNotOpen := rfl
@[simp] theorem checkReader_snd (s : State) : (checkReader s).2 = .streamNotOpen := rfl
@[simp] theorem checkSrc_snd (s : State) : (checkSrc s).2 = .badAddress := rfl
@[simp] theorem checkDst_snd (s : State) : (checkDst s).2 = .badAddress := rfl
@[simp] theorem checkSrcDst_snd (s : State) : (checkSrcDst s).2 = .badAddress := rfl
@[simp] theorem checkSrcWriter_snd (s : State) : (checkSrcWriter s).2 = .badAddress := rfl
@[simp] theorem checkDstReader_snd (s : State) : (checkDstReader s).2 = .badAddress := rfl
@[simp] theorem checkCnt_snd (s : State) : (checkCnt s).2 = .outputOverflow := rfl

@[simp] theorem checkImm_fst (i : Instr) : (checkImm i).1 = i.wellFormed := rfl
@[simp] theorem checkWriter_fst (s : State) : (checkWriter s).1 = s.wr.isOpen := rfl
@[simp] theorem checkQuality_fst (s : State) :
    (checkQuality s).1 = true ↔ 1 ≤ s.quality.toNat ∧ s.quality.toNat ≤ 100 := decide_eq_true_iff
@[simp] theorem checkSrc_fst (s : State) :
    (checkSrc s).1 = true ↔ s.srcAddr.toNat + s.srcLen.toNat ≤ s.bufSize := decide_eq_true_iff
@[simp] theorem checkDst_fst (s : State) :
    (checkDst s).1 = true ↔ s.dstAddr.toNat + s.dstCap.toNat ≤ s.bufSize := decide_eq_true_iff
@[simp] theorem checkCnt_fst (s : State) :
    (checkCnt s).1 = true ↔ s.cnt.toNat ≤ s.dstCap.toNat := decide_eq_true_iff

/-! ## The ends of a command -/

/-- The commands that append to the open writer and do nothing else (BSW_FLUSH also sets WPAD). -/
def Appender (i : Instr) : Prop :=
  (∃ n, i = .bswPut n) ∨ i ∈ [.hufSerial, .hufEnc, .lz77Enc, .lz78Enc]

/-- The state that the work of a command leaves when nothing stops it, before STATUS and OUT are
set: each command moves the state its own rule names. -/
inductive Work (s : State) : Instr → State → Prop
  | keep {i : Instr} (hi : i = .nop ∨ i = .lz77Find ∨ ∃ b, i = .hufCode b) : Work s i s
  | openWriter (hdst : s.dstAddr.toNat + s.dstCap.toNat ≤ s.bufSize) : Work s .bswOpen s.openWriter
  | append {i : Instr} {t : State} (hi : Appender i) (hopen : s.wr.isOpen = true)
      (h : Appended s t) : Work s i t
  | flush {t : State} (pad : Fin 8) (hopen : s.wr.isOpen = true) (h : Appended s t) :
      Work s .bswFlush { t with wr := { t.wr with pad := pad } }
  | openReader (pad : Byte) (hpad : pad.toNat ≤ 7) (hlen : pad.toNat ≤ 8 * s.srcLen.toNat)
      (hsrc : s.srcAddr.toNat + s.srcLen.toNat ≤ s.bufSize) :
      Work s (.bsrOpen pad) (s.openReader pad.toNat)
  | getBits (n : Byte) (v : Word64) {t : State} (h : Consumes 0 0 s t) :
      Work s (.bsrGet n) { t with bsData := v }
  | align : Work s .bsrAlign { s with rd := { s.rd with pos := s.alignedPos } }
  | count (freq : Vector Word64 256) : Work s .hufCount { s with freq := freq }
  | build : Work s .hufBuild { s with clen := s.builtLengths }
  | deserialize (c : Vector Byte 256) {t : State} (h : Consumes 0 0 s t)
      (hc : kraftSum c ≤ 2 ^ Config.maxClen) : Work s .hufDeser { t with clen := c }
  | decode {i : Instr} {t : State} (hi : i ∈ [.hufDec, .lz77Dec, .lz78Dec])
      (hdst : s.dstAddr.toNat + s.dstCap.toNat ≤ s.bufSize)
      (h : Consumes s.dstAddr.toNat s.dstCap.toNat s t) : Work s i t
  | quantTable (hq : 1 ≤ s.quality.toNat ∧ s.quality.toNat ≤ 100) :
      Work s .qtGen { s with qtab := qtabFor s.quality.toNat, qtabQ := s.quality }
  | store {i : Instr} (hi : i ∈ [.dctFwd, .quant, .dequant, .dctInv, .dctEnc, .dctDec])
      (hdst : s.dstAddr.toNat + s.dstCap.toNat ≤ s.bufSize) (l : List Byte)
      (hl : l.length ≤ s.dstCap.toNat) : Work s i (s.storeBytes s.dstAddr.toNat l)

/-- R312: `e` is a run-time error of `i`. BSW_FLUSH has none while the writer is within its
capacity, as every run keeps it; the model lets it overflow from a state that breaks R47. -/
def RunError (i : Instr) (e : CmdError) : Prop :=
  e.code ∈ runCodes i ∨ (i = .bswFlush ∧ e = .outputOverflow)

/-- R313: the three ends of a command. -/
inductive CommandEnd (i : Instr) (s : State) : State → Prop
  | ok (d : Done) (h : Work s i d.state) : CommandEnd i s (endOk d)
  | pre (e : CmdError) (he : e.code ∈ preCodes i) : CommandEnd i s (endPreError e s)
  | run (e : CmdError) (he : RunError i e) : CommandEnd i s (endRunError e (outputRange i s) s)

theorem CommandEnd.of_runCommand {i : Instr} {s t : State} {checks : List (Bool × CmdError)}
    {body : State → Except Halt Done}
    (hpre : ∀ c ∈ checks, c.2.code ∈ preCodes i)
    (hok : (∀ c ∈ checks, c.1 = true) → ∀ d, body s = .ok d → Work s i d.state)
    (hrun : (∀ c ∈ checks, c.1 = true) → ∀ e, body s = .error (.raise e) → RunError i e)
    (h : runCommand checks (outputRange i s) body s = .next t) : CommandEnd i s t := by
  rcases runCommand_cases h with ⟨e, he, rfl⟩ | ⟨hc, d, hd, rfl⟩ | ⟨hc, e, he, rfl⟩
  · exact .pre e (hpre _ (firstError_eq_some he))
  · exact .ok d (hok (firstError_eq_none.1 hc) d hd)
  · exact .run e (hrun (firstError_eq_none.1 hc) e he)


/-! ### The families -/

section
variable {i : Instr} {s t : State} {checks : List (Bool × CmdError)}
  {body : State → Except Halt Done}

/-- R300, R144, R170: a command whose work cannot stop. -/
theorem CommandEnd.of_total {d : Done} (hpre : ∀ c ∈ checks, c.2.code ∈ preCodes i)
    (hbody : body s = .ok d) (hwork : (∀ c ∈ checks, c.1 = true) → Work s i d.state)
    (h : runCommand checks (outputRange i s) body s = .next t) : CommandEnd i s t := by
  refine .of_runCommand hpre (fun hc d' hd => ?_) (fun _ e he => ?_) h
  · obtain rfl : d = d' := by simpa [hbody] using hd
    exact hwork hc
  · simp [hbody] at he

/-- R145, R173, R176, R213, R217: a command that appends to the open writer. -/
theorem CommandEnd.of_appends (hi : Appender i) (hpre : ∀ c ∈ checks, c.2.code ∈ preCodes i)
    (hw : checkWriter s ∈ checks) (hok : ∀ d, body s = .ok d → Appended s d.state)
    (hrun : ∀ e, body s = .error (.raise e) → e.code ∈ runCodes i)
    (h : runCommand checks (outputRange i s) body s = .next t) : CommandEnd i s t :=
  .of_runCommand hpre (fun hc d hd => .append hi (hc _ hw) (hok d hd))
    (fun _ e he => .inl (hrun e he)) h

/-- R145, R173, R213, R217: a command that appends a string of bits fixed at its start. -/
theorem CommandEnd.of_appendBits {bits : List Bool} {f : State → Done} (hi : Appender i)
    (hover : CmdError.outputOverflow.code ∈ runCodes i)
    (hpre : ∀ c ∈ checks, c.2.code ∈ preCodes i) (hw : checkWriter s ∈ checks)
    (h : runCommand checks (outputRange i s) body s = .next t)
    (hbody : body s = s.appendBits bits >>= fun u => pure (f u)) (hf : ∀ u, (f u).state = u) :
    CommandEnd i s t := by
  refine .of_appends hi hpre hw (fun d hd => ?_) (fun e he => ?_) h
  · obtain ⟨u, hu, hd⟩ := bind_eq_ok.1 (hbody.symm.trans hd)
    cases hd
    rw [hf]
    exact .of_appendBits hu
  · rcases bind_eq_error.1 (hbody.symm.trans he) with he | ⟨u, -, he⟩
    · rwa [State.appendBits_raise he]
    · cases he

/-- R89, R178, R214, R218: a command that decodes the open stream into its destination. -/
theorem CommandEnd.of_decodes (hi : i ∈ [.hufDec, .lz77Dec, .lz78Dec])
    (hpre : ∀ c ∈ decoderChecks s ++ checks, c.2.code ∈ preCodes i)
    (hok : ∀ d, body s = .ok d → Consumes s.dstAddr.toNat s.cnt.toNat s d.state)
    (hrun : ∀ e, body s = .error (.raise e) → e.code ∈ runCodes i)
    (h : runCommand (decoderChecks s ++ checks) (outputRange i s) body s = .next t) :
    CommandEnd i s t := by
  refine .of_runCommand hpre (fun hc d hd => ?_) (fun _ e he => .inl (hrun e he)) h
  have hdst := (checkDst_fst s).1 (hc _ (by simp [decoderChecks]))
  have hcnt := (checkCnt_fst s).1 (hc _ (by simp [decoderChecks]))
  exact .decode hi hdst ((hok d hd).widen hcnt)

/-- R259 to R264: a command that stores bytes in its destination. -/
theorem CommandEnd.of_stores {d : Done} {l : List Byte}
    (hi : i ∈ [.dctFwd, .quant, .dequant, .dctInv, .dctEnc, .dctDec])
    (hpre : ∀ c ∈ dctIoChecks s ++ checks, c.2.code ∈ preCodes i) (hbody : body s = .ok d)
    (hstate : d.state = s.storeBytes s.dstAddr.toNat l)
    (hl : (∀ c ∈ checks, c.1 = true) → l.length ≤ s.dstCap.toNat)
    (h : runCommand (dctIoChecks s ++ checks) (outputRange i s) body s = .next t) :
    CommandEnd i s t := by
  refine .of_total hpre hbody (fun hc => ?_) h
  have hdst := (checkDst_fst s).1 (hc _ (by simp [dctIoChecks]))
  rw [hstate]
  exact .store hi hdst _ (hl fun c hm => hc c (List.mem_append_right _ hm))

end

/-! ### NOP and the bitstream commands -/

theorem execNop_end {s t : State} (h : execNop s = .next t) : CommandEnd .nop s t :=
  .of_total (by simp) rfl (fun _ => .keep (by simp)) h

theorem execBswOpen_end {s t : State} (h : execBswOpen s = .next t) : CommandEnd .bswOpen s t :=
  .of_total (by simp [preCodes, CmdError.code]) rfl (fun hc => .openWriter (by simpa using hc)) h

theorem execBswPut_end {n : Byte} {s t : State} (h : execBswPut n s = .next t) :
    CommandEnd (.bswPut n) s t :=
  .of_appendBits (.inl ⟨n, rfl⟩) (by simp [runCodes, CmdError.code])
    (by simp [preCodes, CmdError.code]) (by simp) h rfl fun _ => rfl

theorem execBswFlush_end {s t : State} (h : execBswFlush s = .next t) :
    CommandEnd .bswFlush s t := by
  refine .of_runCommand (by simp [preCodes, CmdError.code]) (fun hc d hd => ?_)
    (fun _ e he => ?_) h
  · obtain ⟨u, hu, hd⟩ := bind_eq_ok.1 hd
    cases hd
    exact .flush _ (by simpa using hc) (.of_appendBits hu)
  · rcases bind_eq_error.1 he with he | ⟨u, -, he⟩
    · exact .inr ⟨rfl, State.appendBits_raise he⟩
    · cases he

theorem execBsrOpen_end {pad : Byte} {s t : State} (h : execBsrOpen pad s = .next t) :
    CommandEnd (.bsrOpen pad) s t := by
  refine .of_total (by simp [preCodes, CmdError.code]) rfl (fun hc => ?_) h
  have hall : pad.toNat ≤ 7 ∧ s.srcAddr.toNat + s.srcLen.toNat ≤ s.bufSize ∧
      pad.toNat ≤ 8 * s.srcLen.toNat := by
    simpa [Instr.wellFormed] using hc
  obtain ⟨hpad, hsrc, hlen⟩ := hall
  exact .openReader pad hpad hlen hsrc

theorem execBsrGet_end {n : Byte} {s t : State} (h : execBsrGet n s = .next t) :
    CommandEnd (.bsrGet n) s t := by
  refine .of_runCommand (by simp [preCodes, CmdError.code]) (fun hc d hd => ?_)
    (fun hc e he => ?_) h
  · obtain ⟨⟨v, u⟩, hu, hd⟩ := bind_eq_ok.1 hd
    cases hd
    exact .getBits n _ (.of_get hu)
  · simp only [List.forall_mem_cons, decide_eq_true_eq] at hc
    obtain ⟨-, -, hroom, -⟩ := hc
    rcases bind_eq_error.1 he with he | ⟨u, -, he⟩
    · unfold State.get at he
      rw [if_neg (by omega)] at he
      split_ifs at he
      cases he
    · cases he

theorem execBsrAlign_end {s t : State} (h : execBsrAlign s = .next t) : CommandEnd .bsrAlign s t :=
  .of_total (by simp [preCodes, CmdError.code]) rfl (fun _ => .align) h

/-! ### The Huffman commands -/

theorem execHufCount_end {s t : State} (h : execHufCount s = .next t) : CommandEnd .hufCount s t :=
  .of_total (by simp [preCodes, CmdError.code]) rfl (fun _ => .count _) h

theorem execHufBuild_end {s t : State} (h : execHufBuild s = .next t) : CommandEnd .hufBuild s t :=
  .of_total (by simp) rfl (fun _ => .build) h

theorem execHufSerial_end {s t : State} (h : execHufSerial s = .next t) :
    CommandEnd .hufSerial s t :=
  .of_appendBits (.inr (by simp)) (by decide) (by simp [preCodes, CmdError.code]) (by simp) h rfl
    fun _ => rfl

theorem execHufDeser_end {s t : State} (h : execHufDeser s = .next t) :
    CommandEnd .hufDeser s t := by
  refine .of_runCommand (by simp [preCodes, CmdError.code]) (fun _ d hd => ?_)
    (fun _ e he => .inl ?_) h
  · obtain ⟨c, u, hk, hu, hstate⟩ := deserialize_ok hd
    rw [hstate]
    exact .deserialize c hu hk
  · have := deserialize_raise he
    fin_cases this <;> decide

theorem execHufEnc_end {s t : State} (h : execHufEnc s = .next t) : CommandEnd .hufEnc s t := by
  refine .of_appends (.inr (by simp)) (by simp [encoderChecks, preCodes, CmdError.code])
    (by simp [encoderChecks]) (fun d hd => ?_) (fun e he => ?_) h
  · obtain ⟨⟨n, u⟩, hu, hd⟩ := bind_eq_ok.1 hd
    cases hd
    exact .of_hufEncode hu
  · rcases bind_eq_error.1 he with he | ⟨u, -, he⟩
    · have := hufEncode_raise he
      fin_cases this <;> decide
    · cases he

theorem execHufDec_end {s t : State} (h : execHufDec s = .next t) : CommandEnd .hufDec s t := by
  refine .of_decodes (by simp) (by simp [decoderChecks, preCodes, CmdError.code])
    (fun d hd => ?_) (fun e he => ?_) h
  · obtain ⟨u, hu, hd⟩ := bind_eq_ok.1 hd
    cases hd
    exact hufDecode_ok le_rfl le_rfl hu
  · rcases bind_eq_error.1 he with he | ⟨u, -, he⟩
    · have := (hufDecode_stops le_rfl le_rfl he).mem
      fin_cases this <;> decide
    · cases he

theorem execHufCode_end {b : Byte} {s t : State} (h : execHufCode b s = .next t) :
    CommandEnd (.hufCode b) s t := by
  refine .of_total (by simp [preCodes, CmdError.code]) rfl (fun _ => ?_) h
  split_ifs <;> exact .keep (by simp)

/-! ### The LZ commands -/

theorem execLz77Find_end {s t : State} (h : execLz77Find s = .next t) : CommandEnd .lz77Find s t :=
  .of_total (by simp [preCodes, CmdError.code]) rfl (fun _ => .keep (by simp)) h

theorem execLz77Enc_end {s t : State} (h : execLz77Enc s = .next t) : CommandEnd .lz77Enc s t :=
  .of_appendBits (.inr (by simp)) (by decide) (by simp [encoderChecks, preCodes, CmdError.code])
    (by simp [encoderChecks]) h rfl fun _ => rfl

theorem execLz77Dec_end {s t : State} (h : execLz77Dec s = .next t) : CommandEnd .lz77Dec s t := by
  refine .of_decodes (checks := []) (by simp)
    (by simp [decoderChecks, preCodes, CmdError.code]) (fun d hd => ?_) (fun e he => ?_) h
  · obtain ⟨⟨n, u⟩, hu, hd⟩ := bind_eq_ok.1 hd
    cases hd
    exact lz77Decode_ok (Nat.zero_le _) hu
  · rcases bind_eq_error.1 he with he | ⟨u, -, he⟩
    · have := (lz77Decode_stops (Nat.zero_le _) he).mem
      fin_cases this <;> decide
    · cases he

theorem execLz78Enc_end {s t : State} (h : execLz78Enc s = .next t) : CommandEnd .lz78Enc s t :=
  .of_appendBits (.inr (by simp)) (by decide) (by simp [encoderChecks, preCodes, CmdError.code])
    (by simp [encoderChecks]) h rfl fun _ => rfl

theorem execLz78Dec_end {s t : State} (h : execLz78Dec s = .next t) : CommandEnd .lz78Dec s t := by
  refine .of_decodes (checks := []) (by simp)
    (by simp [decoderChecks, preCodes, CmdError.code]) (fun d hd => ?_) (fun e he => ?_) h
  · obtain ⟨⟨n, dict, u⟩, hu, hd⟩ := bind_eq_ok.1 hd
    cases hd
    exact lz78Decode_ok (Nat.zero_le _) hu
  · rcases bind_eq_error.1 he with he | ⟨u, -, he⟩
    · have := (lz78Decode_stops (Nat.zero_le _) he).mem
      fin_cases this <;> decide
    · cases he

/-! ### The DCT commands -/

theorem execQtGen_end {s t : State} (h : execQtGen s = .next t) : CommandEnd .qtGen s t := by
  refine .of_total (by simp [preCodes, CmdError.code]) rfl (fun hc => .quantTable ?_) h
  exact (checkQuality_fst s).1 (hc _ (by simp))

theorem dctForward_end {i : Instr} {s t : State} {f : List Int → List Int}
    (hi : i = .dctFwd ∨ i = .dctEnc) (hf : ∀ x, (f x).length ≤ 64)
    (h : runCommand (forwardChecks s) (outputRange i s) (forwardBody f) s = .next t) :
    CommandEnd i s t := by
  refine .of_stores (by rcases hi with rfl | rfl <;> simp) ?_ rfl rfl (fun hc => ?_) h
  · rcases hi with rfl | rfl <;> simp [dctIoChecks, preCodes, CmdError.code]
  · exact (length_forwardBytes_le s hf).trans (by simpa using hc)

theorem dctMap_end {i : Instr} {s t : State} {f : List Int → List Int}
    (hi : i = .quant ∨ i = .dequant) (hf : ∀ x, (f x).length ≤ x.length)
    (h : runCommand (coefMapChecks s) (outputRange i s) (coefMapBody f) s = .next t) :
    CommandEnd i s t := by
  refine .of_stores (by rcases hi with rfl | rfl <;> simp) ?_ rfl rfl (fun hc => ?_) h
  · rcases hi with rfl | rfl <;> simp [dctIoChecks, preCodes, CmdError.code]
  · simp only [List.forall_mem_cons, decide_eq_true_eq] at hc
    obtain ⟨-, hroom, -⟩ := hc
    exact (length_coefMapBytes_le s hf).trans hroom

theorem dctInverse_end {i : Instr} {s t : State} {f : List Int → List Int}
    (hi : i = .dctInv ∨ i = .dctDec)
    (h : runCommand (inverseChecks s) (outputRange i s) (inverseBody f) s = .next t) :
    CommandEnd i s t := by
  refine .of_stores (by rcases hi with rfl | rfl <;> simp) ?_ rfl rfl (fun hc => ?_) h
  · rcases hi with rfl | rfl <;> simp [dctIoChecks, preCodes, CmdError.code]
  · exact (length_inverseBytes_le s f).trans ((checkCnt_fst s).1 (hc _ (by simp)))

/-! ### Every command -/

/-- R313 to R318: every way a command can reach a next state. -/
theorem exec_end {i : Instr} {s t : State} (h : exec i s = .next t) : CommandEnd i s t := by
  cases i with
  | nop => exact execNop_end h
  | bswOpen => exact execBswOpen_end h
  | bswPut n => exact execBswPut_end h
  | bswFlush => exact execBswFlush_end h
  | bsrOpen pad => exact execBsrOpen_end h
  | bsrGet n => exact execBsrGet_end h
  | bsrAlign => exact execBsrAlign_end h
  | hufCount => exact execHufCount_end h
  | hufBuild => exact execHufBuild_end h
  | hufSerial => exact execHufSerial_end h
  | hufDeser => exact execHufDeser_end h
  | hufEnc => exact execHufEnc_end h
  | hufDec => exact execHufDec_end h
  | hufCode b => exact execHufCode_end h
  | lz77Find => exact execLz77Find_end h
  | lz77Enc => exact execLz77Enc_end h
  | lz77Dec => exact execLz77Dec_end h
  | lz78Enc => exact execLz78Enc_end h
  | lz78Dec => exact execLz78Dec_end h
  | qtGen => exact execQtGen_end h
  | dctFwd => exact dctForward_end (.inl rfl) (fun x => by simp) h
  | quant => exact dctMap_end (.inl rfl) (fun x => by simp [quantBlock]) h
  | dequant => exact dctMap_end (.inr rfl) (fun x => by simp [dequantBlock]) h
  | dctInv => exact dctInverse_end (.inl rfl) h
  | dctEnc => exact dctForward_end (.inr rfl) (fun x => by simp [quantBlock]) h
  | dctDec => exact dctInverse_end (.inr rfl) h

end Sys2Proof.Machine
end

section
/-! Tables as lists of code lengths, and the Kraft sum of the table HUF_BUILD writes (42_huffman.md
R171, R172; 10_state.md R45). -/

namespace Sys2Proof.Machine

/-! ## Tables -/

@[simp] theorem tabulate_get {α : Type} (n : Nat) (f : Nat → α) (i : Fin n) :
    (tabulate n f).get i = f i.val := by
  rw [Vector.get_eq_getElem]
  simp [tabulate]

theorem nodup_allBytes : allBytes.Nodup := by
  refine List.Nodup.map_on (fun a ha b hb hab => ?_) List.nodup_range
  simp only [Config.alpha, List.mem_range] at ha hb
  have := congrArg BitVec.toNat hab
  simp only [BitVec.toNat_ofNat] at this
  omega

theorem length_allBytes : allBytes.length = 256 := by simp [allBytes, Config.alpha]

/-- The Kraft sum of a list of (symbol, code length) pairs, scaled by 2^255 as in R45. -/
def pairKraft (ps : List (Byte × Nat)) : Nat := (ps.map fun p => 2 ^ (Config.maxClen - p.2)).sum

/-- R45: a table whose coded symbols and lengths all stand in a list of pairs has at most the list's
Kraft sum. -/
theorem kraftSum_le_pairKraft {c : Vector Byte 256} {ps : List (Byte × Nat)}
    (h : ∀ b, 0 < lenOf c b → (b, lenOf c b) ∈ ps) : kraftSum c ≤ pairKraft ps := by
  let entries := (coded c).map fun b => (b, lenOf c b)
  have hnodup : entries.Nodup :=
    ((nodup_allBytes.filter _).map_on fun a _ b _ hab => congrArg Prod.fst hab)
  have hsub : entries ⊆ ps := by
    intro p hp
    obtain ⟨b, hb, rfl⟩ := List.mem_map.1 hp
    exact h b (by simpa using (List.mem_filter.1 hb).2)
  obtain ⟨l, hperm, hle⟩ := List.subperm_of_subset hnodup hsub
  have hsum : kraftSum c = pairKraft entries := by
    simp [kraftSum, pairKraft, entries, Function.comp_def]
  rw [hsum, pairKraft, ← (hperm.map _).sum_eq]
  exact (hle.map _).sum_le_sum fun _ _ => Nat.zero_le _

/-- R45: a table without codes meets the Kraft inequality. -/
theorem kraftSum_eq_zero {c : Vector Byte 256} (h : ∀ b, lenOf c b = 0) : kraftSum c = 0 :=
  Nat.le_zero.1 (kraftSum_le_pairKraft (ps := []) fun b hb => absurd (h b) (Nat.ne_of_gt hb))

/-! ## Trees (R171) -/

/-- The number of leaves of a tree. -/
def HufTree.leafCount : HufTree → Nat
  | .leaf _ => 1
  | .internal l r => l.leafCount + r.leafCount

theorem HufTree.leafCount_pos (t : HufTree) : 0 < t.leafCount := by
  induction t with
  | leaf => exact Nat.one_pos
  | internal l r ihl ihr => exact Nat.add_pos_left ihl _

@[simp] theorem HufTree.length_depths (t : HufTree) (d : Nat) :
    (t.depths d).length = t.leafCount := by
  induction t generalizing d with
  | leaf => rfl
  | internal l r ihl ihr => simp [HufTree.depths, HufTree.leafCount, ihl, ihr]

/-- R171: a leaf is less deep than its tree has leaves. -/
theorem HufTree.depth_lt {t : HufTree} {d : Nat} {p : Byte × Nat} (h : p ∈ t.depths d) :
    p.2 < d + t.leafCount := by
  induction t generalizing d with
  | leaf b =>
    rw [List.mem_singleton.1 h]
    exact Nat.lt_succ_self d
  | internal l r ihl ihr =>
    have hl := l.leafCount_pos
    have hr := r.leafCount_pos
    simp only [HufTree.leafCount]
    rcases List.mem_append.1 h with h | h
    · have := ihl h
      omega
    · have := ihr h
      omega

/-- R171, R45: the leaves of a tree fill the Kraft sum exactly. -/
theorem HufTree.pairKraft_depths (t : HufTree) {d : Nat} (h : d + t.leafCount ≤ 256) :
    pairKraft (t.depths d) = 2 ^ (Config.maxClen - d) := by
  induction t generalizing d with
  | leaf b => simp [pairKraft, HufTree.depths]
  | internal l r ihl ihr =>
    have hl := l.leafCount_pos
    have hr := r.leafCount_pos
    simp only [HufTree.leafCount] at h
    have hsucc : Config.maxClen - d = (Config.maxClen - (d + 1)) + 1 := by
      simp only [Config.maxClen]
      omega
    have hsplit : pairKraft ((HufTree.internal l r).depths d) =
        pairKraft (l.depths (d + 1)) + pairKraft (r.depths (d + 1)) := by
      simp [pairKraft, HufTree.depths]
    rw [hsplit, ihl (by omega), ihr (by omega), hsucc, Nat.pow_succ]
    omega

/-! ## The queue (R171) -/

theorem takeLeast_perm {q rest : List HufNode} {m : HufNode} (h : takeLeast q = some (m, rest)) :
    q.Perm (m :: rest) := by
  induction q generalizing m rest with
  | nil => cases h
  | cons x xs ih =>
    rw [takeLeast] at h
    split at h
    next hnone =>
      cases h
      cases xs with
      | nil => exact .refl _
      | cons y ys =>
        rw [takeLeast] at hnone
        split at hnone
        · cases hnone
        · split_ifs at hnone
    next m' rest' hsome =>
      split_ifs at h <;> cases h
      · exact .refl _
      · exact ((ih hsome).cons x).trans (.swap _ _ _)

/-- The leaves of all the trees of a queue. -/
def queueLeaves (q : List HufNode) : Nat := (q.map fun n => n.tree.leafCount).sum

theorem takeLeast_leaves {q rest : List HufNode} {m : HufNode}
    (h : takeLeast q = some (m, rest)) :
    queueLeaves q = m.tree.leafCount + queueLeaves rest := by
  rw [queueLeaves, ((takeLeast_perm h).map _).sum_eq]
  rfl

/-- R171: merging keeps the leaves. -/
theorem mergeNodes_leaves (m next : Nat) (q : List HufNode) :
    queueLeaves (mergeNodes m next q) = queueLeaves q := by
  induction m generalizing next q with
  | zero => rfl
  | succ m ih =>
    rw [mergeNodes]
    split
    next => rfl
    next a q₁ ha =>
      split
      next => rfl
      next b q₂ hb =>
        rw [ih, takeLeast_leaves ha, takeLeast_leaves hb, ← Nat.add_assoc]
        rfl

theorem State.length_symbols_le (s : State) : s.symbols.length ≤ 256 :=
  length_allBytes ▸ List.length_filter_le _ _

theorem State.queueLeaves_leaves (s : State) : queueLeaves s.leaves = s.symbols.length := by
  simp [queueLeaves, State.leaves, Function.comp_def, HufTree.leafCount]

/-- R171: a tree has one leaf for each symbol of FREQ at most. -/
theorem State.hufTree_leafCount_le {s : State} {t : HufTree} (h : s.hufTree = some t) :
    t.leafCount ≤ 256 := by
  obtain ⟨n, hn, rfl⟩ := Option.map_eq_some_iff.1 h
  have hmem := List.mem_map_of_mem (f := fun n => n.tree.leafCount) (List.mem_of_head? hn)
  have hle := List.single_le_sum (fun _ _ => Nat.zero_le _) _ hmem
  rw [← queueLeaves, mergeNodes_leaves, s.queueLeaves_leaves] at hle
  exact hle.trans s.length_symbols_le

/-! ## The table HUF_BUILD writes (R171, R172) -/

/-- R171: no code length of the tree exceeds 255, and the Kraft sum is at most 1. -/
theorem State.lengthPairs_kraft (s : State) :
    (∀ p ∈ s.lengthPairs, p.2 ≤ 255) ∧ pairKraft s.lengthPairs ≤ 2 ^ Config.maxClen := by
  unfold State.lengthPairs
  split
  next => simp [pairKraft]
  next b hb =>
    refine ⟨by simp, ?_⟩
    simp only [pairKraft, List.map_cons, List.map_nil, List.sum_singleton]
    exact Nat.pow_le_pow_right Nat.two_pos (Nat.sub_le _ _)
  next t hleaf ht =>
    have hcount := State.hufTree_leafCount_le ht
    refine ⟨fun p hp => ?_, (t.pairKraft_depths (by omega)).le⟩
    have := HufTree.depth_lt hp
    omega

theorem State.lenOf_builtLengths (s : State) (b : Byte) :
    lenOf s.builtLengths b = (s.lengthPairs.lookup b).getD 0 % 256 := by
  simp [lenOf, State.builtLengths]

theorem mem_of_lookup_eq_some {ps : List (Byte × Nat)} {b : Byte} {l : Nat}
    (h : ps.lookup b = some l) : (b, l) ∈ ps := by
  obtain ⟨l₁, l₂, rfl, -⟩ := List.lookup_eq_some_iff.1 h
  simp

/-- R171, R45: HUF_BUILD writes a table that meets the Kraft inequality. -/
theorem State.kraftSum_builtLengths_le (s : State) :
    kraftSum s.builtLengths ≤ 2 ^ Config.maxClen := by
  obtain ⟨hlen, hkraft⟩ := s.lengthPairs_kraft
  refine (kraftSum_le_pairKraft fun b hb => ?_).trans hkraft
  rw [s.lenOf_builtLengths] at hb ⊢
  cases hl : s.lengthPairs.lookup b with
  | none => simp [hl] at hb
  | some l =>
    have hmem := mem_of_lookup_eq_some hl
    have hmod : l % 256 = l := Nat.mod_eq_of_lt (Nat.lt_succ_of_le (hlen _ hmem))
    simpa [hmod] using hmem

end Sys2Proof.Machine
end

section
/-! The invariants of Safety.lean: each holds after reset (10_state.md R54), and every step keeps
those of the streams, the tables, ID and STATUS. -/

namespace Sys2Proof.Machine

open Sys2Proof.Claims

/-! ## After reset (R54) -/

section
variable (aw : Config.AddrWidth)

theorem State.resetWith_bufOk : (State.resetWith aw).BufOk :=
  ⟨Memory.wf_nil, fun _ hc => absurd hc List.not_mem_nil⟩

theorem State.resetWith_writerOk : (State.resetWith aw).WriterOk := fun h => by cases h

theorem State.resetWith_readerOk : (State.resetWith aw).ReaderOk := fun h => by cases h

theorem State.resetWith_statusOk : (State.resetWith aw).StatusOk := by
  simp [State.StatusOk, State.resetWith, raisedCodes]

theorem State.resetWith_qtabOk : (State.resetWith aw).QtabOk := by
  simp [State.QtabOk, State.resetWith]

theorem State.resetWith_kraftOk : (State.resetWith aw).KraftOk := by
  have hzero : kraftSum (State.resetWith aw).clen = 0 :=
    kraftSum_eq_zero fun b => by simp [lenOf, State.resetWith, Vector.get_eq_getElem]
  rw [State.KraftOk, hzero]
  exact Nat.zero_le _

end

/-! ## What a step does to AW, the streams and the tables -/

/-- `t` has the AW, the streams and the tables of `s`: all that the invariants of the streams, of
CLEN and of QTAB speak of. -/
structure SameForms (s t : State) : Prop where
  aw : t.aw = s.aw
  wr : t.wr = s.wr
  rd : t.rd = s.rd
  clen : t.clen = s.clen
  qtab : t.qtab = s.qtab
  qtabQ : t.qtabQ = s.qtabQ

theorem writeCtrl_forms (v : Word64) (s : State) :
    SameForms s (writeCtrl v s) ∨ SameForms (State.resetWith s.aw) (writeCtrl v s) := by
  unfold writeCtrl
  split_ifs
  · exact .inr ⟨rfl, rfl, rfl, rfl, rfl, rfl⟩
  · exact .inl ⟨rfl, rfl, rfl, rfl, rfl, rfl⟩

/-- R34 to R46: of the registers only CTRL reaches the streams, CLEN and QTAB, by a soft reset. -/
theorem writeReg_forms (r : Reg) (v : Word64) (s : State) :
    SameForms s (writeReg r v s) ∨ SameForms (State.resetWith s.aw) (writeReg r v s) := by
  cases r with
  | ctrl => exact writeCtrl_forms v s
  | _ => exact .inl ⟨rfl, rfl, rfl, rfl, rfl, rfl⟩

/-- R95: a host action leaves AW, the streams and the tables alone or resets all of them but AW. -/
theorem hostAct_forms {act : HostAction} {s t : State} (h : hostAct act s = .next t) :
    SameForms s t ∨ SameForms (State.resetWith s.aw) t := by
  rcases hostAct_cases h with ⟨v, n, script, rfl⟩ | ⟨a, width, v, -, -, rfl⟩ | ⟨r, v, -, rfl⟩ |
    ⟨-, rfl⟩ | ⟨v, rfl⟩ | rfl
  · exact .inl ⟨rfl, rfl, rfl, rfl, rfl, rfl⟩
  · exact .inl ⟨rfl, rfl, rfl, rfl, rfl, rfl⟩
  · exact writeReg_forms r v s
  · exact .inl ⟨rfl, rfl, rfl, rfl, rfl, rfl⟩
  · exact writeCtrl_forms v s
  · exact .inr ⟨rfl, rfl, rfl, rfl, rfl, rfl⟩

/-- The induction over a step: a property of AW, the streams and the tables that holds after reset,
that closing both streams keeps, and that the work of each command keeps, is kept by every step. -/
theorem step_keeps {P : State → Prop} (hsame : ∀ {s t}, SameForms s t → P s → P t)
    (hreset : ∀ s, P s → P (State.resetWith s.aw))
    (hclosed : ∀ s w r, w.isOpen = false → r.isOpen = false → P s → P { s with wr := w, rd := r })
    (hwork : ∀ {s i t}, Work s i t → P s → P t) {s t : State} (hs : P s) (h : step s = .next t) :
    P t := by
  rcases step_cases h with ⟨-, -, rfl⟩ | ⟨e, rest, -, -, hact⟩ | ⟨c, i, -, -, -, hexec⟩ |
    ⟨c, e, -, -, -, rfl⟩
  · exact hs
  · rcases hostAct_forms hact with hf | hf
    · exact hsame (s := s) ⟨hf.aw, hf.wr, hf.rd, hf.clen, hf.qtab, hf.qtabQ⟩ hs
    · exact hsame hf (hreset s hs)
  · cases exec_end hexec with
    | ok d hd => exact hsame (s := d.state) ⟨rfl, rfl, rfl, rfl, rfl, rfl⟩ (hwork hd hs)
    | pre e => exact hsame (s := s) ⟨rfl, rfl, rfl, rfl, rfl, rfl⟩ hs
    | run e =>
      exact hsame (s := { s with wr := freeWriter s.draws s.wr.pad, rd := freeReader s.draws })
        ⟨rfl, rfl, rfl, rfl, rfl, rfl⟩ (hclosed s _ _ rfl rfl hs)
  · exact hsame (s := s) ⟨rfl, rfl, rfl, rfl, rfl, rfl⟩ hs

/-! ## What the work of a command does to each of them -/

section
variable {s t : State} {i : Instr}

theorem Appended.aw (h : Appended s t) : t.aw = s.aw := by rw [h.frame]
theorem Appended.rd (h : Appended s t) : t.rd = s.rd := by rw [h.frame]
theorem Appended.clen (h : Appended s t) : t.clen = s.clen := by rw [h.frame]
theorem Appended.qtab (h : Appended s t) : t.qtab = s.qtab := by rw [h.frame]
theorem Appended.qtabQ (h : Appended s t) : t.qtabQ = s.qtabQ := by rw [h.frame]

theorem Consumes.aw {d n : Nat} (h : Consumes d n s t) : t.aw = s.aw := by rw [h.1]
theorem Consumes.wr {d n : Nat} (h : Consumes d n s t) : t.wr = s.wr := by rw [h.1]
theorem Consumes.clen {d n : Nat} (h : Consumes d n s t) : t.clen = s.clen := by rw [h.1]
theorem Consumes.qtab {d n : Nat} (h : Consumes d n s t) : t.qtab = s.qtab := by rw [h.1]
theorem Consumes.qtabQ {d n : Nat} (h : Consumes d n s t) : t.qtabQ = s.qtabQ := by rw [h.1]

/-- R143: reading never passes R.end. -/
theorem Consumes.pos_le_stop {d n : Nat} (h : Consumes d n s t) (hs : s.rd.pos ≤ s.rd.stop) :
    t.rd.pos ≤ t.rd.stop := by
  rw [h.stop]
  obtain ⟨-, -, hend, -, -⟩ := h
  exact hend hs

theorem Work.aw (h : Work s i t) : t.aw = s.aw := by
  cases h with
  | append _ _ h => exact h.aw
  | flush _ _ h => exact h.aw
  | getBits _ _ h => exact h.aw
  | deserialize _ h => exact h.aw
  | decode _ _ h => exact h.aw
  | _ => rfl

/-- What WriterOk says depends on AW and W only. -/
theorem State.WriterOk.congr (hs : s.WriterOk) (haw : t.aw = s.aw) (hwr : t.wr = s.wr) :
    t.WriterOk := by
  rw [State.WriterOk, State.writerBits, hwr, bufSize_congr haw]
  exact hs

/-- What ReaderOk says depends on AW and R only. -/
theorem State.ReaderOk.congr (hs : s.ReaderOk) (haw : t.aw = s.aw) (hrd : t.rd = s.rd) :
    t.ReaderOk := by
  rw [State.ReaderOk, hrd, bufSize_congr haw]
  exact hs

/-- R141: appended bits stay within the writer's capacity. -/
theorem Appended.writerOk (h : Appended s t) (hs : s.WriterOk) : t.WriterOk := by
  intro hopen
  rw [h.wr] at hopen
  obtain ⟨hbuf, hfit, hacc⟩ := hs hopen
  rw [h.base, h.cap, h.bufSize]
  exact ⟨hbuf, h.fits hfit, h.acc hacc⟩

/-- R143: reading keeps the reader in its range. -/
theorem Consumes.readerOk {d n : Nat} (h : Consumes d n s t) (hs : s.ReaderOk) : t.ReaderOk := by
  intro hopen
  rw [h.rd] at hopen
  obtain ⟨hbuf, hstop, hlast, hpos⟩ := hs hopen
  have hpos' := h.pos_le_stop hpos
  rw [h.bufSize]
  rw [h.rd] at hpos' ⊢
  exact ⟨hbuf, hstop, hlast, hpos'⟩

theorem Work.writerOk (h : Work s i t) (hs : s.WriterOk) : t.WriterOk := by
  cases h with
  | openWriter hdst => exact fun _ => ⟨hdst, Nat.zero_le _, Nat.one_pos⟩
  | append _ _ h => exact h.writerOk hs
  | flush _ _ h => exact h.writerOk hs
  | getBits _ _ h => exact hs.congr h.aw h.wr
  | deserialize _ h => exact hs.congr h.aw h.wr
  | decode _ _ h => exact hs.congr h.aw h.wr
  | _ => exact hs

theorem Work.readerOk (h : Work s i t) (hs : s.ReaderOk) : t.ReaderOk := by
  cases h with
  | openReader pad hpad hlen hsrc =>
    intro _
    simp only [openReader_rd]
    exact ⟨hsrc, Nat.sub_le _ _, by omega, Nat.zero_le _⟩
  | align =>
    intro hopen
    obtain ⟨hbuf, hstop, hlast, -⟩ := hs hopen
    exact ⟨hbuf, hstop, hlast, Nat.min_le_right _ _⟩
  | append _ _ h => exact hs.congr h.aw h.rd
  | flush _ _ h => exact hs.congr h.aw h.rd
  | getBits _ _ h => exact h.readerOk hs
  | deserialize _ h => exact h.readerOk hs
  | decode _ _ h => exact h.readerOk hs
  | _ => exact hs

/-- R46, R251: QT_GEN alone writes QTAB, and with it QTAB_Q. -/
theorem Work.qtabOk (h : Work s i t) (hs : s.QtabOk) : t.QtabOk := by
  cases h with
  | quantTable hq => exact ⟨rfl, hq⟩
  | append _ _ h => rwa [State.QtabOk, h.qtab, h.qtabQ]
  | flush _ _ h => rwa [State.QtabOk, h.qtab, h.qtabQ]
  | getBits _ _ h => rwa [State.QtabOk, h.qtab, h.qtabQ]
  | deserialize _ h => rwa [State.QtabOk, h.qtab, h.qtabQ]
  | decode _ _ h => rwa [State.QtabOk, h.qtab, h.qtabQ]
  | _ => exact hs

/-- R45: HUF_BUILD and HUF_DESER alone write CLEN. -/
theorem Work.kraftOk (h : Work s i t) (hs : s.KraftOk) : t.KraftOk := by
  cases h with
  | build => exact s.kraftSum_builtLengths_le
  | deserialize c _ hc => exact hc
  | append _ _ h => rwa [State.KraftOk, h.clen]
  | flush _ _ h => rwa [State.KraftOk, h.clen]
  | getBits _ _ h => rwa [State.KraftOk, h.clen]
  | decode _ _ h => rwa [State.KraftOk, h.clen]
  | _ => exact hs

end

/-! ## STATUS (R35, R312, R313) -/

section
variable {s t : State}

theorem preCodes_subset_raisedCodes (i : Instr) : preCodes i ⊆ raisedCodes := by
  cases i <;> simp [preCodes, raisedCodes]

theorem runCodes_subset_raisedCodes (i : Instr) : runCodes i ⊆ raisedCodes := by
  cases i <;> simp [runCodes, raisedCodes]

theorem RunError.raised {i : Instr} {e : CmdError} (h : RunError i e) : e.code ∈ raisedCodes := by
  rcases h with h | ⟨-, rfl⟩
  · exact runCodes_subset_raisedCodes i h
  · decide

theorem CmdError.code_ne_zero (e : CmdError) : e.code ≠ 0#8 := by cases e <;> decide

/-- R313: after a command's end STATUS holds DONE alone, or ERR with the code of the error. -/
theorem State.StatusOk.of_ended (hp : t.pending = none)
    (h : t.done = true ∧ t.err = false ∧ t.errCode = 0#8 ∨
      t.done = false ∧ t.errCode ∈ raisedCodes ∧ t.errCode ≠ 0#8) : t.StatusOk := by
  rcases h with ⟨hd, he, hc⟩ | ⟨hd, hc, hne⟩
  · simp [State.StatusOk, hp, he, hc, raisedCodes]
  · simp [State.StatusOk, hp, hd, hc, hne]

theorem CommandEnd.statusOk {i : Instr} (h : CommandEnd i s t) : t.StatusOk := by
  cases h with
  | ok d => exact .of_ended rfl (.inl ⟨rfl, rfl, rfl⟩)
  | pre e he => exact .of_ended rfl (.inr ⟨rfl, preCodes_subset_raisedCodes i he, e.code_ne_zero⟩)
  | run e he => exact .of_ended rfl (.inr ⟨rfl, he.raised, e.code_ne_zero⟩)

/-- R35: acceptance clears DONE, ERR and ERRCODE and sets LASTOP. -/
theorem State.statusOk_accept (s : State) (c : Word64) : (s.accept c).StatusOk := by
  simp [State.StatusOk, raisedCodes]

/-- R35: clearing bits of STATUS keeps it coherent. -/
theorem State.StatusOk.clearStatus (hs : s.StatusOk) (v : Word64) : (s.clearStatus v).StatusOk := by
  obtain ⟨hcode, hdone, herr, hpend⟩ := hs
  refine ⟨hcode, fun h => ?_, fun h => ?_, fun c hc => ?_⟩
  · obtain ⟨he, hz⟩ := hdone (by simp_all)
    exact ⟨by simp [he], hz⟩
  · exact herr (by simp_all)
  · obtain ⟨hd, he, hz, hop⟩ := hpend c hc
    exact ⟨by simp [hd], by simp [he], hz, hop⟩

theorem State.StatusOk.writeCtrl (hs : s.StatusOk) (v : Word64) : (writeCtrl v s).StatusOk := by
  unfold Machine.writeCtrl
  split_ifs
  · exact State.resetWith_statusOk s.aw
  · exact hs

theorem State.StatusOk.writeReg (hs : s.StatusOk) (r : Reg) (v : Word64) :
    (writeReg r v s).StatusOk := by
  cases r with
  | status => exact hs.clearStatus v
  | cmd => exact s.statusOk_accept v
  | ctrl => exact hs.writeCtrl v
  | _ => exact hs

theorem State.StatusOk.hostAct {act : HostAction} (hs : s.StatusOk)
    (h : hostAct act s = .next t) : t.StatusOk := by
  rcases hostAct_cases h with ⟨v, n, script, rfl⟩ | ⟨a, width, v, -, -, rfl⟩ | ⟨r, v, -, rfl⟩ |
    ⟨-, rfl⟩ | ⟨v, rfl⟩ | rfl
  · exact hs
  · exact hs
  · exact hs.writeReg r v
  · exact hs
  · exact hs.writeCtrl v
  · exact State.resetWith_statusOk s.aw

end

end Sys2Proof.Machine

namespace Sys2Proof.Proofs

open Sys2Proof.Machine

/-- Settles O15: every invariant holds after reset, for every AW. -/
theorem resetIsSafe : Obligations.ResetIsSafe := fun aw =>
  ⟨State.resetWith_bufOk aw, State.resetWith_writerOk aw, State.resetWith_readerOk aw,
    State.resetWith_statusOk aw, State.resetWith_qtabOk aw, State.resetWith_kraftOk aw⟩

/-- Settles O23: BSW_OPEN checks its range, and an append checks the room it takes. -/
theorem writerFormKept : Obligations.WriterFormKept := fun _ _ hs h =>
  step_keeps (fun hf hs => hs.congr hf.aw hf.wr) (fun s _ => State.resetWith_writerOk s.aw)
    (fun _ _ _ hw _ _ hopen => absurd hopen (by simp [hw])) Work.writerOk hs h

/-- Settles O24: BSR_OPEN checks its range and its pad, and a read stops at R.end. -/
theorem readerFormKept : Obligations.ReaderFormKept := fun _ _ hs h =>
  step_keeps (fun hf hs => hs.congr hf.aw hf.rd) (fun s _ => State.resetWith_readerOk s.aw)
    (fun _ _ _ _ hr _ hopen => absurd hopen (by simp [hr])) Work.readerOk hs h

/-- Settles O25: a command's end, its acceptance and a host's W1C are the only writers of STATUS. -/
theorem statusFormKept : Obligations.StatusFormKept := by
  intro s t hs h
  rcases step_cases h with ⟨-, -, rfl⟩ | ⟨e, rest, -, -, hact⟩ | ⟨c, i, -, -, -, hexec⟩ |
    ⟨c, e, -, -, -, rfl⟩
  · exact hs
  · exact State.StatusOk.hostAct (s := { s with script := rest }) hs hact
  · exact (exec_end hexec).statusOk
  · exact .of_ended rfl
      (.inr ⟨rfl, by simp [CmdError.code, raisedCodes], CmdError.illegalCommand.code_ne_zero⟩)

/-- Settles O26: QT_GEN, which checks the quality, and the resets write QTAB and QTAB_Q together. -/
theorem qtabFormKept : Obligations.QtabFormKept := fun _ _ hs h =>
  step_keeps (fun hf hs => by rwa [State.QtabOk, hf.qtab, hf.qtabQ])
    (fun s _ => State.resetWith_qtabOk s.aw) (fun _ _ _ _ _ hs => hs) Work.qtabOk hs h

/-- Settles O27: HUF_BUILD's lengths are depths of a tree, and HUF_DESER checks the sum. -/
theorem kraftFormKept : Obligations.KraftFormKept := fun _ _ hs h =>
  step_keeps (fun hf hs => by rwa [State.KraftOk, hf.clen])
    (fun s _ => State.resetWith_kraftOk s.aw) (fun _ _ _ _ _ hs => hs) Work.kraftOk hs h

/-- Settles O28: ID shows AW, which no step changes. -/
theorem identityNeverChanges : Obligations.IdentityNeverChanges := by
  intro s t h
  have haw : t.aw = s.aw :=
    step_keeps (P := fun u => u.aw = s.aw) (fun hf hs => hf.aw.trans hs) (fun _ hs => hs)
      (fun _ _ _ _ _ hs => hs) (fun hw hs => hw.aw.trans hs) rfl h
  simp [readReg, State.idWord, haw]

end Sys2Proof.Proofs
end

section
/-! What each command leaves alone (10_state.md R38 to R48, 45_control.md R303): the frame of its
work and of its error ends. -/

namespace Sys2Proof.Machine

/-- The state that no command writes: the configuration and operand registers, the flags and LASTOP
that only acceptance and the host move, and the model's own fields but the draws. -/
def SameOperands (s t : State) : Prop :=
  t.aw = s.aw ∧ t.ien = s.ien ∧ t.wbusy = s.wbusy ∧ t.lastOp = s.lastOp ∧
    t.quality = s.quality ∧ t.mode = s.mode ∧ t.srcAddr = s.srcAddr ∧ t.srcLen = s.srcLen ∧
    t.dstAddr = s.dstAddr ∧ t.dstCap = s.dstCap ∧ t.cnt = s.cnt ∧ t.script = s.script ∧
    t.busData = s.busData ∧ t.power = s.power

theorem SameOperands.refl (s : State) : SameOperands s s := by simp [SameOperands]

section
variable {s t : State} {i : Instr}

theorem Appended.operands (h : Appended s t) : SameOperands s t := by
  rw [h.frame]
  exact .refl s

theorem Appended.freq (h : Appended s t) : t.freq = s.freq := by rw [h.frame]
theorem Appended.bsData (h : Appended s t) : t.bsData = s.bsData := by rw [h.frame]

theorem Consumes.operands {d n : Nat} (h : Consumes d n s t) : SameOperands s t := by
  rw [h.1]
  exact .refl s

theorem Consumes.freq {d n : Nat} (h : Consumes d n s t) : t.freq = s.freq := by rw [h.1]
theorem Consumes.bsData {d n : Nat} (h : Consumes d n s t) : t.bsData = s.bsData := by rw [h.1]

theorem Consumes.byteAt {d n a : Nat} (h : Consumes d n s t) (ha : ¬(d ≤ a ∧ a < d + n)) :
    t.byteAt a = s.byteAt a := by
  obtain ⟨-, -, -, hbytes, -⟩ := h
  exact hbytes a ha

/-! ## Output ranges (R318, R352) -/

theorem outputRange_appender (hi : Appender i) (hopen : s.wr.isOpen = true) :
    outputRange i s = some (s.wr.base, s.wr.cap) := by
  rcases hi with ⟨n, rfl⟩ | hi
  · simp [outputRange, hopen]
  · fin_cases hi <;> simp [outputRange, hopen]

theorem outputRange_flush (hopen : s.wr.isOpen = true) :
    outputRange .bswFlush s = some (s.wr.base, s.wr.cap) := by
  simp [outputRange, hopen]

theorem outputRange_decoder (hi : i ∈ [.hufDec, .lz77Dec, .lz78Dec]) :
    outputRange i s = some (s.dstAddr.toNat, s.dstCap.toNat) := by
  fin_cases hi <;> rfl

theorem outputRange_dct (hi : i ∈ [.dctFwd, .quant, .dequant, .dctInv, .dctEnc, .dctDec]) :
    outputRange i s = some (s.dstAddr.toNat, s.dstCap.toNat) := by
  fin_cases hi <;> rfl

/-- `a` is no output byte of `i`. -/
def OutsideOutput (i : Instr) (s : State) (a : Nat) : Prop :=
  ∀ r, outputRange i s = some r → ¬(r.1 ≤ a ∧ a < r.1 + r.2)

/-- R318 item 4: a run-time error frees the output bytes and no others. -/
theorem endRunError_byteAt {e : CmdError} {a : Nat} (ha : OutsideOutput i s a) :
    (endRunError e (outputRange i s) s).byteAt a = s.byteAt a := by
  simp only [State.byteAt, endRunError_buf, endRunError_power]
  split
  next => rfl
  next r hr => rw [s.find_spoil_of_not_mem (ha r hr)]

/-! ## The frame of a command's work -/

theorem Work.operands (h : Work s i t) : SameOperands s t := by
  cases h with
  | append _ _ h => exact h.operands
  | flush _ _ h => exact h.operands
  | getBits _ _ h => exact h.operands
  | deserialize _ h => exact h.operands
  | decode _ _ h => exact h.operands
  | _ => exact .refl s

theorem Work.freq (h : Work s i t) (hi : i ≠ .hufCount) : t.freq = s.freq := by
  cases h with
  | count => exact absurd rfl hi
  | append _ _ h => exact h.freq
  | flush _ _ h => exact h.freq
  | getBits _ _ h => exact h.freq
  | deserialize _ h => exact h.freq
  | decode _ _ h => exact h.freq
  | _ => rfl

theorem Work.clen (h : Work s i t) (hb : i ≠ .hufBuild) (hd : i ≠ .hufDeser) :
    t.clen = s.clen := by
  cases h with
  | build => exact absurd rfl hb
  | deserialize => exact absurd rfl hd
  | append _ _ h => exact h.clen
  | flush _ _ h => exact h.clen
  | getBits _ _ h => exact h.clen
  | decode _ _ h => exact h.clen
  | _ => rfl

theorem Work.qtab (h : Work s i t) (hi : i ≠ .qtGen) : t.qtab = s.qtab ∧ t.qtabQ = s.qtabQ := by
  cases h with
  | quantTable => exact absurd rfl hi
  | append _ _ h => exact ⟨h.qtab, h.qtabQ⟩
  | flush _ _ h => exact ⟨h.qtab, h.qtabQ⟩
  | getBits _ _ h => exact ⟨h.qtab, h.qtabQ⟩
  | deserialize _ h => exact ⟨h.qtab, h.qtabQ⟩
  | decode _ _ h => exact ⟨h.qtab, h.qtabQ⟩
  | _ => exact ⟨rfl, rfl⟩

theorem Work.bsData (h : Work s i t) (hi : ∀ n, i ≠ .bsrGet n) : t.bsData = s.bsData := by
  cases h with
  | getBits n => exact absurd rfl (hi n)
  | append _ _ h => exact h.bsData
  | flush _ _ h => exact h.bsData
  | deserialize _ h => exact h.bsData
  | decode _ _ h => exact h.bsData
  | _ => rfl

theorem Work.wr (h : Work s i t) (hput : ∀ n, i ≠ .bswPut n)
    (hi : i ∉ [.bswOpen, .bswFlush, .hufSerial, .hufEnc, .lz77Enc, .lz78Enc]) :
    t.wr = s.wr := by
  cases h with
  | openWriter => exact absurd (by simp) hi
  | append happ =>
    rcases happ with ⟨n, rfl⟩ | happ
    · exact absurd rfl (hput n)
    · exact absurd (List.mem_cons_of_mem _ (List.mem_cons_of_mem _ happ)) hi
  | flush => exact absurd (by simp) hi
  | getBits _ _ h => exact h.wr
  | deserialize _ h => exact h.wr
  | decode _ _ h => exact h.wr
  | _ => rfl

theorem Work.rd (h : Work s i t) (hopen : ∀ n, i ≠ .bsrOpen n) (hget : ∀ n, i ≠ .bsrGet n)
    (hi : i ∉ [.bsrAlign, .hufDeser, .hufDec, .lz77Dec, .lz78Dec]) : t.rd = s.rd := by
  cases h with
  | openReader pad => exact absurd rfl (hopen pad)
  | getBits n => exact absurd rfl (hget n)
  | align => exact absurd (by simp) hi
  | deserialize => exact absurd (by simp) hi
  | decode hdec => exact absurd (List.mem_cons_of_mem _ (List.mem_cons_of_mem _ hdec)) hi
  | append _ _ h => exact h.rd
  | flush _ _ h => exact h.rd
  | _ => rfl

/-- R303: a command's work writes its output bytes and no others. -/
theorem Work.byteAt {a : Nat} (h : Work s i t) (ha : OutsideOutput i s a) :
    t.byteAt a = s.byteAt a := by
  cases h with
  | append hi hopen h => exact h.bytes a (ha _ (outputRange_appender hi hopen))
  | flush _ hopen h => exact h.bytes a (ha _ (outputRange_flush hopen))
  | getBits _ _ h => exact h.byteAt (by omega)
  | deserialize _ h => exact h.byteAt (by omega)
  | decode hi _ h => exact h.byteAt (ha _ (outputRange_decoder hi))
  | store hi _ l hl =>
    have hout : ¬(s.dstAddr.toNat ≤ a ∧ a < s.dstAddr.toNat + s.dstCap.toNat) :=
      ha _ (outputRange_dct hi)
    exact s.byteAt_storeBytes_of_not_mem (by omega)
  | _ => rfl

end

end Sys2Proof.Machine

namespace Sys2Proof.Proofs

open Sys2Proof.Machine

/-- Settles O18: by the three ends of a command, and the frame of its work. -/
theorem commandsWriteOnlyTheirState : Obligations.CommandsWriteOnlyTheirState := by
  intro i s t h
  cases exec_end h with
  | ok d hd =>
    exact ⟨hd.operands, hd.freq, hd.clen, hd.qtab, hd.bsData, fun _ => hd.wr, fun _ => hd.rd,
      fun a ha => hd.byteAt ha⟩
  | pre e =>
    exact ⟨SameOperands.refl s, fun _ => rfl, fun _ _ => rfl, fun _ => ⟨rfl, rfl⟩, fun _ => rfl,
      fun _ _ _ => rfl, fun _ _ _ _ => rfl, fun _ _ => rfl⟩
  | run e =>
    exact ⟨SameOperands.refl s, fun _ => rfl, fun _ _ => rfl, fun _ => ⟨rfl, rfl⟩, fun _ => rfl,
      fun herr => absurd herr (by simp), fun herr => absurd herr (by simp),
      fun a ha => endRunError_byteAt ha⟩

end Sys2Proof.Proofs
end

section
/-! The host's side as rules (10_state.md R32 to R49, 20_memory.md R83, R86): whose step it is,
what a register access does, and what the register map and the register layouts are. -/

namespace Sys2Proof.Machine

open Sys2Proof.Claims

/-! ## Whose step it is (R49, R90) -/

section
variable {s : State}

theorem step_engine {c : Word64} {i : Instr} (hp : s.pending = some c) (hw : s.hostWaits = true)
    (hd : decode c = .ok i) : step s = exec i s := by
  simp [step, machineStep, engineStep, hp, hw, hd]

theorem step_host {act : HostAction} {rest : List HostEvent} (h : HostActsNext s act rest) :
    step s = hostAct act { s with script := rest } := by
  obtain ⟨early, hscript, hturn⟩ := h
  have hhost : hostTurn s = hostAct act { s with script := rest } := by
    simp [hostTurn, hscript]
  rcases hturn with hp | rfl
  · simp [step, machineStep, hp, hhost]
  · cases hp : s.pending <;> simp [step, machineStep, hp, hhost, State.hostWaits, hscript]

theorem step_rest (hp : s.pending = none) (hs : s.script = []) : step s = .next s := by
  simp [step, machineStep, hostTurn, hp, hs]

/-- A placed command waits for no host action. -/
theorem hostWaits_placeCommand (s : State) (c : Word64) : (placeCommand s c).hostWaits = true := by
  cases hs : s.script <;> simp [placeCommand, State.hostWaits, holdHost, hs]

/-! ## Register accesses (R83, R86) -/

theorem busTarget_reg {addr : Offset} (hlt : addr.toNat < 0x01000000) (h8 : addr.toNat % 8 = 0) :
    busTarget s 8 addr = some (.reg (regAt addr.toNat)) := by
  simp [busTarget, Config.bufBase, hlt, h8]

section
variable {addr : Offset} {rest : List HostEvent} (hlt : addr.toNat < 0x01000000)
  (h8 : addr.toNat % 8 = 0)
include hlt h8

theorem step_regWrite {v : Word64} (h : HostActsNext s (.write 8 addr v) rest) :
    step s = .next (hostWrite (.reg (regAt addr.toNat)) 8 v { s with script := rest }) := by
  rw [step_host h]
  simp [hostAct, busTarget_reg hlt h8]

/-- R34 to R46: while BUSY = 0 a register write does what its register's rule says. -/
theorem step_regWrite_idle {v : Word64} (hp : s.pending = none)
    (h : HostActsNext s (.write 8 addr v) rest) :
    step s = .next (writeReg (regAt addr.toNat) v { s with script := rest }) := by
  rw [step_regWrite hlt h8 h]
  simp [hostWrite, hp]

/-- R361: while BUSY = 1 a register write other than to CTRL is dropped. -/
theorem step_regWrite_busy {v : Word64} (hp : s.pending ≠ none) (hr : regAt addr.toNat ≠ .ctrl)
    (h : HostActsNext s (.write 8 addr v) rest) :
    step s = .next { s with script := rest, wbusy := true } := by
  rw [step_regWrite hlt h8 h]
  simp [hostWrite, Option.isSome_iff_ne_none.2 hp, hr]

/-- R86: while BUSY = 0 a register read returns the register. -/
theorem step_regRead_idle (hp : s.pending = none) (h : HostActsNext s (.read 8 addr) rest) :
    step s = .next { s with
      script := rest, busData := readReg (regAt addr.toNat) { s with script := rest } } := by
  rw [step_host h]
  simp [hostAct, hostRead, busTarget_reg hlt h8, hp]

end

end

/-- The host's script is no part of any register. -/
@[simp] theorem readReg_script (r : Reg) (s : State) (rest : List HostEvent) :
    readReg r { s with script := rest } = readReg r s := by
  cases r <;> rfl

/-! ## The register map (R32) -/

theorem regAt_freq {k : Nat} (hk : k < 256) : regAt (0x800 + 8 * k) = .freq ⟨k, hk⟩ :=
  regAt_offset (.freq ⟨k, hk⟩)

theorem regAt_clen {k : Nat} (hk : k < 256) : regAt (0x1000 + 8 * k) = .clen ⟨k, hk⟩ :=
  regAt_offset (.clen ⟨k, hk⟩)

theorem regAt_qtab {k : Nat} (hk : k < 64) : regAt (0x1800 + 8 * k) = .qtab ⟨k, hk⟩ :=
  regAt_offset (.qtab ⟨k, hk⟩)

theorem regAt_reserved {off : Nat} (h : 0x098 ≤ off ∧ off < 0x800 ∨ 0x1A00 ≤ off) :
    regAt off = .reserved := by
  have hfreq : ¬(0x800 ≤ off ∧ off < 0x1000) := by omega
  have hclen : ¬(0x1000 ≤ off ∧ off < 0x1800) := by omega
  have hqtab : ¬(0x1800 ≤ off ∧ off < 0x1A00) := by omega
  rw [regAt, if_neg hfreq, if_neg hclen, if_neg hqtab] <;> omega

/-- R32: a register that is not reserved stands at one offset only. -/
theorem offset_regAt {off : Nat} (h8 : off % 8 = 0) (h : regAt off ≠ .reserved) :
    (regAt off).offset = off := by
  revert h
  unfold regAt
  split_ifs
  · intro _
    simp only [Reg.offset, Fin.ofNat]
    omega
  · intro _
    simp only [Reg.offset, Fin.ofNat]
    omega
  · intro _
    simp only [Reg.offset, Fin.ofNat]
    omega
  · split <;> intro h <;> first | rfl | exact absurd rfl h

/-! ## Register writes, by kind of register -/

/-- R38, R39, R44: the registers that hold exactly what the host writes. -/
def Reg.isOperand : Reg → Bool
  | .srcAddr | .srcLen | .dstAddr | .dstCap | .cnt | .bsData | .freq _ => true
  | .id | .ctrl | .status | .cmd | .cfg | .out0 | .out1 | .out2 | .bswPos | .bsrPos | .bsrEnd
  | .bsStat | .qtabQ | .clen _ | .qtab _ | .reserved => false

/-- R32: the registers that ignore a host write. -/
def Reg.isReadOnly : Reg → Bool
  | .id | .out0 | .out1 | .out2 | .bswPos | .bsrPos | .bsrEnd | .bsStat | .qtabQ | .clen _
  | .qtab _ | .reserved => true
  | .ctrl | .status | .cmd | .cfg | .srcAddr | .srcLen | .dstAddr | .dstCap | .cnt | .bsData
  | .freq _ => false

theorem isOperand_regAt {off : Nat} (h8 : off % 8 = 0)
    (h : 0x028 ≤ off ∧ off ≤ 0x050 ∨ 0x800 ≤ off ∧ off < 0x1000) :
    (regAt off).isOperand = true := by
  obtain ⟨k, rfl⟩ := Nat.dvd_of_mod_eq_zero h8
  rcases h with h | h
  · have hall : ∀ k < 11, 5 ≤ k → (regAt (8 * k)).isOperand = true := by decide
    exact hall k (by omega) (by omega)
  · have hk : 8 * k = 0x800 + 8 * (k - 0x100) := by omega
    rw [hk, regAt_freq (by omega)]
    rfl

theorem isReadOnly_regAt {off : Nat} (h8 : off % 8 = 0)
    (h : off = 0 ∨ 0x058 ≤ off ∧ off < 0x800 ∨ 0x1000 ≤ off) :
    (regAt off).isReadOnly = true := by
  obtain ⟨k, rfl⟩ := Nat.dvd_of_mod_eq_zero h8
  by_cases hres : 0x098 ≤ 8 * k ∧ 8 * k < 0x800 ∨ 0x1A00 ≤ 8 * k
  · rw [regAt_reserved hres]
    rfl
  by_cases hlow : 8 * k < 0x098
  · have hall : ∀ k < 19, k = 0 ∨ 11 ≤ k → (regAt (8 * k)).isReadOnly = true := by decide
    exact hall k (by omega) (by omega)
  by_cases hclen : 8 * k < 0x1800
  · have hk : 8 * k = 0x1000 + 8 * (k - 0x200) := by omega
    rw [hk, regAt_clen (by omega)]
    rfl
  · have hk : 8 * k = 0x1800 + 8 * (k - 0x300) := by omega
    rw [hk, regAt_qtab (by omega)]
    rfl

section
variable {r r' : Reg} (v : Word64) (s : State)

theorem writeReg_readOnly (h : r.isReadOnly = true) : writeReg r v s = s := by
  cases r with
  | ctrl | status | cmd | cfg | srcAddr | srcLen | dstAddr | dstCap | cnt | bsData | freq => cases h
  | _ => rfl

theorem readReg_writeReg_operand (h : r.isOperand = true) : readReg r (writeReg r v s) = v := by
  cases r with
  | freq i => simp [readReg, writeReg, Vector.get_eq_getElem]
  | srcAddr | srcLen | dstAddr | dstCap | cnt | bsData => rfl
  | _ => cases h

/-- R38, R39, R44: writing an operand register changes the reading of no other register. -/
theorem readReg_writeReg_of_ne (h : r.isOperand = true) (hne : r' ≠ r) :
    readReg r' (writeReg r v s) = readReg r' s := by
  cases r with
  | freq i =>
    cases r' with
    | freq j =>
      have hij : i.val ≠ j.val := fun hval => hne (congrArg Reg.freq (Fin.ext hval.symm))
      simp [readReg, writeReg, Vector.get_eq_getElem, hij]
    | _ => rfl
  | srcAddr | srcLen | dstAddr | dstCap | cnt | bsData =>
    cases r' <;> first | rfl | exact absurd rfl hne
  | _ => cases h

end

/-! ## Bit fields (R9) -/

/-- R9: the value of a concatenation. -/
theorem toNat_append_eq {m n : Nat} (x : BitVec m) (y : BitVec n) :
    (x ++ y).toNat = 2 ^ n * x.toNat + y.toNat := by
  rw [BitVec.toNat_append, ← Nat.shiftLeft_add_eq_or_of_lt y.isLt, Nat.shiftLeft_eq, Nat.mul_comm]

theorem extractLsb'_zero_eq_ofNat (v : Word64) (n : Nat) :
    v.extractLsb' 0 n = BitVec.ofNat n v.toNat := by
  simp [BitVec.extractLsb']

theorem idWord_toNat (s : State) :
    s.idWord.toNat = 0x43584231 + 2 ^ 32 + s.aw.val * 2 ^ 40 := by
  have haw := s.aw.property.2
  refine (toNat_append_eq (0#16 ++ BitVec.ofNat 8 s.aw.val ++ 0x01#8) 0x43584231#32).trans ?_
  simp only [toNat_append_eq, BitVec.toNat_ofNat]
  omega

theorem ctrlWord_toNat (s : State) : s.ctrlWord.toNat = s.ien.toNat := by
  refine (toNat_append_eq 0#63 (BitVec.ofBool s.ien)).trans ?_
  simp

theorem statusWord_toNat (s : State) : s.statusWord.toNat =
    s.pending.isSome.toNat + 2 * s.done.toNat + 4 * s.err.toNat + 8 * s.wbusy.toNat +
      2 ^ 8 * s.errCode.toNat + 2 ^ 16 * s.lastOp.toNat := by
  refine (toNat_append_eq (0#40 ++ s.lastOp ++ s.errCode ++ 0#4 ++ BitVec.ofBool s.wbusy ++
    BitVec.ofBool s.err ++ BitVec.ofBool s.done) (BitVec.ofBool s.busy)).trans ?_
  simp only [toNat_append_eq, BitVec.toNat_ofBool, BitVec.toNat_ofNat, busy_eq]
  omega

theorem cfgWord_toNat (s : State) :
    s.cfgWord.toNat = s.quality.toNat + 2 ^ 8 * s.mode.toNat := by
  refine (toNat_append_eq (0#55 ++ BitVec.ofBool s.mode ++ 0#1) s.quality).trans ?_
  simp only [toNat_append_eq, BitVec.toNat_ofBool, BitVec.toNat_ofNat]
  omega

theorem bsStatWord_toNat (s : State) : s.bsStatWord.toNat =
    s.wr.isOpen.toNat + 2 * s.rd.isOpen.toNat + 2 ^ 8 * s.wr.pad.val := by
  have hpad := s.wr.pad.isLt
  refine (toNat_append_eq (0#53 ++ BitVec.ofNat 3 s.wr.pad.val ++ 0#6 ++
    BitVec.ofBool s.rd.isOpen) (BitVec.ofBool s.wr.isOpen)).trans ?_
  simp only [toNat_append_eq, BitVec.toNat_ofBool, BitVec.toNat_ofNat]
  omega

theorem irq_iff (s : State) : s.irq = true ↔ s.ien = true ∧ (s.done = true ∨ s.err = true) := by
  simp [State.irq]

/-! ## The table that QTAB resets to (R46, R54) -/

theorem qtabFor_fifty : (qtabFor 50).toList.map BitVec.toNat =
    [8, 11, 10, 16, 24, 40, 51, 61] ++ [12, 12, 14, 19, 26, 58, 60, 55] ++
      [14, 13, 16, 24, 40, 57, 69, 56] ++ [14, 17, 22, 29, 51, 87, 80, 62] ++
      [18, 22, 37, 56, 68, 109, 103, 77] ++ [24, 35, 55, 64, 81, 104, 113, 92] ++
      [49, 64, 78, 87, 103, 121, 120, 101] ++ [72, 92, 95, 98, 112, 100, 103, 99] := by
  decide +kernel

section
variable (aw : Config.AddrWidth)

theorem ctrlWord_resetWith : (State.resetWith aw).ctrlWord = 0#64 :=
  BitVec.eq_of_toNat_eq (ctrlWord_toNat _)

theorem statusWord_resetWith : (State.resetWith aw).statusWord = 0#64 :=
  BitVec.eq_of_toNat_eq (statusWord_toNat _)

theorem cfgWord_resetWith : (State.resetWith aw).cfgWord = 0x32#64 :=
  BitVec.eq_of_toNat_eq (cfgWord_toNat _)

theorem bsStatWord_resetWith : (State.resetWith aw).bsStatWord = 0#64 :=
  BitVec.eq_of_toNat_eq (bsStatWord_toNat _)

/-- R54: the registers from SRC_ADDR to BS_STAT reset to 0. -/
theorem readReg_resetWith_eq_zero {off : Nat} (hlo : 0x028 ≤ off) (hhi : off ≤ 0x088) :
    readReg (regAt off) (State.resetWith aw) = 0#64 := by
  have hall : ∀ off < 0x089, 0x028 ≤ off → regAt off ∈ [.srcAddr, .srcLen, .dstAddr, .dstCap, .cnt,
      .bsData, .out0, .out1, .out2, .bswPos, .bsrPos, .bsrEnd, .bsStat, .reserved] := by decide
  have hmem := hall off (by omega) hlo
  generalize regAt off = r at hmem
  fin_cases hmem <;> first | rfl | exact bsStatWord_resetWith aw

end

end Sys2Proof.Machine

namespace Sys2Proof.Proofs

open Sys2Proof.Machine Sys2Proof.Claims

/-- Settles O5: each clause is one branch of the machine's step. -/
theorem stepRunsPendingCommand : Obligations.StepRunsPendingCommand := by
  refine ⟨fun s c i => step_engine, fun s act rest => step_host, fun s => step_rest,
    fun s i _ => ⟨?_, hostWaits_placeCommand s _⟩⟩
  simp [State.withFetchWord, placeCommand, Nat.mod_eq_of_lt (encode i).isLt]

/-- Settles O6: an idle CMD write is acceptance; a busy one is dropped like any register's. -/
theorem cmdWriteIssuesCommand : Obligations.CmdWriteIssuesCommand := by
  refine ⟨fun s c rest hp h => ?_, fun s c rest hp h => ?_, fun s => rfl⟩
  · rw [step_regWrite_idle (by decide) (by decide) hp h, ← extractLsb'_zero_eq_ofNat]
    rfl
  · exact step_regWrite_busy (by decide) (by decide) hp (by decide) h

/-- Settles O11: the write is that of its register; the readings differ by the offsets. -/
theorem hostRegisterWrites : Obligations.HostRegisterWrites := by
  intro s addr v rest hp h hlt h8
  have hstep := step_regWrite_idle hlt h8 hp h
  refine ⟨fun hrange => ⟨_, hstep, ?operand⟩, ?_, ?_, ?_, ?_, ?_, ?_, fun k hk hoff => ?freq,
    fun haddr => ?cfg, ?_, fun haddr hsrst => ?ctrl, fun hoff => ?readOnly⟩
  case operand =>
    have hop := isOperand_regAt h8 hrange
    refine ⟨readReg_writeReg_operand v _ hop, fun off _ hoff8 hne => ?_⟩
    rw [readReg_writeReg_of_ne v _ hop, readReg_script]
    intro heq
    have hres : regAt addr.toNat ≠ .reserved := fun hr => by simp [hr, Reg.isOperand] at hop
    rw [← offset_regAt h8 hres, ← heq, offset_regAt hoff8 (heq ▸ hres)] at hne
    exact hne rfl
  case freq =>
    rw [hstep, hoff, regAt_freq hk]
    rfl
  case cfg =>
    subst haddr
    rw [hstep, ← extractLsb'_zero_eq_ofNat]
    rfl
  case ctrl =>
    subst haddr
    have hctrl : writeCtrl v { s with script := rest } =
        { s with script := rest, ien := v.getLsbD 0 } := by
      simp only [writeCtrl, hsrst, Bool.false_eq_true, if_false]
    rw [← hctrl]
    exact hstep
  case readOnly =>
    have hro : (regAt addr.toNat).isReadOnly = true :=
      isReadOnly_regAt h8 (hoff.imp_left fun haddr => by simp [haddr])
    rw [hstep, writeReg_readOnly v _ hro]
  all_goals
    rintro rfl
    exact hstep

/-- Settles O12: the map from each register's offset, each layout as the value of a
concatenation. -/
theorem registerMapAndLayouts : Obligations.RegisterMapAndLayouts := by
  refine ⟨rfl, fun s => by simp [readReg], fun s =>
      ⟨rfl, rfl, rfl, BitVec.toNat_setWidth_of_le (by decide)⟩,
    fun s k hk => ⟨rfl, BitVec.toNat_setWidth_of_le (by decide)⟩,
    fun s k hk => BitVec.toNat_setWidth_of_le (by decide), irq_iff,
    fun s addr rest hp hlt h8 h => ?_,
    fun s rest h => ?_, fun k hk => ⟨regAt_freq hk, regAt_clen hk⟩, fun k hk => regAt_qtab hk,
    fun off => regAt_reserved, idWord_toNat, ctrlWord_toNat, statusWord_toNat, cfgWord_toNat,
    bsStatWord_toNat⟩
  · rw [step_regRead_idle hlt h8 hp h, readReg_script]
  · rw [step_host h]
    have hirq : ({ s with script := rest } : State).irq = s.irq := rfl
    simp only [hostAct, hirq]
    cases s.irq <;> rfl

/-- Settles O14: the registers of the reset state by evaluation, those with bit fields by their
layouts. -/
theorem resetValues : Obligations.ResetValues := by
  refine ⟨fun aw => ⟨ctrlWord_resetWith aw, statusWord_resetWith aw, cfgWord_resetWith aw,
    fun off => readReg_resetWith_eq_zero aw, rfl,
    fun i => ?_, fun i => ?_, qtabFor_fifty, rfl, rfl, rfl, rfl⟩, rfl, fun s rest h => step_host h⟩
  · simp [readReg, State.resetWith, Vector.get_eq_getElem]
  · simp [readReg, State.resetWith, Vector.get_eq_getElem]

end Sys2Proof.Proofs
end

section
/-! Host accesses to BUF (20_memory.md R83, R86): which accesses are bus errors, and the bytes a
host write stores and a host read returns. -/

namespace Sys2Proof.Machine

open Sys2Proof.Claims

/-! ## Little-endian bytes (R83) -/

@[simp] theorem length_leBytes (v : Word64) (n : Nat) : (leBytes v n).length = n := by
  simp [leBytes]

theorem leBytes_succ (v : Word64) (n : Nat) :
    leBytes v (n + 1) = leBytes v n ++ [v.extractLsb' (8 * n) 8] := by
  simp [leBytes, List.range_succ]

theorem leBytes_getD_toNat (v : Word64) {n j : Nat} (hj : j < n) :
    ((leBytes v n).getD j 0#8).toNat = v.toNat / 2 ^ (8 * j) % 256 := by
  simp [leBytes, hj, Nat.shiftRight_eq_div_pow]

theorem leValue_append (l m : List Byte) :
    leValue (l ++ m) = leValue l + 2 ^ (8 * l.length) * leValue m := by
  induction l with
  | nil => simp [leValue]
  | cons b bs ih =>
    simp only [leValue, List.cons_append, List.foldr_cons, List.length_cons] at ih ⊢
    rw [ih]
    ring

/-- R83: the value of the low `n` bytes of a word. -/
theorem leValue_leBytes (v : Word64) (n : Nat) :
    leValue (leBytes v n) = v.toNat % 2 ^ (8 * n) := by
  induction n with
  | zero => simp [leBytes, leValue, Nat.mod_one]
  | succ n ih =>
    have hlast : leValue [v.extractLsb' (8 * n) 8] = v.toNat / 2 ^ (8 * n) % 2 ^ 8 := by
      simp [leValue, Nat.shiftRight_eq_div_pow]
    rw [leBytes_succ, leValue_append, ih, hlast, length_leBytes, Nat.mul_succ, Nat.pow_add,
      Nat.mod_mul]

/-! ## Bus errors (R83) -/

section
variable {s : State} {width : Nat} {addr : Offset} {rest : List HostEvent}

/-- R81, R83: an access at or above BUF_BASE that is no bus error reaches BUF. -/
theorem busTarget_of_bufAccess (hv : ValidAccess s width addr) (hbuf : 0x01000000 ≤ addr.toNat) :
    busTarget s width addr = some (.buf (addr.toNat - 0x01000000)) := by
  rcases hv with ⟨hlt, -, -⟩ | ⟨-, hwidth, halign, hin⟩
  · omega
  · exact (if_neg (Nat.not_lt.2 hbuf)).trans (if_pos ⟨hwidth, halign, hin⟩)

theorem busTarget_eq_none (hv : ¬ValidAccess s width addr) : busTarget s width addr = none := by
  obtain ⟨hreg, hbuf⟩ := not_or.1 hv
  unfold busTarget
  dsimp only
  split_ifs with hlt hw hw
  · exact absurd ⟨hlt, hw⟩ hreg
  · rfl
  · exact absurd ⟨Nat.le_of_not_lt hlt, hw⟩ hbuf
  · rfl

theorem exists_busTarget (hv : ValidAccess s width addr) :
    ∃ tgt, busTarget s width addr = some tgt := by
  by_cases hbuf : 0x01000000 ≤ addr.toNat
  · exact ⟨_, busTarget_of_bufAccess hv hbuf⟩
  · rcases hv with ⟨hlt, rfl, halign⟩ | ⟨hle, -⟩
    · exact ⟨_, busTarget_reg hlt halign⟩
    · exact absurd hle hbuf

/-- R83: a host access has a step exactly when it is no bus error, whether it reads or writes. -/
theorem step_access {act : HostAction}
    (hact : act = .read width addr ∨ ∃ v, act = .write width addr v)
    (h : HostActsNext s act rest) :
    (¬ValidAccess s width addr → step s = .refused (.busError width addr)) ∧
      (ValidAccess s width addr → ∃ t, step s = .next t) := by
  rw [step_host h]
  refine ⟨fun hv => ?_, fun hv => ?_⟩
  · have hnone : busTarget { s with script := rest } width addr = none := busTarget_eq_none hv
    rcases hact with rfl | ⟨v, rfl⟩ <;> simp [hostAct, hnone]
  · obtain ⟨tgt, htgt⟩ : ∃ tgt, busTarget { s with script := rest } width addr = some tgt :=
      exists_busTarget hv
    rcases hact with rfl | ⟨v, rfl⟩ <;> simp [hostAct, htgt]

/-! ## Accesses to BUF while the engine is idle (R86) -/

theorem step_bufWrite_idle {v : Word64} (hp : s.pending = none)
    (h : HostActsNext s (.write width addr v) rest) (hv : ValidAccess s width addr)
    (hbuf : 0x01000000 ≤ addr.toNat) :
    step s = .next
      (({ s with script := rest } : State).storeBytes (addr.toNat - 0x01000000)
        (leBytes v width)) := by
  have htgt : busTarget { s with script := rest } width addr = _ := busTarget_of_bufAccess hv hbuf
  rw [step_host h]
  simp only [hostAct, htgt]
  simp [hostWrite, hp]

theorem step_bufRead_idle (hp : s.pending = none)
    (h : HostActsNext s (.read width addr) rest) (hv : ValidAccess s width addr)
    (hbuf : 0x01000000 ≤ addr.toNat) :
    step s = .next { s with
      script := rest
      busData := BitVec.ofNat 64 (leValue (s.bytesAt (addr.toNat - 0x01000000) width)) } := by
  have htgt : busTarget { s with script := rest } width addr = _ := busTarget_of_bufAccess hv hbuf
  rw [step_host h]
  simp only [hostAct, htgt]
  simp [hostRead, hp, State.bytesAt, State.byteAt]

end

end Sys2Proof.Machine

namespace Sys2Proof.Proofs

open Sys2Proof.Machine Sys2Proof.Claims

/-- Settles O9: the bus target is defined exactly for the accesses that R83 allows. -/
theorem badAccessesAreRefused : Obligations.BadAccessesAreRefused := fun _ _ _ v _ =>
  ⟨step_access (.inl rfl), step_access (.inr ⟨v, rfl⟩)⟩

/-- Settles O10: the write stores the value's little-endian bytes, which the read puts together. -/
theorem hostBufWriteReadsBack : Obligations.HostBufWriteReadsBack := by
  intro s width addr v e₁ e₂ rest hp hscript hv hbuf
  have hwrite := step_bufWrite_idle hp ⟨e₁, hscript, .inl hp⟩ hv hbuf
  have hread := step_bufRead_idle
    (s := State.storeBytes { s with script := ⟨.read width addr, e₂⟩ :: rest }
      (addr.toNat - 0x01000000) (leBytes v width))
    hp ⟨e₂, rfl, .inl hp⟩ hv hbuf
  refine ⟨_, _, hwrite, hread, rfl, fun j hj => ?bytes, fun a ha => ?frame, rfl, ?value⟩
  case bytes =>
    rw [State.byteAt_storeBytes_of_mem _ (by rw [length_leBytes]; omega), Nat.add_sub_cancel_left,
      leBytes_getD_toNat v hj]
  case frame => exact State.byteAt_storeBytes_of_not_mem _ (by rwa [length_leBytes])
  case value =>
    have hback := State.bytesAt_storeBytes { s with script := ⟨.read width addr, e₂⟩ :: rest }
      (addr.toNat - 0x01000000) (leBytes v width)
    rw [length_leBytes] at hback
    have hlt : v.toNat % 2 ^ (8 * width) < 2 ^ 64 := (Nat.mod_le _ _).trans_lt v.isLt
    simp only [hback, leValue_leBytes, BitVec.toNat_ofNat, Nat.mod_eq_of_lt hlt]

end Sys2Proof.Proofs
end

section
/-! BUF's canonical form and range (20_memory.md R80, R88): every writer of BUF keeps them. -/

namespace Sys2Proof.Machine

/-! ## Commands -/

section
variable {s t : State} {i : Instr}

theorem Consumes.bufOk {d n : Nat} (h : Consumes d n s t) (hin : d + n ≤ s.bufSize)
    (hs : s.BufOk) : t.BufOk := by
  obtain ⟨-, -, -, -, hbuf⟩ := h
  exact hbuf hin hs

/-- R88, R141: a command stores bytes only where its pre-checks or its stream put them in BUF. -/
theorem Work.bufOk (h : Work s i t) (hs : s.BufOk) : t.BufOk := by
  cases h with
  | append _ _ h => exact h.bufOk hs
  | flush _ _ h => exact h.bufOk hs
  | getBits _ _ h => exact h.bufOk (Nat.zero_le _) hs
  | deserialize _ h => exact h.bufOk (Nat.zero_le _) hs
  | decode _ hdst h => exact h.bufOk hdst hs
  | store _ hdst l hl => exact hs.storeBytes (.inr (by omega))
  | _ => exact hs

/-- R318 item 4: the bytes a run-time error frees are bytes of BUF. -/
theorem State.BufOk.endRunError (hs : s.BufOk) (e : CmdError) (range : Option (Nat × Nat)) :
    (endRunError e range s).BufOk := by
  cases range with
  | none => exact hs
  | some r => exact hs.spoil r

theorem CommandEnd.bufOk (h : CommandEnd i s t) (hs : s.BufOk) : t.BufOk := by
  cases h with
  | ok d hd => exact hd.bufOk hs
  | pre e => exact hs
  | run e => exact hs.endRunError e (outputRange i s)

/-! ## The host -/

/-- R352 item 4: the bytes a soft reset frees are bytes of BUF. -/
theorem State.BufOk.softReset (hs : s.BufOk) : (softReset s).BufOk := by
  rw [State.BufOk, softReset_buf]
  cases s.abortedRange with
  | none => exact hs
  | some r => exact hs.spoil r

theorem State.BufOk.writeCtrl (hs : s.BufOk) (v : Word64) : (writeCtrl v s).BufOk := by
  unfold Machine.writeCtrl
  split_ifs
  · exact hs.softReset
  · exact hs

theorem State.BufOk.writeReg (hs : s.BufOk) (r : Reg) (v : Word64) : (writeReg r v s).BufOk := by
  cases r with
  | ctrl => exact hs.writeCtrl v
  | _ => exact hs

/-- R83: a host write that is no bus error stays in BUF. -/
theorem State.BufOk.hostAct {act : HostAction} (hs : s.BufOk) (h : hostAct act s = .next t) :
    t.BufOk := by
  rcases hostAct_cases h with ⟨v, n, script, rfl⟩ | ⟨a, width, v, -, hin, rfl⟩ | ⟨r, v, -, rfl⟩ |
    ⟨-, rfl⟩ | ⟨v, rfl⟩ | rfl
  · exact hs
  · exact hs.storeBytes (.inr (by rwa [length_leBytes]))
  · exact hs.writeReg r v
  · exact hs
  · exact hs.writeCtrl v
  · exact State.resetWith_bufOk s.aw

end

end Sys2Proof.Machine

namespace Sys2Proof.Proofs

open Sys2Proof.Machine

/-- Settles O22: a command's work and error ends, a host's store and the resets are the only
writers of BUF, and each stays below BUF_SIZE. -/
theorem bufFormKept : Obligations.BufFormKept := by
  intro s t hs h
  rcases step_cases h with ⟨-, -, rfl⟩ | ⟨e, rest, -, -, hact⟩ | ⟨c, i, -, -, -, hexec⟩ |
    ⟨c, e, -, -, -, rfl⟩
  · exact hs
  · exact State.BufOk.hostAct (s := { s with script := rest }) hs hact
  · exact (exec_end hexec).bufOk hs
  · exact hs

end Sys2Proof.Proofs
end

section
/-! The command word (30_encoding.md R110 to R116): its three fields determine it, a word decodes to
a command exactly when it is the encoding of that well-formed command, and the words that decode are
those of the opcode map. -/

namespace Sys2Proof

open Sys2Proof.Laws Sys2Proof.Claims

/-! ## The fields of a word (R110) -/

section
variable (c : Word64)

@[simp] theorem opcField_toNat : (opcField c).toNat = c.toNat % 256 := by
  simp [opcField]

@[simp] theorem immField_toNat : (immField c).toNat = c.toNat / 256 % 256 := by
  simp [immField, Nat.shiftRight_eq_div_pow]

theorem rsvField_toNat : (rsvField c).toNat = c.toNat / 2 ^ 16 := by
  have hc := c.isLt
  simp only [rsvField, BitVec.extractLsb'_toNat, Nat.shiftRight_eq_div_pow]
  omega

theorem rsvField_eq_zero_iff : rsvField c = 0#48 ↔ c.toNat / 2 ^ 16 = 0 := by
  rw [← BitVec.toNat_inj, rsvField_toNat, BitVec.toNat_zero]

end

/-- R110: OPC, IMM and RSV make up the whole word. -/
theorem word_ext {c d : Word64} (hopc : opcField c = opcField d) (himm : immField c = immField d)
    (hrsv : rsvField c = rsvField d) : c = d := by
  rw [← BitVec.toNat_inj, opcField_toNat, opcField_toNat] at hopc
  rw [← BitVec.toNat_inj, immField_toNat, immField_toNat] at himm
  rw [← BitVec.toNat_inj, rsvField_toNat, rsvField_toNat] at hrsv
  exact BitVec.eq_of_toNat_eq (by omega)

/-! ## The opcode map (R113) -/

theorem rowOf_opcode (i : Instr) : rowOf i.opcode i.imm = some i := by
  cases i <;> rfl

theorem opcode_of_rowOf {opc imm : Byte} {i : Instr} (h : rowOf opc imm = some i) :
    opc = i.opcode := by
  unfold rowOf at h
  split at h <;> cases h
  all_goals exact BitVec.eq_of_toNat_eq ‹_›

/-! ## Decoding and encoding (R116) -/

theorem encode_eq_iff {i : Instr} {c : Word64} :
    encode i = c ↔ opcField c = i.opcode ∧ immField c = i.imm ∧ rsvField c = 0#48 := by
  obtain ⟨hopc, himm, hrsv⟩ := EncodeFields.of_any i
  constructor
  · rintro rfl
    exact ⟨hopc, himm, hrsv⟩
  · rintro ⟨hopc', himm', hrsv'⟩
    exact word_ext (hopc.trans hopc'.symm) (himm.trans himm'.symm) (hrsv.trans hrsv'.symm)

/-- R113, R114: the three tests that a word passes when it decodes. -/
theorem decode_eq_ok_iff_rowOf {c : Word64} {i : Instr} :
    decode c = .ok i ↔ rowOf (opcField c) (immField c) = some i ∧ rsvField c = 0#48 ∧
      immField c = i.imm ∧ i.wellFormed = true := by
  unfold decode
  cases rowOf (opcField c) (immField c) with
  | none => simp
  | some j =>
    dsimp only
    split_ifs <;> grind

theorem decode_eq_ok_iff {c : Word64} {i : Instr} :
    decode c = .ok i ↔ i.wellFormed = true ∧ encode i = c := by
  rw [decode_eq_ok_iff_rowOf, encode_eq_iff]
  constructor
  · rintro ⟨hrow, hrsv, himm, hwf⟩
    exact ⟨hwf, opcode_of_rowOf hrow, himm, hrsv⟩
  · rintro ⟨hwf, hopc, himm, hrsv⟩
    exact ⟨by rw [hopc, himm, rowOf_opcode], hrsv, himm, hwf⟩

/-! ## Legal words (R112 to R114) -/

/-- R112, R113: each opcode without an immediate has its row, which is well formed with IMM = 0. -/
theorem exists_rowOf_immFree : ∀ opc ∈ immFreeOpcodes, ∃ i ∈ rowOf (BitVec.ofNat 8 opc) 0#8,
    opc = i.opcode.toNat ∧ 0#8 = i.imm ∧ i.wellFormed = true := by
  decide

theorem legalImm_iff {opc imm : Byte} : LegalImm opc.toNat imm.toNat ↔
    ∃ i : Instr, i.wellFormed = true ∧ opc = i.opcode ∧ imm = i.imm := by
  constructor
  · rintro (⟨hopc, himm⟩ | ⟨hopc | hopc, himm⟩ | ⟨hopc, himm⟩ | hopc)
    · obtain ⟨i, -, hi, himm₀, hwf⟩ := exists_rowOf_immFree _ hopc
      exact ⟨i, hwf, BitVec.eq_of_toNat_eq hi, (BitVec.eq_of_toNat_eq himm).trans himm₀⟩
    · exact ⟨.bswPut imm, decide_eq_true himm, BitVec.eq_of_toNat_eq hopc, rfl⟩
    · exact ⟨.bsrGet imm, decide_eq_true himm, BitVec.eq_of_toNat_eq hopc, rfl⟩
    · exact ⟨.bsrOpen imm, decide_eq_true himm, BitVec.eq_of_toNat_eq hopc, rfl⟩
    · exact ⟨.hufCode imm, rfl, BitVec.eq_of_toNat_eq hopc, rfl⟩
  · rintro ⟨i, hwf, rfl, rfl⟩
    cases i with
    | bswPut n => exact .inr (.inl ⟨.inl rfl, of_decide_eq_true hwf⟩)
    | bsrGet n => exact .inr (.inl ⟨.inr rfl, of_decide_eq_true hwf⟩)
    | bsrOpen pad => exact .inr (.inr (.inl ⟨rfl, of_decide_eq_true hwf⟩))
    | hufCode b => exact .inr (.inr (.inr rfl))
    | _ => exact .inl ⟨by decide, rfl⟩

theorem exists_decode_iff_legalWord {c : Word64} : (∃ i, decode c = .ok i) ↔ LegalWord c := by
  rw [LegalWord, ← rsvField_eq_zero_iff, ← opcField_toNat, ← immField_toNat, legalImm_iff]
  simp only [decode_eq_ok_iff, encode_eq_iff]
  constructor
  · rintro ⟨i, hwf, hopc, himm, hrsv⟩
    exact ⟨hrsv, i, hwf, hopc, himm⟩
  · rintro ⟨hrsv, i, hwf, hopc, himm⟩
    exact ⟨i, hwf, hopc, himm, hrsv⟩

end Sys2Proof

namespace Sys2Proof.Machine

/-- R114: the engine ends a word that decodes to no command with IllegalCommand. -/
theorem step_illegal {s : State} {c : Word64} (hp : s.pending = some c)
    (hw : s.hostWaits = true) (hc : ¬∃ i, decode c = .ok i) :
    step s = .next (endPreError .illegalCommand s) := by
  cases hd : decode c with
  | ok i => exact absurd ⟨i, hd⟩ hc
  | error e => simp [step, machineStep, engineStep, hp, hw, hd]

end Sys2Proof.Machine

namespace Sys2Proof.Proofs

open Sys2Proof.Machine Sys2Proof.Claims

/-- Settles O1: a word decodes to a command exactly when it is the encoding of that well-formed
command. -/
theorem decodeEncodeAgree : Obligations.DecodeEncodeAgree :=
  ⟨fun _ hwf => decode_eq_ok_iff.2 ⟨hwf, rfl⟩, fun _ _ => decode_eq_ok_iff.1⟩

/-- Settles O2: each word is evaluated by the decoder. -/
theorem opcodeMapWords : Obligations.OpcodeMapWords := by
  unfold Obligations.OpcodeMapWords
  decide

/-- Settles O3: the legal fields are those of the encoding of some well-formed command. -/
theorem legalWordsDecode : Obligations.LegalWordsDecode := fun _ => exists_decode_iff_legalWord

/-- Settles O4: an illegal word does not decode, and then the engine's step is a pre-check error. -/
theorem illegalWordEndsWithError : Obligations.IllegalWordEndsWithError :=
  fun _ _ hp hw hc => step_illegal hp hw (mt exists_decode_iff_legalWord.1 hc)

end Sys2Proof.Proofs
end

section
/-! The bitstream family (41_bitstream.md): what an append to the open writer does where the bits
fit and where they do not, what a run-time error leaves (60_exceptions.md R318), and the bits that
the reader reads. -/

namespace Sys2Proof.Machine

open Sys2Proof.Claims

/-! ## Appending (R141) -/

section
variable {s : State} {bits : List Bool}

theorem State.appendBit_overflow (b : Bool) (hfull : 8 * s.wr.cap ≤ s.writerBits) :
    s.appendBit b = .error (.raise .outputOverflow) := if_pos hfull

/-- R41, R141: an append counts one bit, whatever the pending byte holds. -/
theorem State.writerBits_appendBit {t : State} {b : Bool} (h : s.appendBit b = .ok t) :
    t.writerBits = s.writerBits + 1 := by
  have hnb := s.wr.nb.isLt
  unfold State.appendBit at h
  split_ifs at h with hfull h7 hin <;> cases h
  · simp only [State.writerBits, Fin.val_zero]
    omega
  · have hnext : (s.wr.nb + 1).val = s.wr.nb.val + 1 := by
      rw [Fin.val_add, Fin.val_one]
      omega
    simp only [State.writerBits, hnext]
    omega

/-- R141: bits that the writer's range lacks room for end in OutputOverflow. -/
theorem State.appendBits_overflow (hbuf : s.wr.base + s.wr.cap ≤ s.bufSize) (hne : bits ≠ [])
    (hlack : 8 * s.wr.cap < s.writerBits + bits.length) :
    s.appendBits bits = .error (.raise .outputOverflow) := by
  induction bits generalizing s with
  | nil => exact absurd rfl hne
  | cons b bs ih =>
    rw [State.appendBits]
    by_cases hfull : 8 * s.wr.cap ≤ s.writerBits
    · rw [State.appendBit_overflow b hfull]
    · obtain ⟨u, hu⟩ := State.appendBit_fits b hbuf (by omega)
      have happ := Appended.of_appendBit hu
      have hcount := State.writerBits_appendBit hu
      rw [List.length_cons] at hlack
      rw [hu]
      refine ih (by rwa [happ.base, happ.cap, happ.bufSize]) ?_ (by rw [happ.cap]; omega)
      rintro rfl
      rw [List.length_nil] at hlack
      omega

/-- R141, R176: bits that fit are appended, and nothing else changes. -/
theorem State.appendBits_of_room (h : WriterHasRoom s bits.length) :
    ∃ t, s.appendBits bits = .ok t ∧ Appends s t bits := by
  obtain ⟨-, hbuf, hacc, hroom⟩ := h
  obtain ⟨t, ht⟩ := State.appendBits_fits hacc hbuf hroom
  obtain ⟨-, happ, -, -⟩ := State.appendBits_ok hacc ht
  exact ⟨t, ht, happ⟩

/-- R142: only the `n` low bits of the value count. -/
theorem State.put_mod (s : State) (v n : Nat) :
    s.put (v % 2 ^ n) n = s.appendBits (bitsOf v n) := by
  rw [State.put, bitsOf_mod v n n le_rfl]

theorem bitsOf_zero_left (n : Nat) : bitsOf 0 n = List.replicate n false := by
  induction n with
  | zero => rfl
  | succ n ih => rw [bitsOf, Nat.zero_testBit, ih, List.replicate_succ]

/-- R146: the bits of a flush are zeros. -/
theorem State.put_zero (s : State) (n : Nat) :
    s.put 0 n = s.appendBits (List.replicate n false) := by
  rw [State.put, bitsOf_zero_left]

/-- R146: the pad completes the pending byte, so it fits wherever the bits before it did. -/
theorem writerHasRoom_flush (h : WriterHasRoom s 0) :
    WriterHasRoom s (List.replicate s.flushPad false).length := by
  obtain ⟨hopen, hbuf, hacc, hroom⟩ := h
  refine ⟨hopen, hbuf, hacc, ?_⟩
  rw [List.length_replicate, State.flushPad]
  omega

/-- R146: a flushed stream ends at a byte boundary. -/
theorem cnt_flush {u : State} (h : Appends s u (List.replicate s.flushPad false)) :
    u.wr.cnt = (8 * s.wr.cnt + s.wr.nb.val + 7) / 8 := by
  rw [h.cnt, List.length_replicate, State.writerBits, State.flushPad]
  omega

end

/-! ## Run-time errors (R318) -/

/-- R318 item 4: the output bytes of a command that raises run-time errors are those it spoils. -/
theorem outsideOutput_of_not_spoiled {i : Instr} {s : State} {a : Nat} (hi : runCodes i ≠ [])
    (ha : ¬SpoiledByte i s a) : OutsideOutput i s a := by
  rintro ⟨base, len⟩ hr hmem
  refine ha ?_
  cases i with
  | hufDec | lz77Dec | lz78Dec =>
    cases hr
    exact .inl ⟨by simp, hmem⟩
  | bswPut | hufSerial | hufEnc | lz77Enc | lz78Enc =>
    obtain ⟨-, rfl, rfl⟩ : s.wr.isOpen = true ∧ s.wr.base = base ∧ s.wr.cap = len := by
      simpa [outputRange] using hr
    exact .inr ⟨by simp, hmem⟩
  | hufDeser => cases hr
  | _ => exact absurd rfl hi

/-- R318: what a run-time error leaves unchanged, for every command that raises one. -/
theorem runErrorEnds_endRunError {i : Instr} {s : State} (hi : runCodes i ≠ []) (e : CmdError) :
    RunErrorEnds i s (endRunError e (outputRange i s) s) :=
  ⟨rfl, rfl, rfl, rfl, fun _ ha => endRunError_byteAt (outsideOutput_of_not_spoiled hi ha)⟩

/-! ## Reading (R143) -/

/-- R140, R143: the bits that lie ahead in the stream are those the reader reads. -/
theorem State.nextBits_eq {s : State} {bits : List Bool} (h : NextBitsAre s bits) :
    s.nextBits bits.length = bits := by
  obtain ⟨-, hbits⟩ := h
  refine List.ext_getElem (s.length_nextBits _) fun j _ hj => ?_
  simp [State.nextBits, State.streamBit, hbits j hj]

/-- R143: `get` on a stream whose next bits are known. -/
theorem State.get_of_nextBits {s : State} {bits : List Bool} (e : CmdError) (hin : ReaderInBuf s)
    (h : NextBitsAre s bits) : s.get bits.length e =
      .ok (ofBits bits, { s with rd := { s.rd with pos := s.rd.pos + bits.length } }) := by
  obtain ⟨-, hbuf, hstop⟩ := hin
  have hbits := State.nextBits_eq h
  obtain ⟨hlast, -⟩ := h
  rw [State.get_fits _ e hbuf hstop hlast, hbits]

/-! ## The pre-checks (R316) -/

section
variable {c : Bool × CmdError} {rest : List (Bool × CmdError)} {r : Option CmdError}

theorem firstError_of_pass (h : c.1 = true) (hr : firstError rest = r) :
    firstError (c :: rest) = r := by
  rw [← hr]
  exact if_pos h

theorem firstError_of_fail (h : ¬c.1 = true) : firstError (c :: rest) = some c.2 := if_neg h

end

theorem checkSrc_iff (s : State) : (checkSrc s).1 = true ↔ SourceInBuf s := decide_eq_true_iff
theorem checkDst_iff (s : State) : (checkDst s).1 = true ↔ DestInBuf s := decide_eq_true_iff

theorem checkImm_bswPut (n : Byte) : (checkImm (.bswPut n)).1 = true ↔ n.toNat ≤ 64 :=
  decide_eq_true_iff
theorem checkImm_bsrGet (n : Byte) : (checkImm (.bsrGet n)).1 = true ↔ n.toNat ≤ 64 :=
  decide_eq_true_iff
theorem checkImm_bsrOpen (pad : Byte) : (checkImm (.bsrOpen pad)).1 = true ↔ pad.toNat ≤ 7 :=
  decide_eq_true_iff

/-! ## The commands that write bits (R144 to R146) -/

section
variable {s : State}

theorem execBswOpen_opens (hdst : DestInBuf s) : execBswOpen s = .next { finish s 0 0 0 with
    wr := ⟨true, s.dstAddr.toNat, s.dstCap.toNat, 0, 0#8, 0, s.wr.pad⟩ } :=
  runCommand_ok (d := ⟨s.openWriter, 0, 0, 0⟩)
    (firstError_of_pass ((checkDst_iff s).2 hdst) rfl) rfl

theorem execBswOpen_badAddress (hdst : ¬DestInBuf s) :
    execBswOpen s = .next (failWith s 0x11#8) :=
  runCommand_pre (e := .badAddress) (firstError_of_fail (mt (checkDst_iff s).1 hdst))

/-- R146: a flush appends zeros up to the byte boundary, and the stream then has whole bytes. -/
theorem execBswFlush_pads (hroom : WriterHasRoom s 0) :
    ∃ u, Appends s u (List.replicate s.flushPad false) ∧
      execBswFlush s = .next
        { finish u ((8 * s.wr.cnt + s.wr.nb.val + 7) / 8) s.flushPad 0 with
          wr := { u.wr with pad := Fin.ofNat 8 s.flushPad } } := by
  have hopen := hroom.1
  obtain ⟨u, hu, happ⟩ := State.appendBits_of_room (writerHasRoom_flush hroom)
  refine ⟨u, happ, ?_⟩
  rw [← cnt_flush happ]
  refine runCommand_ok (firstError_of_pass hopen rfl)
    (d := ⟨{ u with wr := { u.wr with pad := Fin.ofNat 8 s.flushPad } }, u.wr.cnt,
      s.flushPad, 0⟩) ?_
  rw [State.put_zero, hu]
  rfl

theorem execBswFlush_notOpen (hclosed : s.wr.isOpen = false) :
    execBswFlush s = .next (failWith s 0x13#8) :=
  runCommand_pre (e := .streamNotOpen) (firstError_of_fail (Bool.eq_false_iff.1 hclosed))

theorem execBswPut_illegal {n : Byte} (hn : 64 < n.toNat) :
    execBswPut n s = .next (failWith s 0x10#8) :=
  runCommand_pre (e := .illegalCommand)
    (firstError_of_fail (mt (checkImm_bswPut n).1 (Nat.not_le.2 hn)))

section
variable {n : Byte} (hn : n.toNat ≤ 64)
include hn

theorem execBswPut_notOpen (hclosed : s.wr.isOpen = false) :
    execBswPut n s = .next (failWith s 0x13#8) :=
  runCommand_pre (e := .streamNotOpen)
    (firstError_of_pass ((checkImm_bswPut n).2 hn)
      (firstError_of_fail (Bool.eq_false_iff.1 hclosed)))

/-- R145: the bits that fit are appended. -/
theorem execBswPut_appends (hroom : WriterHasRoom s n.toNat) :
    ∃ t, execBswPut n s = .next t ∧
      AppendEnds s t (bitsOf s.bsData.toNat n.toNat) n.toNat 0 0 := by
  have hopen := hroom.1
  obtain ⟨u, hu, happ⟩ := State.appendBits_of_room (bits := bitsOf s.bsData.toNat n.toNat)
    (by rwa [length_bitsOf])
  refine ⟨finish u n.toNat 0 0, runCommand_ok (d := ⟨u, n.toNat, 0, 0⟩) ?_ ?_, u, happ, rfl⟩
  · exact firstError_of_pass ((checkImm_bswPut n).2 hn) (firstError_of_pass hopen rfl)
  · rw [State.put_mod, hu]
    rfl

/-- R145, R318: bits that do not fit end in a run-time error. -/
theorem execBswPut_overflow (hopen : s.wr.isOpen = true)
    (hbuf : s.wr.base + s.wr.cap ≤ s.bufSize) (hpos : 0 < n.toNat)
    (hlack : 8 * s.wr.cap < s.writerBits + n.toNat) : RunFails (.bswPut n) s 0x12#8 := by
  have hover := State.appendBits_overflow (bits := bitsOf s.bsData.toNat n.toNat) hbuf
    (List.ne_nil_of_length_pos (by rwa [length_bitsOf])) (by rwa [length_bitsOf])
  have hend : execBswPut n s =
      .next (endRunError .outputOverflow (outputRange (.bswPut n) s) s) := by
    refine runCommand_run ?_ ?_
    · exact firstError_of_pass ((checkImm_bswPut n).2 hn) (firstError_of_pass hopen rfl)
    · rw [State.put_mod, hover]
      rfl
  exact ⟨_, hend, rfl, runErrorEnds_endRunError (by simp [runCodes]) _⟩

end

/-! ## The commands that read bits (R147 to R149) -/

theorem execBsrOpen_illegal {pad : Byte} (hpad : 7 < pad.toNat) :
    execBsrOpen pad s = .next (failWith s 0x10#8) :=
  runCommand_pre (e := .illegalCommand)
    (firstError_of_fail (mt (checkImm_bsrOpen pad).1 (Nat.not_le.2 hpad)))

section
variable {pad : Byte} (hpad : pad.toNat ≤ 7)
include hpad

theorem execBsrOpen_badAddress (hsrc : ¬SourceInBuf s) :
    execBsrOpen pad s = .next (failWith s 0x11#8) :=
  runCommand_pre (e := .badAddress) (firstError_of_pass ((checkImm_bsrOpen pad).2 hpad)
    (firstError_of_fail (mt (checkSrc_iff s).1 hsrc)))

theorem execBsrOpen_corrupt (hsrc : SourceInBuf s) (hlen : 8 * s.srcLen.toNat < pad.toNat) :
    execBsrOpen pad s = .next (failWith s 0x07#8) :=
  runCommand_pre (e := .corruptStream) (firstError_of_pass ((checkImm_bsrOpen pad).2 hpad)
    (firstError_of_pass ((checkSrc_iff s).2 hsrc)
      (firstError_of_fail (mt of_decide_eq_true (Nat.not_le.2 hlen)))))

theorem execBsrOpen_opens (hsrc : SourceInBuf s) (hlen : pad.toNat ≤ 8 * s.srcLen.toNat) :
    execBsrOpen pad s = .next { finish s (8 * s.srcLen.toNat - pad.toNat) 0 0 with
      rd := ⟨true, s.srcAddr.toNat, s.srcLen.toNat, 8 * s.srcLen.toNat - pad.toNat, 0⟩ } :=
  runCommand_ok (d := ⟨s.openReader pad.toNat, 8 * s.srcLen.toNat - pad.toNat, 0, 0⟩)
    (firstError_of_pass ((checkImm_bsrOpen pad).2 hpad)
      (firstError_of_pass ((checkSrc_iff s).2 hsrc)
        (firstError_of_pass (decide_eq_true hlen) rfl))) rfl

end

theorem execBsrGet_illegal {n : Byte} (hn : 64 < n.toNat) :
    execBsrGet n s = .next (failWith s 0x10#8) :=
  runCommand_pre (e := .illegalCommand)
    (firstError_of_fail (mt (checkImm_bsrGet n).1 (Nat.not_le.2 hn)))

section
variable {n : Byte} (hn : n.toNat ≤ 64)
include hn

theorem execBsrGet_notOpen (hclosed : s.rd.isOpen = false) :
    execBsrGet n s = .next (failWith s 0x13#8) :=
  runCommand_pre (e := .streamNotOpen)
    (firstError_of_pass ((checkImm_bsrGet n).2 hn)
      (firstError_of_fail (Bool.eq_false_iff.1 hclosed)))

theorem execBsrGet_insufficient (hopen : s.rd.isOpen = true)
    (hlack : s.rd.stop < s.rd.pos + n.toNat) : execBsrGet n s = .next (failWith s 0x08#8) :=
  runCommand_pre (e := .insufficientData)
    (firstError_of_pass ((checkImm_bsrGet n).2 hn) (firstError_of_pass hopen
      (firstError_of_fail (mt of_decide_eq_true (Nat.not_le.2 hlack)))))

/-- R148: the bits read are those ahead in the stream. -/
theorem execBsrGet_reads {bits : List Bool} (hin : ReaderInBuf s) (hlen : bits.length = n.toNat)
    (hbits : NextBitsAre s bits) : execBsrGet n s = .next { finish s n.toNat 0 0 with
      bsData := BitVec.ofNat 64 (ofBits bits)
      rd := { s.rd with pos := s.rd.pos + n.toNat } } := by
  have hopen := hin.1
  have hlast := hbits.1
  have hget := State.get_of_nextBits .insufficientData hin hbits
  rw [hlen] at hlast hget
  refine runCommand_ok (d := ⟨{ s with
    bsData := BitVec.ofNat 64 (ofBits bits)
    rd := { s.rd with pos := s.rd.pos + n.toNat } }, n.toNat, 0, 0⟩) ?_ ?_
  · exact firstError_of_pass ((checkImm_bsrGet n).2 hn)
      (firstError_of_pass hopen (firstError_of_pass (decide_eq_true hlast) rfl))
  · rw [hget]
    rfl

end

theorem execBsrAlign_aligns (hopen : s.rd.isOpen = true) :
    execBsrAlign s = .next { finish s (s.alignedPos - s.rd.pos) 0 0 with
      rd := { s.rd with pos := s.alignedPos } } :=
  runCommand_ok
    (d := ⟨{ s with rd := { s.rd with pos := s.alignedPos } }, s.alignedPos - s.rd.pos, 0, 0⟩)
    (firstError_of_pass hopen rfl) rfl

theorem execBsrAlign_notOpen (hclosed : s.rd.isOpen = false) :
    execBsrAlign s = .next (failWith s 0x13#8) :=
  runCommand_pre (e := .streamNotOpen) (firstError_of_fail (Bool.eq_false_iff.1 hclosed))

end

end Sys2Proof.Machine

namespace Sys2Proof

/-- R110, R116: the value of a command word. -/
theorem encode_toNat (i : Instr) : (encode i).toNat = i.opcode.toNat + 2 ^ 8 * i.imm.toNat := by
  rw [encode, Machine.toNat_append_eq, Machine.toNat_append_eq, BitVec.toNat_zero]
  omega

end Sys2Proof

namespace Sys2Proof.Proofs

open Sys2Proof.Machine Sys2Proof.Claims

/-- Settles O30: the range is the only pre-check. -/
theorem bswOpenOpensWriter : Obligations.BswOpenOpensWriter :=
  ⟨by decide, fun _ => ⟨execBswOpen_opens, execBswOpen_badAddress⟩⟩

/-- Settles O31: the bits that fit are appended; the first that does not fit is the overflow, at
whatever count the writer stood. -/
theorem bswPutAppendsBits : Obligations.BswPutAppendsBits :=
  ⟨fun _ _ hn hroom => execBswPut_appends hn hroom,
    fun _ _ hn hopen hbuf hlack hpos => execBswPut_overflow hn hopen (hbuf.1 hopen) hpos hlack,
    fun _ _ => ⟨execBswPut_illegal, execBswPut_notOpen⟩⟩

/-- Settles O32: the pad is the zeros up to the byte boundary, which lies within the capacity. -/
theorem bswFlushPadsWithZeros : Obligations.BswFlushPadsWithZeros := by
  refine ⟨fun s hroom => ?_, fun _ => execBswFlush_notOpen⟩
  obtain ⟨u, happ, hend⟩ := execBswFlush_pads hroom
  exact ⟨_, u, hend, happ, rfl⟩

/-- Settles O33: each clause passes the checks before the one it names. -/
theorem bsrOpenOpensReader : Obligations.BsrOpenOpensReader := fun _ _ =>
  ⟨encode_toNat _, execBsrOpen_opens, execBsrOpen_illegal, execBsrOpen_badAddress,
    execBsrOpen_corrupt⟩

/-- Settles O34: within the stream `get` reads the bits ahead, and its room is a pre-check. -/
theorem bsrGetReadsBits : Obligations.BsrGetReadsBits := fun _ _ =>
  ⟨encode_toNat _, fun _ hn => execBsrGet_reads hn, execBsrGet_illegal, execBsrGet_notOpen,
    execBsrGet_insufficient⟩

/-- Settles O35: the target is the next multiple of 8, or R.end where that is nearer. -/
theorem bsrAlignSkips : Obligations.BsrAlignSkips :=
  ⟨by decide, fun _ => ⟨fun hopen _ => execBsrAlign_aligns hopen, execBsrAlign_notOpen⟩⟩

end Sys2Proof.Proofs
end

section
/-! The Huffman commands that read their tables as functions of a byte (42_huffman.md R170, R173,
R175, R176, R179): which bytes a filter of `allBytes` keeps, the largest length, the loop that
assigns the codes, and the two commands that append them. -/

namespace Sys2Proof.Machine

open Sys2Proof.Claims

/-! ## The byte values in ascending order -/

@[simp] theorem mem_allBytes (b : Byte) : b ∈ allBytes :=
  List.mem_map.2 ⟨b.toNat, List.mem_range.2 b.isLt, by simp⟩

/-- The byte values split at any one of them. -/
theorem allBytes_split (b : Byte) :
    allBytes = allBytes.take b.toNat ++ b :: allBytes.drop (b.toNat + 1) := by
  have hlt : b.toNat < allBytes.length := length_allBytes ▸ b.isLt
  have hget : allBytes[b.toNat] = b := by simp [allBytes]
  conv_lhs => rw [← List.take_append_drop b.toNat allBytes, List.drop_eq_getElem_cons hlt, hget]

theorem mem_coded {c : Vector Byte 256} {b : Byte} : b ∈ coded c ↔ 0 < lenOf c b := by
  simp [coded]

theorem length_coded_le (c : Vector Byte 256) : (coded c).length ≤ 256 :=
  length_allBytes ▸ List.length_filter_le _ _

theorem State.mem_symbols {s : State} {b : Byte} : b ∈ s.symbols ↔ 0 < s.freqOf b := by
  simp [State.symbols]

/-! ## The largest length (R171, R177) -/

theorem max?_map_lenOf (c : Vector Byte 256) :
    (allBytes.map (lenOf c)).max? = some (maxLen c) := by
  have hmem : lenOf c 0#8 ∈ allBytes.map (lenOf c) := List.mem_map_of_mem (mem_allBytes _)
  obtain ⟨m, hm⟩ := Option.isSome_iff_exists.1 (List.isSome_max?_of_mem hmem)
  rw [maxLen, List.foldl_max, hm]
  simp

theorem lenOf_le_maxLen (c : Vector Byte 256) (b : Byte) : lenOf c b ≤ maxLen c :=
  (List.max?_eq_some_iff.1 (max?_map_lenOf c)).2 _ (List.mem_map_of_mem (mem_allBytes b))

theorem exists_lenOf_eq_maxLen (c : Vector Byte 256) : ∃ b, lenOf c b = maxLen c := by
  obtain ⟨b, -, hb⟩ := List.mem_map.1 (List.max?_eq_some_iff.1 (max?_map_lenOf c)).1
  exact ⟨b, hb⟩

/-! ## HUF_COUNT (R170) -/

/-- R170: no count overflows its entry. -/
theorem freqOf_countTable {s : State} {src : List Byte} (hsrc : src.length < 2 ^ 64)
    (hs : s.freq = countTable src) (b : Byte) : s.freqOf b = src.count b := by
  have hlt : src.count b < 2 ^ 64 := List.count_le_length.trans_lt hsrc
  have hget : s.freqOf b = src.count b % 2 ^ 64 := by simp [State.freqOf, hs, countTable]
  rw [hget, Nat.mod_eq_of_lt hlt]

/-- R12, R303: the bytes of the source that are `b`. -/
theorem State.count_source (s : State) (b : Byte) : s.source.count b =
    ((List.range s.srcLen.toNat).filter fun j =>
      decide (s.byteAt (s.srcAddr.toNat + j) = b)).length := by
  rw [← List.countP_eq_length_filter, State.source, State.bytesAt, List.count, List.countP_map]
  rfl

theorem execHufCount_counts {s : State} (hsrc : SourceInBuf s) :
    execHufCount s = .next (finish { s with freq := countTable s.source }
      (symbolCount { s with freq := countTable s.source }) s.srcLen.toNat 0) :=
  runCommand_ok (d := ⟨{ s with freq := countTable s.source }, _, _, 0⟩)
    (firstError_of_pass ((checkSrc_iff s).2 hsrc) rfl) rfl

theorem execHufCount_badAddress {s : State} (hsrc : ¬SourceInBuf s) :
    execHufCount s = .next (failWith s 0x11#8) :=
  runCommand_pre (e := .badAddress) (firstError_of_fail (mt (checkSrc_iff s).1 hsrc))

/-! ## HUF_CODE (R179) -/

theorem execHufCode_coded {s : State} {b : Byte} (hb : 0 < lenOf s.clen b) :
    execHufCode b s = .next (finish s (codeOf s.clen b) (lenOf s.clen b) 0) :=
  runCommand_ok (d := ⟨s, codeOf s.clen b, lenOf s.clen b, 0⟩) (firstError_of_pass rfl rfl)
    (congrArg Except.ok (if_pos hb))

theorem execHufCode_uncoded {s : State} {b : Byte} (hb : lenOf s.clen b = 0) :
    execHufCode b s = .next (finish s 0 0 0) :=
  runCommand_ok (d := ⟨s, 0, 0, 0⟩) (firstError_of_pass rfl rfl)
    (congrArg Except.ok (if_neg hb.not_gt))

/-! ## The canonical codes by the loop of R175 -/

/-- R175: where the loop reaches `b`, `next` has been incremented once for each earlier symbol of
the same length. -/
theorem lookup_assignCodes {c : Vector Byte 256} {b : Byte} (hb : 0 < lenOf c b)
    (next : Nat → Nat) {before : List Byte} (after : List Byte) (hnot : b ∉ before) :
    (assignCodes c next (before ++ b :: after)).lookup b =
      some (next (lenOf c b) +
        (before.filter fun x => decide (lenOf c x = lenOf c b)).length) := by
  induction before generalizing next with
  | nil => simp [assignCodes, hb.ne']
  | cons x xs ih =>
    obtain ⟨hne, hxs⟩ : b ≠ x ∧ b ∉ xs := by simpa using hnot
    rw [List.cons_append, assignCodes]
    split_ifs with hx
    · rw [ih _ hxs, List.filter_cons_of_neg (by simp [hx, hb.ne])]
    · rw [List.lookup_cons, beq_eq_false_iff_ne.2 hne, ih _ hxs]
      by_cases hlen : lenOf c x = lenOf c b
      · simp [hlen]
        omega
      · simp [hlen, Ne.symm hlen]

/-- R175: the closed form of CODE is what the loop assigns. -/
theorem lookup_assignCodes_allBytes {c : Vector Byte 256} {b : Byte} (hb : 0 < lenOf c b) :
    (assignCodes c (firstCode c) allBytes).lookup b = some (codeOf c b) := by
  have hnodup := nodup_allBytes
  rw [allBytes_split b] at hnodup
  have hnot : b ∉ allBytes.take b.toNat := fun hmem =>
    List.disjoint_of_nodup_append hnodup hmem List.mem_cons_self
  conv_lhs => rw [allBytes_split b]
  exact lookup_assignCodes hb _ _ hnot

/-! ## HUF_SERIAL (R173) -/

theorem length_pairBits (ps : List (Byte × Byte)) : (pairBits ps).length = 16 * ps.length := by
  simp [pairBits, List.length_flatMap, Nat.mul_comm]

/-- R173: the pairs of a symbol and its length that a table's serialization holds. -/
def tablePairs (c : Vector Byte 256) : List (Byte × Byte) :=
  (coded c).map fun b => (b, c.get b.toFin)

theorem tableBits_eq (c : Vector Byte 256) :
    tableBits c = bitsOf (coded c).length 16 ++ pairBits (tablePairs c) := by
  simp [tableBits, pairBits, tablePairs, List.flatMap_map, lenOf]

theorem length_tableBits (c : Vector Byte 256) :
    (tableBits c).length = 16 + 16 * (coded c).length := by
  simp [tableBits_eq, length_pairBits, tablePairs]

section
variable {s : State}

theorem execHufSerial_appends (hroom : WriterHasRoom s (16 + 16 * (coded s.clen).length)) :
    ∃ t, execHufSerial s = .next t ∧ AppendEnds s t (tableBits s.clen) (coded s.clen).length
      (16 + 16 * (coded s.clen).length) 0 := by
  have hopen := hroom.1
  obtain ⟨u, hu, happ⟩ := State.appendBits_of_room (bits := tableBits s.clen)
    (by rwa [length_tableBits])
  refine ⟨finish u (coded s.clen).length (16 + 16 * (coded s.clen).length) 0,
    runCommand_ok (d := ⟨u, _, _, 0⟩) (firstError_of_pass hopen rfl) ?_, u, happ, rfl⟩
  rw [hu]
  rfl

theorem execHufSerial_notOpen (hclosed : s.wr.isOpen = false) :
    execHufSerial s = .next (failWith s 0x13#8) :=
  runCommand_pre (e := .streamNotOpen) (firstError_of_fail (Bool.eq_false_iff.1 hclosed))

/-- R141: bits that do not fit where the writer is well formed. -/
theorem State.appendBits_of_lacks {bits : List Bool} (h : WriterLacks s bits.length) :
    s.appendBits bits = .error (.raise .outputOverflow) := by
  obtain ⟨⟨-, hbuf, -, hroom⟩, hlack⟩ := h
  refine State.appendBits_overflow hbuf ?_ hlack
  rintro rfl
  exact absurd hroom (Nat.not_le.2 hlack)

theorem execHufSerial_overflow (hlack : WriterLacks s (16 + 16 * (coded s.clen).length)) :
    RunFails .hufSerial s 0x12#8 := by
  have hopen := hlack.1.1
  have hover := State.appendBits_of_lacks (bits := tableBits s.clen) (by rwa [length_tableBits])
  have hend : execHufSerial s =
      .next (endRunError .outputOverflow (outputRange .hufSerial s) s) := by
    refine runCommand_run (firstError_of_pass hopen rfl) ?_
    rw [hover]
    rfl
  exact ⟨_, hend, rfl, runErrorEnds_endRunError (by simp [runCodes]) _⟩

/-! ## HUF_ENC (R176) -/

@[simp] theorem length_codeBits (c : Vector Byte 256) (b : Byte) :
    (codeBits c b).length = lenOf c b := length_bitsOf _ _

/-- R176: the encoder on coded bytes followed by others. -/
theorem hufEncode_append {c : Vector Byte 256} {xs : List Byte} (ys : List Byte) {bits : Nat}
    (hxs : ∀ b ∈ xs, 0 < lenOf c b) : hufEncode c (xs ++ ys) bits s =
      s.appendBits (xs.flatMap (codeBits c)) >>=
        hufEncode c ys (bits + (xs.flatMap (codeBits c)).length) := by
  induction xs generalizing bits s with
  | nil => rfl
  | cons b bs ih =>
    obtain ⟨hb, hbs⟩ := List.forall_mem_cons.1 hxs
    rw [List.cons_append, hufEncode, if_neg hb.ne', List.flatMap_cons, State.appendBits_append,
      List.length_append, length_codeBits, ← Nat.add_assoc]
    show (s.appendBits (codeBits c b) >>= _) = _
    cases s.appendBits (codeBits c b) with
    | error x => rfl
    | ok t => exact ih hbs

theorem not_overlap_iff {a n b m : Nat} : (!overlap a n b m) = true ↔ ¬Overlapping a n b m := by
  rw [Bool.not_eq_true', overlap, decide_eq_false_iff_not]
  rfl

/-- R88, R316: an encoder that is ready passes its pre-checks. -/
theorem firstError_encoderChecks (h : EncoderReady s) : firstError (encoderChecks s) = none := by
  obtain ⟨hopen, hsrc, hover⟩ := h
  exact firstError_of_pass hopen (firstError_of_pass ((checkSrc_iff s).2 hsrc)
    (firstError_of_pass (not_overlap_iff.2 hover) rfl))

theorem execHufEnc_appends (hready : EncoderReady s) (hcoded : ∀ b ∈ s.source, 0 < lenOf s.clen b)
    (hroom : WriterHasRoom s (s.source.flatMap (codeBits s.clen)).length) :
    ∃ t, execHufEnc s = .next t ∧ AppendEnds s t (s.source.flatMap (codeBits s.clen))
      (s.source.flatMap (codeBits s.clen)).length s.srcLen.toNat 0 := by
  obtain ⟨u, hu, happ⟩ := State.appendBits_of_room hroom
  have henc := hufEncode_append (s := s) (bits := 0) [] hcoded
  rw [List.append_nil, hu, Nat.zero_add] at henc
  refine ⟨finish u _ _ 0, runCommand_ok (d := ⟨u, _, _, 0⟩) (firstError_encoderChecks hready) ?_,
    u, happ, rfl⟩
  rw [henc]
  rfl

/-- R318: HUF_ENC raises what its encoder raises. -/
theorem execHufEnc_fails {e : CmdError} (hready : EncoderReady s)
    (henc : hufEncode s.clen s.source 0 s = .error (.raise e)) : RunFails .hufEnc s e.code := by
  have hend : execHufEnc s = .next (endRunError e (outputRange .hufEnc s) s) := by
    refine runCommand_run (firstError_encoderChecks hready) ?_
    rw [henc]
    rfl
  exact ⟨_, hend, rfl, runErrorEnds_endRunError (by simp [runCodes]) _⟩

section
variable {xs ys : List Byte} (hready : EncoderReady s) (hxs : ∀ b ∈ xs, 0 < lenOf s.clen b)
include hready hxs

theorem execHufEnc_missing {b : Byte} (hsrc : s.source = xs ++ b :: ys)
    (hb : lenOf s.clen b = 0) (hroom : WriterHasRoom s (xs.flatMap (codeBits s.clen)).length) :
    RunFails .hufEnc s 0x14#8 := by
  obtain ⟨u, hu, -⟩ := State.appendBits_of_room hroom
  refine execHufEnc_fails (e := .symbolNotInTable) hready ?_
  rw [hsrc, hufEncode_append _ hxs, hu]
  exact if_pos hb

theorem execHufEnc_overflow (hsrc : s.source = xs ++ ys)
    (hlack : WriterLacks s (xs.flatMap (codeBits s.clen)).length) :
    RunFails .hufEnc s 0x12#8 := by
  refine execHufEnc_fails (e := .outputOverflow) hready ?_
  rw [hsrc, hufEncode_append _ hxs, State.appendBits_of_lacks hlack]
  rfl

end

end

end Sys2Proof.Machine

namespace Sys2Proof.Proofs

open Sys2Proof.Machine Sys2Proof.Claims

/-- Settles O36: each entry is the count of its byte, which fits 64 bits as SRC_LEN does. -/
theorem hufCountCounts : Obligations.HufCountCounts := by
  refine ⟨by decide, fun s =>
    ⟨fun hsrc => ⟨_, execHufCount_counts hsrc, fun b => ?_, rfl⟩, execHufCount_badAddress⟩⟩
  rw [← s.count_source b]
  exact freqOf_countTable (by simpa [State.source] using s.srcLen.isLt) rfl b

/-- Settles O40: the table is one string of bits, whose length the obligation writes out. -/
theorem hufSerialAppendsTable : Obligations.HufSerialAppendsTable := by
  refine ⟨?_, fun _ => execHufSerial_notOpen, ?_⟩
  · rintro s _ rfl hroom
    exact execHufSerial_appends hroom
  · rintro s _ rfl hlack
    exact execHufSerial_overflow hlack

/-- Settles O43: the loop increments `next` once for each earlier symbol of the same length. -/
theorem canonicalCodesFollowTheLoop : Obligations.CanonicalCodesFollowTheLoop := fun _ _ =>
  ⟨rfl, rfl, fun _ => rfl, fun _ hl => if_neg hl.ne', lookup_assignCodes_allBytes⟩

/-- Settles O44: the codes of the bytes before the error are appended as one string of bits. -/
theorem hufEncAppendsCodes : Obligations.HufEncAppendsCodes := by
  refine ⟨?_, fun _ _ _ _ hsrc hready hxs => execHufEnc_missing hready hxs hsrc,
    fun _ _ _ hsrc hready hxs => execHufEnc_overflow hready hxs hsrc⟩
  rintro s _ rfl hready hcoded hroom
  exact execHufEnc_appends hready hcoded hroom

/-- Settles O46: the only pre-check of HUF_CODE passes for every symbol. -/
theorem hufCodeReports : Obligations.HufCodeReports := fun _ _ =>
  ⟨encode_toNat _, execHufCode_coded, execHufCode_uncoded⟩

end Sys2Proof.Proofs
end

section
/-! HUF_BUILD (42_huffman.md R171, R172, R180): the queue's merges as the relation that claims use,
the (symbol, length) pairs of its tree, and why a root of greater weight never ends deeper. -/

namespace Sys2Proof.Claims

/-! ## The order of the roots (R171) -/

theorem Root.NotAfter.refl (a : Root) : a.NotAfter a := .inr ⟨rfl, Nat.le_refl _⟩

theorem Root.NotAfter.trans {a b c : Root} (hab : a.NotAfter b) (hbc : b.NotAfter c) :
    a.NotAfter c := by
  unfold Root.NotAfter at *
  omega

theorem Root.NotAfter.total (a b : Root) : a.NotAfter b ∨ b.NotAfter a := by
  unfold Root.NotAfter
  omega

theorem Root.NotAfter.weight_le {a b : Root} (h : a.NotAfter b) : a.weight ≤ b.weight := by
  unfold Root.NotAfter at h
  omega

/-! ## The symbols of merged roots (R171) -/

theorem MergesTo.symbols_perm {next : Nat} {q : List Root} {r : Root} (h : MergesTo next q r) :
    (r.depths.map Prod.fst).Perm (q.flatMap fun x => x.depths.map Prod.fst) := by
  induction h with
  | single => simp
  | round next q q' a b r hperm _ _ _ ih =>
    refine ih.trans (.trans ?_ (hperm.flatMap_right _).symm)
    simp [Root.join, Function.comp_def]

/-! ## Where the roots of a queue end (R180)

A root taken later from the queue never ends deeper. The merge of the two least roots joins the
queue with a key above theirs, which alone says too little of a root between the two; so the
invariant also bounds how much deeper that root can end. -/

/-- Every root of the queue `q` ends at a depth below `r`, as `At` says, the later the less deep. -/
structure EndsSorted (q : List Root) (r : Root) (At : Root → Nat → Prop) : Prop where
  total : ∀ x ∈ q, ∃ d, At x d
  mem : ∀ {x d}, At x d → x ∈ q
  leaves : ∀ {x d}, At x d → ∀ p ∈ x.depths, (p.1, p.2 + d) ∈ r.depths
  sorted : ∀ {x y d e}, At x d → At y e → ¬y.NotAfter x → e ≤ d
  close : ∀ {x y d e}, At x d → At y e → (∀ z ∈ q, x.weight ≤ y.weight + z.weight) → e ≤ d + 1

/-- The depths of a queue whose roots `a` and `b` were joined to a root that ends at depth `d₀`. -/
def unjoin (a b : Root) (q' : List Root) (d₀ : Nat) (At : Root → Nat → Prop) (x : Root) (d : Nat) :
    Prop :=
  (x = a ∨ x = b) ∧ d = d₀ + 1 ∨ x ∈ q' ∧ At x d

section
variable {next d₀ : Nat} {q q' : List Root} {a b r : Root} {At : Root → Nat → Prop}

/-- R171: one round of the merge, backwards. -/
theorem EndsSorted.unjoin (hperm : q.Perm (a :: b :: q')) (ha : ∀ x ∈ q, a.NotAfter x)
    (hb : ∀ x ∈ b :: q', b.NotAfter x) (hnext : ∀ x ∈ q, x.order < next)
    (h : EndsSorted (a.join b next :: q') r At) (hd₀ : At (a.join b next) d₀) :
    EndsSorted q r (unjoin a b q' d₀ At) := by
  have hab : a.weight ≤ b.weight := (ha b (hperm.mem_iff.2 (by simp))).weight_le
  have hq' : ∀ x ∈ q', x ∈ q := fun x hx => hperm.mem_iff.2 (by simp [hx])
  have hjoin : (a.join b next).weight = a.weight + b.weight := rfl
  have hlate : ∀ {y e}, y ∈ q' → At y e → e ≤ d₀ + 1 := by
    intro y e hy hye
    refine h.close hd₀ hye (List.forall_mem_cons.2 ⟨?_, fun z hz => ?_⟩)
    · have := (ha y (hq' y hy)).weight_le
      omega
    · have := (ha y (hq' y hy)).weight_le
      have := (hb z (List.mem_cons_of_mem _ hz)).weight_le
      omega
  refine ⟨fun x hx => ?total, fun hx => ?mem, fun hx p hp => ?leaves, fun hx hy hlt => ?sorted,
    fun hx hy hle => ?close⟩
  case total =>
    rcases List.mem_cons.1 (hperm.mem_iff.1 hx) with rfl | hx
    · exact ⟨_, .inl ⟨.inl rfl, rfl⟩⟩
    rcases List.mem_cons.1 hx with rfl | hx
    · exact ⟨_, .inl ⟨.inr rfl, rfl⟩⟩
    · obtain ⟨d, hd⟩ := h.total x (List.mem_cons_of_mem _ hx)
      exact ⟨d, .inr ⟨hx, hd⟩⟩
  case mem =>
    rcases hx with ⟨rfl | rfl, -⟩ | ⟨hx, -⟩
    · exact hperm.mem_iff.2 (by simp)
    · exact hperm.mem_iff.2 (by simp)
    · exact hq' _ hx
  case leaves =>
    rcases hx with ⟨hx, rfl⟩ | ⟨-, hx⟩
    · have hmem : (p.1, p.2 + 1) ∈ (a.join b next).depths :=
        List.mem_map_of_mem (f := fun p => (p.1, p.2 + 1))
          (List.mem_append.2 (hx.imp (fun h => h ▸ hp) fun h => h ▸ hp))
      simpa only [Nat.add_assoc, Nat.add_comm 1] using h.leaves hd₀ _ hmem
    · exact h.leaves hx p hp
  case sorted =>
    rcases hx with ⟨-, rfl⟩ | ⟨hxq, hx⟩ <;> rcases hy with ⟨hy, rfl⟩ | ⟨hyq, hy⟩
    · exact Nat.le_refl _
    · exact hlate hyq hy
    · rcases hy with rfl | rfl
      · exact absurd (ha _ (hq' _ hxq)) hlt
      · exact absurd (hb _ (List.mem_cons_of_mem _ hxq)) hlt
    · exact h.sorted hx hy hlt
  case close =>
    have hla := hle a (hperm.mem_iff.2 (by simp))
    have hlb := hle b (hperm.mem_iff.2 (by simp))
    rcases hx with ⟨-, rfl⟩ | ⟨hxq, hx⟩ <;> rcases hy with ⟨hy, rfl⟩ | ⟨hyq, hy⟩
    · exact Nat.le_succ _
    · exact (hlate hyq hy).trans (Nat.le_succ _)
    · refine Nat.succ_le_succ (h.sorted hx hd₀ ?_)
      have horder := hnext _ (hq' _ hxq)
      have hkey : (a.join b next).order = next := rfl
      unfold Root.NotAfter
      rcases hy with rfl | rfl <;> omega
    · refine h.close hx hy (List.forall_mem_cons.2 ⟨by omega, fun z hz => hle z (hq' z hz)⟩)

/-- R180: the roots of a queue end in the order of their keys, where the merge makes later nodes
than those of the queue. -/
theorem MergesTo.endsSorted (h : MergesTo next q r) (hnext : ∀ x ∈ q, x.order < next) :
    ∃ At, EndsSorted q r At := by
  induction h with
  | single next r =>
    refine ⟨fun x d => x = r ∧ d = 0, by simp, by simp, ?_, ?_, ?_⟩
    · rintro _ _ ⟨rfl, rfl⟩ p hp
      exact hp
    · rintro _ _ _ _ ⟨-, rfl⟩ ⟨-, rfl⟩ -
      exact Nat.le_refl _
    · rintro _ _ _ _ ⟨-, rfl⟩ ⟨-, rfl⟩ -
      exact Nat.zero_le _
  | round next q q' a b r hperm ha hb _ ih =>
    obtain ⟨At, hAt⟩ := ih (List.forall_mem_cons.2 ⟨Nat.lt_succ_self _, fun x hx =>
      (hnext x (hperm.mem_iff.2 (by simp [hx]))).trans (Nat.lt_succ_self _)⟩)
    obtain ⟨d₀, hd₀⟩ := hAt.total _ List.mem_cons_self
    exact ⟨_, hAt.unjoin hperm ha hb hnext hd₀⟩

end

end Sys2Proof.Claims

namespace Sys2Proof.Machine

open Sys2Proof.Claims

/-! ## The merges of the queue (R171) -/

theorem HufTree.depths_succ (t : HufTree) (d : Nat) :
    t.depths (d + 1) = (t.depths d).map fun p => (p.1, p.2 + 1) := by
  induction t generalizing d with
  | leaf => rfl
  | internal l r ihl ihr => simp [HufTree.depths, ihl, ihr]

/-- R171: no leaf is above the root. -/
theorem HufTree.le_depth {t : HufTree} {d : Nat} {p : Byte × Nat} (h : p ∈ t.depths d) :
    d ≤ p.2 := by
  induction t generalizing d with
  | leaf b => exact (congrArg Prod.snd (List.mem_singleton.1 h)).ge
  | internal l r ihl ihr =>
    rcases List.mem_append.1 h with h | h
    · exact Nat.le_of_succ_le (ihl h)
    · exact Nat.le_of_succ_le (ihr h)

/-- A node of the queue as a root that claims speak of. -/
def HufNode.toRoot (n : HufNode) : Root := ⟨n.weight, n.order, n.tree.depths 0⟩

theorem HufNode.toRoot_internal (a b : HufNode) (next : Nat) :
    (⟨a.weight + b.weight, next, .internal a.tree b.tree⟩ : HufNode).toRoot =
      a.toRoot.join b.toRoot next := by
  simp [HufNode.toRoot, Root.join, HufTree.depths, HufTree.depths_succ]

theorem leafRoots_eq (s : State) : leafRoots s = s.leaves.map HufNode.toRoot := by
  simp [leafRoots, State.leaves, State.symbols, HufNode.toRoot, HufTree.depths]

theorem exists_takeLeast {q : List HufNode} (hq : q ≠ []) :
    ∃ m rest, takeLeast q = some (m, rest) := by
  cases q with
  | nil => exact absurd rfl hq
  | cons x xs =>
    rw [takeLeast]
    split
    · exact ⟨_, _, rfl⟩
    · split_ifs <;> exact ⟨_, _, rfl⟩

theorem HufNode.before_iff {a b : HufNode} :
    a.before b = true ↔ ¬b.toRoot.NotAfter a.toRoot := by
  have hleft : a.before b = true ↔ a.weight < b.weight ∨ a.weight = b.weight ∧ a.order < b.order :=
    decide_eq_true_iff
  have hright : b.toRoot.NotAfter a.toRoot ↔
      b.weight < a.weight ∨ b.weight = a.weight ∧ b.order ≤ a.order := Iff.rfl
  rw [hleft, hright]
  omega

/-- R171: the node that the queue gives has the least key. -/
theorem takeLeast_notAfter {q rest : List HufNode} {m : HufNode}
    (h : takeLeast q = some (m, rest)) : ∀ x ∈ q, m.toRoot.NotAfter x.toRoot := by
  induction q generalizing m rest with
  | nil => cases h
  | cons y ys ih =>
    rw [takeLeast] at h
    split at h
    next hnone =>
      cases h
      have hys : ys = [] := by
        by_contra hne
        obtain ⟨m, rest, hsome⟩ := exists_takeLeast hne
        simp [hnone] at hsome
      simpa [hys] using Root.NotAfter.refl y.toRoot
    next m' rest' hsome =>
      have hleast := ih hsome
      split_ifs at h with hlt <;> cases h <;> rw [HufNode.before_iff] at hlt
      · have hle := (Root.NotAfter.total _ _).resolve_left hlt
        exact List.forall_mem_cons.2 ⟨.refl _, fun x hx => hle.trans (hleast x hx)⟩
      · exact List.forall_mem_cons.2 ⟨not_not.1 hlt, hleast⟩

/-- R171: the loop on the queue is the merge that claims speak of. -/
theorem mergeNodes_mergesTo {m next : Nat} {q : List HufNode} (hq : q.length = m + 1) :
    ∃ n, mergeNodes m next q = [n] ∧ MergesTo next (q.map HufNode.toRoot) n.toRoot := by
  induction m generalizing next q with
  | zero =>
    obtain ⟨n, rfl⟩ := List.length_eq_one_iff.1 hq
    exact ⟨n, rfl, .single _ _⟩
  | succ m ih =>
    obtain ⟨a, q₁, ha⟩ := exists_takeLeast (List.ne_nil_of_length_eq_add_one hq)
    have hperm₁ := takeLeast_perm ha
    have hlen₁ : q₁.length = m + 1 := by simpa [hq] using hperm₁.length_eq.symm
    obtain ⟨b, q₂, hb⟩ := exists_takeLeast (List.ne_nil_of_length_eq_add_one hlen₁)
    have hperm₂ := takeLeast_perm hb
    have hlen₂ : q₂.length = m := by simpa [hlen₁] using hperm₂.length_eq.symm
    obtain ⟨n, hn, hmerge⟩ := ih (next := next + 1)
      (q := ⟨a.weight + b.weight, next, .internal a.tree b.tree⟩ :: q₂) (by simp [hlen₂])
    refine ⟨n, by rw [mergeNodes, ha]; simp only [hb, hn], ?_⟩
    rw [List.map_cons, HufNode.toRoot_internal] at hmerge
    refine .round next _ _ a.toRoot b.toRoot _ ((hperm₁.trans (hperm₂.cons a)).map _) ?_ ?_ hmerge
    · exact List.forall_mem_map.2 (takeLeast_notAfter ha)
    · rw [← List.map_cons]
      exact List.forall_mem_map.2 fun x hx => takeLeast_notAfter hb x (hperm₂.mem_iff.2 hx)

section
variable {s : State}

/-- R171: the tree of FREQ is the one that the merges make. -/
theorem State.hufTree_mergesTo (h : 0 < s.symbols.length) :
    ∃ n : HufNode, s.hufTree = some n.tree ∧
      MergesTo s.symbols.length (leafRoots s) n.toRoot := by
  obtain ⟨n, hn, hmerge⟩ := mergeNodes_mergesTo (m := s.symbols.length - 1)
    (next := s.symbols.length) (q := s.leaves) (by simp [State.leaves]; omega)
  exact ⟨n, by simp [State.hufTree, hn], leafRoots_eq s ▸ hmerge⟩

theorem State.hufTree_of_no_symbols (h : s.symbols.length = 0) : s.hufTree = none := by
  simp [State.hufTree, State.leaves, List.length_eq_zero_iff.1 h, mergeNodes]

theorem leafRoots_symbols (s : State) :
    ((leafRoots s).flatMap fun x => x.depths.map Prod.fst) = s.symbols := by
  rw [leafRoots, List.flatMap_map]
  exact (List.flatMap_pure_eq_map Prod.fst _).trans (List.zipIdx_map_fst 0 _)

/-- R171: a leaf root's order lies below k. -/
theorem order_lt_of_mem_leafRoots {x : Root} (hx : x ∈ leafRoots s) :
    x.order < s.symbols.length := by
  obtain ⟨p, hp, rfl⟩ := List.mem_map.1 hx
  exact List.snd_lt_of_mem_zipIdx hp

/-- R171: every symbol has a leaf root of its frequency. -/
theorem exists_leafRoot {b : Byte} (hb : 0 < s.freqOf b) :
    ∃ x ∈ leafRoots s, x.weight = s.freqOf b ∧ (b, 0) ∈ x.depths := by
  obtain ⟨i, hi⟩ := List.getElem?_of_mem (State.mem_symbols.2 hb)
  exact ⟨⟨s.freqOf b, i, [(b, 0)]⟩,
    List.mem_map.2 ⟨(b, i), List.mk_mem_zipIdx_iff_getElem?.2 hi, rfl⟩, rfl, by simp⟩

/-! ## The pairs of a symbol and its length (R171, R172) -/

theorem State.lengthPairs_of_no_symbols (h : s.symbols.length = 0) : s.lengthPairs = [] := by
  simp [State.lengthPairs, State.hufTree_of_no_symbols h]

/-- R172: the only symbol of FREQ gets one bit. -/
theorem State.lengthPairs_of_one_symbol {b : Byte} (h : s.symbols = [b]) :
    s.lengthPairs = [(b, 1)] := by
  simp [State.lengthPairs, State.hufTree, State.leaves, h, mergeNodes]

/-- R171: for two symbols or more the lengths are the depths below the root. -/
theorem State.lengthPairs_of_symbols (h : 2 ≤ s.symbols.length) :
    ∃ (t : HufTree) (r : Root), s.lengthPairs = t.depths 0 ∧ s.lengthPairs = r.depths ∧
      t.leafCount = s.symbols.length ∧
      MergesTo s.symbols.length (leafRoots s) r := by
  obtain ⟨n, hn, hmerge⟩ := State.hufTree_mergesTo (s := s) (by omega)
  have hcount : n.tree.leafCount = s.symbols.length := by
    have := hmerge.symbols_perm.length_eq
    rw [leafRoots_symbols] at this
    simpa [HufNode.toRoot] using this
  have hpairs : s.lengthPairs = n.tree.depths 0 := by
    rw [State.lengthPairs, hn]
    cases ht : n.tree with
    | leaf b => simp [ht, HufTree.leafCount] at hcount; omega
    | internal l r => rfl
  exact ⟨n.tree, n.toRoot, hpairs, hpairs, hcount, hmerge⟩

/-- R171: the symbols of FREQ, each once. -/
theorem State.lengthPairs_symbols_perm (s : State) :
    (s.lengthPairs.map Prod.fst).Perm s.symbols := by
  rcases Nat.lt_or_ge s.symbols.length 2 with hlt | hge
  · match hsym : s.symbols with
    | [] => simp [State.lengthPairs_of_no_symbols (s := s) (by simp [hsym])]
    | [b] => simp [State.lengthPairs_of_one_symbol hsym]
    | _ :: _ :: _ => simp [hsym] at hlt
  · obtain ⟨t, r, -, hr, -, hmerge⟩ := State.lengthPairs_of_symbols hge
    rw [hr, ← leafRoots_symbols]
    exact hmerge.symbols_perm

/-- R171, R172: a length is at least 1, and at most k - 1, or 1 where only one symbol occurs. -/
theorem State.lengthPairs_bounds {p : Byte × Nat} (hp : p ∈ s.lengthPairs) :
    0 < p.2 ∧ p.2 ≤ max 1 (s.symbols.length - 1) := by
  rcases Nat.lt_or_ge s.symbols.length 2 with hlt | hge
  · match hsym : s.symbols with
    | [] => simp [State.lengthPairs_of_no_symbols (s := s) (by simp [hsym])] at hp
    | [b] => simp_all [State.lengthPairs_of_one_symbol hsym]
    | _ :: _ :: _ => simp [hsym] at hlt
  · obtain ⟨t, -, ht, -, hcount, -⟩ := State.lengthPairs_of_symbols hge
    rw [ht] at hp
    have hlast := HufTree.depth_lt hp
    refine ⟨?_, by omega⟩
    cases t with
    | leaf b => simp [HufTree.leafCount] at hcount; omega
    | internal l r =>
      rcases List.mem_append.1 hp with hp | hp
      · exact HufTree.le_depth hp
      · exact HufTree.le_depth hp

/-! ## The table HUF_BUILD writes (R171, R172) -/

/-- R171: a symbol's entry is its length in the pairs. -/
theorem State.lenOf_builtLengths_of_mem {b : Byte} {l : Nat} (h : (b, l) ∈ s.lengthPairs) :
    lenOf s.builtLengths b = l := by
  have hnodup : (s.lengthPairs.map Prod.fst).Nodup :=
    s.lengthPairs_symbols_perm.nodup_iff.2 (nodup_allBytes.filter _)
  have hsome : (s.lengthPairs.lookup b).isSome := List.lookup_isSome_iff.2 ⟨_, h, by simp⟩
  obtain ⟨l', hl'⟩ := Option.isSome_iff_exists.1 hsome
  have heq : (b, l') = (b, l) :=
    List.inj_on_of_nodup_map hnodup (mem_of_lookup_eq_some hl') h rfl
  cases heq
  have hle := s.lengthPairs_kraft.1 _ h
  rw [s.lenOf_builtLengths, hl', Option.getD_some]
  omega

/-- R171: the symbols of FREQ and no others stand in the pairs with their lengths. -/
theorem State.mem_lengthPairs_iff {b : Byte} {l : Nat} :
    (b, l) ∈ s.lengthPairs ↔ 0 < s.freqOf b ∧ lenOf s.builtLengths b = l := by
  have hkey : b ∈ s.lengthPairs.map Prod.fst ↔ 0 < s.freqOf b :=
    s.lengthPairs_symbols_perm.mem_iff.trans State.mem_symbols
  constructor
  · intro h
    exact ⟨hkey.1 (List.mem_map.2 ⟨_, h, rfl⟩), State.lenOf_builtLengths_of_mem h⟩
  · rintro ⟨hb, rfl⟩
    obtain ⟨⟨_, l⟩, hmem, rfl⟩ := List.mem_map.1 (hkey.2 hb)
    rwa [State.lenOf_builtLengths_of_mem hmem]

theorem State.lenOf_builtLengths_eq_zero_iff {b : Byte} :
    lenOf s.builtLengths b = 0 ↔ s.freqOf b = 0 := by
  constructor
  · intro hlen
    by_contra hb
    have hmem := State.mem_lengthPairs_iff.2 ⟨Nat.pos_of_ne_zero hb, rfl⟩
    exact (State.lengthPairs_bounds hmem).1.ne' hlen
  · intro hb
    have hnone : s.lengthPairs.lookup b = none := by
      by_contra hsome
      obtain ⟨l, hl⟩ := Option.ne_none_iff_exists'.1 hsome
      exact (State.mem_lengthPairs_iff.1 (mem_of_lookup_eq_some hl)).1.ne' hb
    rw [s.lenOf_builtLengths, hnone]
    rfl

theorem State.lenOf_builtLengths_le (b : Byte) :
    lenOf s.builtLengths b ≤ max 1 (s.symbols.length - 1) := by
  rcases Nat.eq_zero_or_pos (s.freqOf b) with hb | hb
  · rw [State.lenOf_builtLengths_eq_zero_iff.2 hb]
    exact Nat.zero_le _
  · exact (State.lengthPairs_bounds (State.mem_lengthPairs_iff.2 ⟨hb, rfl⟩)).2

/-- R172: of no symbol or one, the largest length is their number. -/
theorem State.maxLen_builtLengths_of_le_one (h : s.symbols.length ≤ 1) :
    maxLen s.builtLengths = s.symbols.length := by
  obtain ⟨b, hb⟩ := exists_lenOf_eq_maxLen s.builtLengths
  match hsym : s.symbols with
  | [] =>
    have hnot : ¬0 < s.freqOf b := fun hpos => by simpa [hsym] using State.mem_symbols.2 hpos
    rw [← hb, State.lenOf_builtLengths_eq_zero_iff.2 (by omega)]
    rfl
  | [a] =>
    have hle := State.lenOf_builtLengths_le (s := s) b
    have ha : lenOf s.builtLengths a = 1 :=
      State.lenOf_builtLengths_of_mem (by simp [State.lengthPairs_of_one_symbol hsym])
    have := lenOf_le_maxLen s.builtLengths a
    simp only [hsym, List.length_singleton] at hle ⊢
    omega
  | _ :: _ :: _ => simp [hsym] at h

/-- R171: the pairs are the entries of the table, so its Kraft sum is theirs. -/
theorem State.kraftSum_builtLengths (s : State) :
    kraftSum s.builtLengths = pairKraft s.lengthPairs := by
  have hperm : ((coded s.builtLengths).map fun b => (b, lenOf s.builtLengths b)).Perm
      s.lengthPairs := by
    refine (List.perm_ext_iff_of_nodup ?_ ?_).2 fun ⟨b, l⟩ => ?_
    · exact (nodup_allBytes.filter _).map_on fun a _ b _ hab => congrArg Prod.fst hab
    · exact .of_map Prod.fst (s.lengthPairs_symbols_perm.nodup_iff.2 (nodup_allBytes.filter _))
    · have hpos : 0 < lenOf s.builtLengths b ↔ 0 < s.freqOf b := by
        simp only [Nat.pos_iff_ne_zero, ne_eq, State.lenOf_builtLengths_eq_zero_iff]
      rw [State.mem_lengthPairs_iff, ← hpos, ← mem_coded]
      simp
  rw [pairKraft, ← (hperm.map _).sum_eq, kraftSum, List.map_map]
  rfl

theorem State.kraftSum_builtLengths_of_symbols (h : 2 ≤ s.symbols.length) :
    kraftSum s.builtLengths = 2 ^ 255 := by
  obtain ⟨t, -, ht, -, hcount, -⟩ := State.lengthPairs_of_symbols h
  have hle := s.length_symbols_le
  rw [s.kraftSum_builtLengths, ht, t.pairKraft_depths (by omega)]
  rfl

/-- R180 (a): of two symbols the more frequent has the later leaf root, which ends no deeper. -/
theorem State.lenOf_builtLengths_antitone {x y : Byte} (hy : 0 < s.freqOf y)
    (hlt : s.freqOf y < s.freqOf x) : lenOf s.builtLengths x ≤ lenOf s.builtLengths y := by
  have hx := hy.trans hlt
  rcases Nat.lt_or_ge s.symbols.length 2 with hone | htwo
  · have hle := State.lenOf_builtLengths_le (s := s) x
    have hpos := (State.lengthPairs_bounds (State.mem_lengthPairs_iff.2 ⟨hy, rfl⟩)).1
    omega
  · obtain ⟨-, r, -, hr, -, hmerge⟩ := State.lengthPairs_of_symbols htwo
    obtain ⟨At, hAt⟩ := hmerge.endsSorted fun _ => order_lt_of_mem_leafRoots
    obtain ⟨u, hu, huw, hux⟩ := exists_leafRoot hx
    obtain ⟨v, hv, hvw, hvy⟩ := exists_leafRoot hy
    obtain ⟨d, hd⟩ := hAt.total u hu
    obtain ⟨e, he⟩ := hAt.total v hv
    have hxd : lenOf s.builtLengths x = 0 + d :=
      State.lenOf_builtLengths_of_mem (hr ▸ hAt.leaves hd _ hux)
    have hye : lenOf s.builtLengths y = 0 + e :=
      State.lenOf_builtLengths_of_mem (hr ▸ hAt.leaves he _ hvy)
    have hde : d ≤ e := hAt.sorted he hd fun hnot => by
      have := hnot.weight_le
      omega
    omega

/-- R171: HUF_BUILD has no pre-check and no run-time error. -/
theorem execHufBuild_builds (s : State) : execHufBuild s =
    .next { finish s (symbolCount s) (maxLen s.builtLengths) 0 with clen := s.builtLengths } :=
  runCommand_ok (d := ⟨{ s with clen := s.builtLengths }, s.symbols.length, _, 0⟩) rfl rfl

theorem clen_of_execHufBuild {t : State} (h : execHufBuild s = .next t) :
    t.clen = s.builtLengths := by
  rw [execHufBuild_builds] at h
  cases h
  rfl

end

end Sys2Proof.Machine

namespace Sys2Proof.Proofs

open Sys2Proof.Machine Sys2Proof.Claims

/-- Settles O37: the pairs of the tree are those of the relation's root, a leaf for each symbol. -/
theorem hufBuildLengths : Obligations.HufBuildLengths := by
  intro s
  refine ⟨_, maxLen s.builtLengths, execHufBuild_builds s, rfl,
    fun b => State.lenOf_builtLengths_eq_zero_iff, lenOf_le_maxLen _,
    State.maxLen_builtLengths_of_le_one, fun htwo => ⟨⟨?_, exists_lenOf_eq_maxLen _⟩, ?_⟩⟩
  · obtain ⟨b, hb⟩ := exists_lenOf_eq_maxLen s.builtLengths
    have hle := State.lenOf_builtLengths_le (s := s) b
    have hk : symbolCount s = s.symbols.length := rfl
    omega
  · obtain ⟨-, r, -, hr, -, hmerge⟩ := State.lengthPairs_of_symbols htwo
    exact ⟨r, hmerge, fun b hb => hr ▸ State.mem_lengthPairs_iff.2 ⟨hb, rfl⟩⟩

/-- Settles O38: the table's entries are the leaves of a full tree. -/
theorem hufBuildKraftEquality : Obligations.HufBuildKraftEquality := by
  intro s t htwo h
  rw [clen_of_execHufBuild h]
  exact State.kraftSum_builtLengths_of_symbols htwo

/-- Settles O39: by the invariant that the roots of the queue end in the order of their keys. -/
theorem hufBuildMonotone : Obligations.HufBuildMonotone := by
  intro s t x y h hy hlt
  rw [clen_of_execHufBuild h]
  exact State.lenOf_builtLengths_antitone hy hlt

end Sys2Proof.Proofs
end

section
/-! The canonical codes (42_huffman.md R175): a code is its first code plus its rank among the codes
of its length, the codes of the lengths up to `l` take a part of the Kraft sum, and no code begins
another. -/

namespace Sys2Proof.Machine

open Sys2Proof.Claims

/-! ## Bits and values -/

/-- R142, R143: the bits of the value of bits. -/
theorem bitsOf_ofBits (bits : List Bool) : bitsOf (ofBits bits) bits.length = bits := by
  induction bits using List.reverseRecOn with
  | nil => rfl
  | append_singleton bs b ih =>
    rw [ofBits_append, List.length_append, List.length_singleton, bitsOf_double, ih]

/-- R142: the first bits are those of the high part. -/
theorem bitsOf_add (v m n : Nat) : bitsOf v (m + n) = bitsOf (v / 2 ^ n) m ++ bitsOf v n := by
  induction m with
  | zero => simp [bitsOf]
  | succ m ih =>
    rw [Nat.succ_add, bitsOf, ih, bitsOf, List.cons_append, Nat.testBit_div_two_pow]

/-- R142, R143: the value of the bits of a value that fits. -/
theorem ofBits_bitsOf {v n : Nat} (h : v < 2 ^ n) : ofBits (bitsOf v n) = v := by
  induction n generalizing v with
  | zero => exact (Nat.lt_one_iff.1 h).symm
  | succ n ih =>
    have hlast : bitsOf v 1 = [v.testBit 0] := rfl
    rw [bitsOf_add, hlast, ofBits_append, pow_one, ih (by omega), Nat.testBit_zero]
    rcases Nat.mod_two_eq_zero_or_one v with h0 | h1
    · simp [h0]
      omega
    · simp [h1]
      omega

/-! ## Ranks (R175) -/

section
variable {c : Vector Byte 256} {a b : Byte} {l : Nat}

/-- R175: the rank of a symbol among those of its length, by ascending byte value. -/
def rankOf (c : Vector Byte 256) (b : Byte) : Nat :=
  ((allBytes.take b.toNat).filter fun x => decide (lenOf c x = lenOf c b)).length

theorem codeOf_eq (c : Vector Byte 256) (b : Byte) :
    codeOf c b = firstCode c (lenOf c b) + rankOf c b := rfl

theorem mem_symbolsOfLen : b ∈ symbolsOfLen c l ↔ lenOf c b = l := by
  simp [symbolsOfLen]

/-- R175: the symbol of a rank. -/
theorem getElem?_symbolsOfLen_rankOf (c : Vector Byte 256) (b : Byte) :
    (symbolsOfLen c (lenOf c b))[rankOf c b]? = some b := by
  rw [symbolsOfLen]
  conv_lhs => rw [allBytes_split b]
  rw [List.filter_append, rankOf, List.getElem?_append_right le_rfl]
  simp

theorem rankOf_lt (hb : 0 < lenOf c b) : rankOf c b < blCount c (lenOf c b) := by
  rw [blCount, if_neg hb.ne']
  exact (List.getElem?_eq_some_iff.1 (getElem?_symbolsOfLen_rankOf c b)).1

theorem eq_of_rankOf_eq (hlen : lenOf c a = lenOf c b) (hrank : rankOf c a = rankOf c b) :
    a = b := by
  have ha := getElem?_symbolsOfLen_rankOf c a
  rw [hlen, hrank, getElem?_symbolsOfLen_rankOf] at ha
  exact (Option.some.inj ha).symm

/-! ## The first codes (R175) -/

/-- R175: the codes of length `l` precede those of every greater length. -/
theorem firstCode_add_le (l k : Nat) :
    (firstCode c l + blCount c l) * 2 ^ (k + 1) ≤ firstCode c (l + k + 1) := by
  induction k with
  | zero => simp [firstCode]
  | succ k ih =>
    rw [← Nat.add_assoc l k 1, firstCode, pow_succ, ← Nat.mul_assoc]
    exact Nat.mul_le_mul_right 2 (ih.trans (Nat.le_add_right _ _))

/-- R45: the part of the Kraft sum that the codes of length `l` or less take. -/
def kraftUpTo (c : Vector Byte 256) (l : Nat) : Nat :=
  (((coded c).filter fun b => decide (lenOf c b ≤ l)).map fun b =>
    2 ^ (Config.maxClen - lenOf c b)).sum

theorem kraftUpTo_zero (c : Vector Byte 256) : kraftUpTo c 0 = 0 := by
  have hnone : ((coded c).filter fun b => decide (lenOf c b ≤ 0)) = [] :=
    List.filter_eq_nil_iff.2 fun b hb hle =>
      (mem_coded.1 hb).not_ge (of_decide_eq_true hle)
  rw [kraftUpTo, hnone]
  rfl

theorem kraftUpTo_le (c : Vector Byte 256) (l : Nat) : kraftUpTo c l ≤ kraftSum c :=
  (List.filter_sublist.map _).sum_le_sum fun _ _ => Nat.zero_le _

/-- R175: a symbol of positive length is coded. -/
theorem blCount_succ (c : Vector Byte 256) (l : Nat) :
    blCount c (l + 1) = ((coded c).filter fun b => decide (lenOf c b = l + 1)).length := by
  rw [blCount, if_neg l.succ_ne_zero, symbolsOfLen, coded, List.filter_filter]
  congr 2
  funext b
  by_cases hb : lenOf c b = l + 1 <;> simp [hb]

theorem kraftUpTo_succ (c : Vector Byte 256) (l : Nat) : kraftUpTo c (l + 1) =
    kraftUpTo c l + blCount c (l + 1) * 2 ^ (Config.maxClen - (l + 1)) := by
  rw [blCount_succ, kraftUpTo, kraftUpTo]
  induction coded c with
  | nil => simp
  | cons b bs ih =>
    rcases Nat.lt_trichotomy (lenOf c b) (l + 1) with hlt | heq | hgt
    · simp [hlt.le, Nat.le_of_lt_succ hlt, hlt.ne, ih, Nat.add_assoc]
    · simp [heq, ih]
      ring
    · simp [hgt.not_ge, hgt.ne', (Nat.lt_of_succ_lt hgt).not_ge, ih]

/-- R175: scaled by 2^255, the first code after those of length `l` is the part of the Kraft sum
that they and the shorter codes take. -/
theorem firstCode_eq_kraftUpTo (hl : l ≤ 255) :
    (firstCode c l + blCount c l) * 2 ^ (Config.maxClen - l) = kraftUpTo c l := by
  induction l with
  | zero => simp [firstCode, blCount, kraftUpTo_zero]
  | succ l ih =>
    have hpow : Config.maxClen - l = (Config.maxClen - (l + 1)) + 1 := by
      simp only [Config.maxClen]; omega
    rw [kraftUpTo_succ, ← ih (by omega), hpow, pow_succ, firstCode]
    ring

/-! ## Codes (R175) -/

theorem lenOf_le (c : Vector Byte 256) (b : Byte) : lenOf c b ≤ 255 :=
  Nat.le_of_lt_succ (c.get b.toFin).isLt

section
variable (hc : kraftSum c ≤ 2 ^ 255)
include hc

theorem codeOf_lt (hb : 0 < lenOf c b) : codeOf c b < 2 ^ lenOf c b := by
  have hlen := lenOf_le c b
  have hsum := (firstCode_eq_kraftUpTo hlen).trans_le ((kraftUpTo_le c _).trans hc)
  have hpow : 2 ^ 255 = 2 ^ lenOf c b * 2 ^ (Config.maxClen - lenOf c b) := by
    rw [← pow_add, Config.maxClen, Nat.add_sub_cancel' hlen]
  rw [hpow] at hsum
  have hend := Nat.le_of_mul_le_mul_right hsum (Nat.two_pow_pos _)
  have hrank := rankOf_lt hb
  rw [codeOf_eq]
  omega

/-- R175: a code that begins another is that code. -/
theorem eq_of_codeBits_prefix (ha : 0 < lenOf c a) (hb : 0 < lenOf c b)
    (h : codeBits c a <+: codeBits c b) : a = b := by
  have hlen : lenOf c a ≤ lenOf c b := by simpa using h.length_le
  obtain ⟨k, hk⟩ := Nat.exists_eq_add_of_le hlen
  have hbits : bitsOf (codeOf c a) (lenOf c a) = bitsOf (codeOf c b / 2 ^ k) (lenOf c a) := by
    have hb' : codeBits c b = bitsOf (codeOf c b / 2 ^ k) (lenOf c a) ++ bitsOf (codeOf c b) k := by
      rw [codeBits, hk, bitsOf_add]
    have := List.prefix_iff_eq_take.1 h
    rw [hb'] at this
    simpa [codeBits] using this
  have hcode : codeOf c a = codeOf c b / 2 ^ k := by
    have hlt : codeOf c b / 2 ^ k < 2 ^ lenOf c a := by
      rw [Nat.div_lt_iff_lt_mul (Nat.two_pow_pos _), ← pow_add, ← hk]
      exact codeOf_lt hc hb
    rw [← ofBits_bitsOf (codeOf_lt hc ha), hbits, ofBits_bitsOf hlt]
  cases k with
  | zero =>
    refine eq_of_rankOf_eq hk.symm ?_
    rw [pow_zero, Nat.div_one, codeOf_eq, codeOf_eq, hk, Nat.add_zero] at hcode
    omega
  | succ k =>
    have hfirst := firstCode_add_le (c := c) (lenOf c a) k
    rw [Nat.add_assoc, ← hk] at hfirst
    have hle : firstCode c (lenOf c a) + blCount c (lenOf c a) ≤ codeOf c b / 2 ^ (k + 1) :=
      (Nat.le_div_iff_mul_le (Nat.two_pow_pos _)).2 (hfirst.trans (Nat.le_add_right _ _))
    have hrank := rankOf_lt ha
    rw [← hcode, codeOf_eq] at hle
    omega

end

end

end Sys2Proof.Machine

namespace Sys2Proof.Proofs

open Sys2Proof.Machine Sys2Proof.Claims

/-- Settles O42: the codes of each length are an interval above all shorter codes' extensions. -/
theorem canonicalCodesPrefixFree : Obligations.CanonicalCodesPrefixFree := fun _ hc =>
  ⟨fun _ => codeOf_lt hc, fun _ _ hne ha hb h => hne (eq_of_codeBits_prefix hc ha hb h)⟩

end Sys2Proof.Proofs
end

section
/-! HUF_DESER and HUF_DEC (42_huffman.md R174, R177, R178): what they read where the bits ahead in
the stream are known. -/

namespace Sys2Proof.Machine

open Sys2Proof.Claims

/-! ## Reading bits that are known (R143) -/

/-- R143: the reader moved `n` bits on. -/
def State.advance (s : State) (n : Nat) : State :=
  { s with rd := { s.rd with pos := s.rd.pos + n } }

section
variable {s : State}

theorem State.advance_advance (m n : Nat) : (s.advance m).advance n = s.advance (m + n) := by
  simp [State.advance, Nat.add_assoc]

theorem readerInBuf_advance (n : Nat) (h : ReaderInBuf s) : ReaderInBuf (s.advance n) := h

/-- R143: the bits ahead, part by part. -/
theorem nextBitsAre_of_append {xs ys : List Bool} (h : NextBitsAre s (xs ++ ys)) :
    NextBitsAre s xs ∧ NextBitsAre (s.advance xs.length) ys := by
  obtain ⟨hlast, hbits⟩ := h
  rw [List.length_append] at hlast
  refine ⟨⟨by omega, fun j hj => ?_⟩, ⟨by simp only [State.advance]; omega, fun j hj => ?_⟩⟩
  · have hbit := hbits j (by rw [List.length_append]; omega)
    rwa [List.getElem_append_left hj] at hbit
  · have hbit := hbits (xs.length + j) (by rw [List.length_append]; omega)
    simp only [List.getElem_append_right (Nat.le_add_right _ _), Nat.add_sub_cancel_left,
      ← Nat.add_assoc] at hbit
    exact hbit

theorem State.get_bits {bits : List Bool} (e : CmdError) (hin : ReaderInBuf s)
    (h : NextBitsAre s bits) :
    s.get bits.length e = .ok (ofBits bits, s.advance bits.length) :=
  State.get_of_nextBits e hin h

theorem State.get_value {v n : Nat} (e : CmdError) (hin : ReaderInBuf s) (hv : v < 2 ^ n)
    (h : NextBitsAre s (bitsOf v n)) : s.get n e = .ok (v, s.advance n) := by
  have hget := State.get_bits e hin h
  rwa [length_bitsOf, ofBits_bitsOf hv] at hget

theorem State.get_past_stop {n : Nat} (e : CmdError) (h : s.rd.stop < s.rd.pos + n) :
    s.get n e = .error (.raise e) := if_pos h

/-! ## The pairs of a serialized table (R174) -/

theorem pairBits_append (ps qs : List (Byte × Byte)) :
    pairBits (ps ++ qs) = pairBits ps ++ pairBits qs := List.flatMap_append

theorem pairBits_cons (p : Byte × Byte) (ps : List (Byte × Byte)) :
    pairBits (p :: ps) = bitsOf p.1.toNat 8 ++ (bitsOf p.2.toNat 8 ++ pairBits ps) := by
  simp [pairBits]

section
variable {k low : Nat} {c : Vector Byte 256} {ps : List (Byte × Byte)} {p : Byte × Byte}

/-- R174: the pseudocode's loop on one pair. -/
theorem readPairs_pair (hin : ReaderInBuf s) (h : NextBitsAre s (pairBits [p])) :
    readPairs (k + 1) low c s =
      if p.1.toNat < low then .error (.raise .corruptHeader)
      else if p.2.toNat = 0 then .error (.raise .corruptHeader)
      else readPairs k (p.1.toNat + 1) (c.setIfInBounds p.1.toNat p.2) (s.advance 16) := by
  rw [pairBits_cons] at h
  obtain ⟨hsymbol, h⟩ := nextBitsAre_of_append h
  rw [length_bitsOf] at h
  obtain ⟨hlength, -⟩ := nextBitsAre_of_append h
  rw [readPairs, State.get_value _ hin p.1.isLt hsymbol]
  show ((s.advance 8).get 8 _ >>= _) = _
  rw [State.get_value _ (readerInBuf_advance 8 hin) p.2.isLt hlength, State.advance_advance]
  show (if _ then _ else if _ then _ else
    readPairs k _ (c.setIfInBounds _ (BitVec.ofNat 8 _)) _) = _
  rw [BitVec.ofNat_toNat, BitVec.setWidth_eq]

/-- R174: a stream that ends within a pair. -/
theorem readPairs_truncated (hin : ReaderInBuf s) (h : s.rd.stop < s.rd.pos + 16) :
    readPairs (k + 1) low c s = .error (.raise .truncatedStream) := by
  rw [readPairs]
  by_cases hsymbol : s.rd.stop < s.rd.pos + 8
  · rw [State.get_past_stop _ hsymbol]
    rfl
  · obtain ⟨-, hbuf, hstop⟩ := hin
    rw [State.get_fits 8 _ hbuf hstop (Nat.le_of_not_lt hsymbol)]
    show ((s.advance 8).get 8 _ >>= _) = _
    rw [State.get_past_stop _ (by simp only [State.advance]; omega)]
    rfl

/-- R174: one more than the last symbol of pairs, `low` before the first. -/
def lowAfter : (low : Nat) → List (Byte × Byte) → Nat
  | low, [] => low
  | _, p :: ps => lowAfter (p.1.toNat + 1) ps

/-- R174: a table with the lengths of pairs set. -/
def loadPairs (c : Vector Byte 256) (ps : List (Byte × Byte)) : Vector Byte 256 :=
  ps.foldl (fun c p => c.setIfInBounds p.1.toNat p.2) c

/-- R174: pairs that a serialized table may hold after the symbols below `low`. -/
def LegalFrom (low : Nat) (ps : List (Byte × Byte)) : Prop :=
  LegalPairs ps ∧ ∀ p ∈ ps, low ≤ p.1.toNat

theorem legalFrom_cons : LegalFrom low (p :: ps) ↔
    low ≤ p.1.toNat ∧ p.2 ≠ 0#8 ∧ LegalFrom (p.1.toNat + 1) ps := by
  simp only [LegalFrom, LegalPairs, List.map_cons, List.pairwise_cons, List.forall_mem_cons,
    List.forall_mem_map]
  constructor
  · rintro ⟨⟨⟨hfirst, hrest⟩, hpos, hall⟩, hlow, -⟩
    exact ⟨hlow, hpos, ⟨hrest, hall⟩, hfirst⟩
  · rintro ⟨hlow, hpos, ⟨hrest, hall⟩, hfirst⟩
    exact ⟨⟨⟨hfirst, hrest⟩, hpos, hall⟩, hlow, fun q hq =>
      hlow.trans (Nat.le_of_succ_le (hfirst q hq))⟩

theorem le_lowAfter (h : LegalFrom low ps) : low ≤ lowAfter low ps := by
  induction ps generalizing low with
  | nil => exact le_rfl
  | cons p ps ih =>
    obtain ⟨hlow, -, hrest⟩ := legalFrom_cons.1 h
    exact (Nat.le_succ_of_le hlow).trans (ih hrest)

theorem lt_lowAfter {q : Byte × Byte} (h : LegalFrom low ps) (hq : q ∈ ps) :
    q.1.toNat < lowAfter low ps := by
  induction ps generalizing low with
  | nil => cases hq
  | cons p ps ih =>
    obtain ⟨-, -, hrest⟩ := legalFrom_cons.1 h
    rcases List.mem_cons.1 hq with rfl | hq
    · exact le_lowAfter hrest
    · exact ih hrest hq

/-- R174: legal pairs are read one after another. -/
theorem readPairs_legal (hin : ReaderInBuf s) (hlegal : LegalFrom low ps)
    (h : NextBitsAre s (pairBits ps)) :
    readPairs (ps.length + k) low c s =
      readPairs k (lowAfter low ps) (loadPairs c ps) (s.advance (16 * ps.length)) := by
  induction ps generalizing low c s with
  | nil => simp [lowAfter, loadPairs, State.advance]
  | cons p ps ih =>
    obtain ⟨hlow, hpos, hlegal⟩ := legalFrom_cons.1 hlegal
    have hsplit : pairBits (p :: ps) = pairBits [p] ++ pairBits ps := pairBits_append [p] ps
    obtain ⟨hp, hps⟩ := nextBitsAre_of_append (hsplit ▸ h)
    have hpos' : p.2.toNat ≠ 0 := fun h0 => hpos (BitVec.eq_of_toNat_eq h0)
    rw [List.length_cons, Nat.add_right_comm, readPairs_pair hin hp, if_neg hlow.not_gt,
      if_neg hpos', ih (readerInBuf_advance 16 hin) hlegal hps, State.advance_advance,
      Nat.mul_succ, Nat.add_comm 16]
    rfl

/-- R174: a pair that is not ascending or has length 0. -/
theorem readPairs_bad (hin : ReaderInBuf s) (hlegal : LegalFrom low ps) (hbad : BadPair ps p)
    (h : NextBitsAre s (pairBits [p])) :
    readPairs (k + 1) (lowAfter low ps) c s = .error (.raise .corruptHeader) := by
  rw [readPairs_pair hin h]
  by_cases hlow : p.1.toNat < lowAfter low ps
  · rw [if_pos hlow]
  · rw [if_neg hlow, if_pos]
    rcases hbad with hzero | ⟨q, hq, hle⟩
    · simp [hzero]
    · exact absurd (hle.trans_lt (lt_lowAfter hlegal hq)) hlow

end

/-! ## The table that pairs load (R174) -/

theorem allBytes_ascending : allBytes.Pairwise fun a b => a.toNat < b.toNat := by
  rw [allBytes, List.pairwise_map]
  refine List.pairwise_lt_range.imp_of_mem fun ha hb hlt => ?_
  simp only [Config.alpha, List.mem_range] at ha hb
  simpa [Nat.mod_eq_of_lt ha, Nat.mod_eq_of_lt hb] using hlt

theorem legalPairs_tablePairs (c : Vector Byte 256) : LegalPairs (tablePairs c) := by
  refine ⟨?_, List.forall_mem_map.2 fun b hb hzero =>
    (mem_coded.1 hb).ne' (congrArg BitVec.toNat hzero)⟩
  rw [tablePairs, List.map_map, List.pairwise_map]
  exact allBytes_ascending.filter _

theorem get_loadPairs (c₀ c : Vector Byte 256) (bs : List Byte) (b : Byte) :
    (loadPairs c₀ (bs.map fun b => (b, c.get b.toFin))).get b.toFin =
      if b ∈ bs then c.get b.toFin else c₀.get b.toFin := by
  induction bs generalizing c₀ with
  | nil => rfl
  | cons x xs ih =>
    have hset : (c₀.setIfInBounds x.toNat (c.get x.toFin)).get b.toFin =
        if b = x then c.get b.toFin else c₀.get b.toFin := by
      simp only [Vector.get_eq_getElem, Vector.getElem_setIfInBounds, BitVec.val_toFin,
        BitVec.toNat_inj, eq_comm (a := x)]
      split_ifs with hb
      · rw [hb]
      · rfl
    have hload : loadPairs c₀ ((x :: xs).map fun b => (b, c.get b.toFin)) =
        loadPairs (c₀.setIfInBounds x.toNat (c.get x.toFin))
          (xs.map fun b => (b, c.get b.toFin)) := rfl
    rw [hload, ih, hset]
    by_cases hxs : b ∈ xs
    · simp [hxs]
    · simp [hxs]

/-- R174, R180 (c): the pairs of a table load that table. -/
theorem loadPairs_tablePairs (c : Vector Byte 256) :
    loadPairs (Vector.replicate 256 0#8) (tablePairs c) = c := by
  ext1 i hi
  have hget := get_loadPairs (Vector.replicate 256 0#8) c (coded c) (BitVec.ofFin ⟨i, hi⟩)
  refine hget.trans (ite_eq_left_iff.2 fun hnot => ?_)
  have hzero : lenOf c (BitVec.ofFin ⟨i, hi⟩) = 0 := by simpa [mem_coded] using hnot
  exact (Vector.getElem_replicate ..).trans (BitVec.eq_of_toNat_eq hzero.symm)

/-! ## HUF_DESER (R174) -/

/-- R174: what HUF_DESER does with the table it has read. -/
def keepTable (k : Nat) (p : Vector Byte 256 × State) : Except Halt Done :=
  if kraftSum p.1 > 2 ^ Config.maxClen then .error (.raise .corruptHeader)
  else .ok ⟨{ p.2 with clen := p.1 }, k, maxLen p.1, 0⟩

section
variable {k : Nat}

theorem keepTable_of_kraft {c : Vector Byte 256} (hc : kraftSum c ≤ 2 ^ 255) (t : State) :
    keepTable k (c, t) = .ok ⟨{ t with clen := c }, k, maxLen c, 0⟩ := if_neg (Nat.not_lt.2 hc)

theorem keepTable_of_not_kraft {c : Vector Byte 256} (hc : 2 ^ 255 < kraftSum c) (t : State) :
    keepTable k (c, t) = .error (.raise .corruptHeader) := if_pos hc

theorem deserialize_of_count (hin : ReaderInBuf s) (hk : k < 2 ^ 16)
    (h : NextBitsAre s (bitsOf k 16)) : deserialize s =
      if k > 256 then .error (.raise .corruptHeader)
      else readPairs k 0 (Vector.replicate 256 0#8) (s.advance 16) >>= keepTable k := by
  rw [deserialize, State.get_value _ hin hk h]
  rfl

/-- R174: a count and legal pairs, of which `j` more are to come. -/
theorem deserialize_of_pairs {j : Nat} {ps : List (Byte × Byte)} {rest : List Bool}
    (hin : ReaderInBuf s) (hk : k ≤ 256) (hj : ps.length + j = k) (hlegal : LegalPairs ps)
    (h : NextBitsAre s (bitsOf k 16 ++ (pairBits ps ++ rest))) :
    deserialize s = readPairs j (lowAfter 0 ps) (loadPairs (Vector.replicate 256 0#8) ps)
        (s.advance (16 + 16 * ps.length)) >>= keepTable k ∧
      NextBitsAre (s.advance (16 + 16 * ps.length)) rest := by
  obtain ⟨hcount, h⟩ := nextBitsAre_of_append h
  rw [length_bitsOf] at h
  obtain ⟨hpairs, hrest⟩ := nextBitsAre_of_append h
  rw [State.advance_advance, length_pairBits] at hrest
  refine ⟨?_, hrest⟩
  rw [deserialize_of_count hin (by omega) hcount, if_neg (by omega), ← hj,
    readPairs_legal (readerInBuf_advance 16 hin) ⟨hlegal, fun _ _ => Nat.zero_le _⟩ hpairs,
    State.advance_advance]

theorem firstError_checkReader (hin : ReaderInBuf s) : firstError [checkReader s] = none :=
  firstError_of_pass hin.1 rfl

/-- R318: HUF_DESER raises what its pseudocode raises. -/
theorem execHufDeser_fails {e : CmdError} (hin : ReaderInBuf s)
    (h : deserialize s = .error (.raise e)) : RunFails .hufDeser s e.code :=
  ⟨_, runCommand_run (firstError_checkReader hin) h, rfl,
    runErrorEnds_endRunError (by simp [runCodes]) _⟩

theorem execHufDeser_notOpen (hclosed : s.rd.isOpen = false) :
    execHufDeser s = .next (failWith s 0x13#8) :=
  runCommand_pre (e := .streamNotOpen) (firstError_of_fail (Bool.eq_false_iff.1 hclosed))

/-- R174, R180 (c): on a serialized table HUF_DESER reads that table. -/
theorem deserialize_tableBits {c : Vector Byte 256} (hin : ReaderInBuf s)
    (h : NextBitsAre s (tableBits c)) : deserialize s =
      keepTable (coded c).length (c, s.advance (16 + 16 * (coded c).length)) := by
  have hlen : (tablePairs c).length = (coded c).length := List.length_map _
  rw [tableBits_eq, ← List.append_nil (pairBits _)] at h
  obtain ⟨hread, -⟩ := deserialize_of_pairs (j := 0) hin (length_coded_le c) hlen
    (legalPairs_tablePairs c) h
  rw [hread, loadPairs_tablePairs, hlen]
  rfl

theorem execHufDeser_loads {c : Vector Byte 256} (hin : ReaderInBuf s)
    (h : NextBitsAre s (tableBits c)) (hkraft : kraftSum c ≤ 2 ^ 255) :
    execHufDeser s = .next { finish s (coded c).length (maxLen c) 0 with
      clen := c
      rd := { s.rd with pos := s.rd.pos + (16 + 16 * (coded c).length) } } :=
  runCommand_ok (d := ⟨{ s.advance (16 + 16 * (coded c).length) with clen := c }, _, _, 0⟩)
    (firstError_checkReader hin)
    ((deserialize_tableBits hin h).trans (keepTable_of_kraft hkraft _))

theorem execHufDeser_kraft {c : Vector Byte 256} (hin : ReaderInBuf s)
    (h : NextBitsAre s (tableBits c)) (hkraft : 2 ^ 255 < kraftSum c) :
    RunFails .hufDeser s 0x04#8 :=
  execHufDeser_fails (e := .corruptHeader) hin
    ((deserialize_tableBits hin h).trans (keepTable_of_not_kraft hkraft _))

theorem execHufDeser_count (hin : ReaderInBuf s) (hk : 256 < k) (hk' : k < 2 ^ 16)
    (h : NextBitsAre s (bitsOf k 16)) : RunFails .hufDeser s 0x04#8 :=
  execHufDeser_fails (e := .corruptHeader) hin
    ((deserialize_of_count hin hk' h).trans (if_pos hk))

theorem execHufDeser_noCount (hin : ReaderInBuf s) (h : s.rd.stop < s.rd.pos + 16) :
    RunFails .hufDeser s 0x05#8 := by
  refine execHufDeser_fails (e := .truncatedStream) hin ?_
  rw [deserialize, State.get_past_stop _ h]
  rfl

section
variable {ps : List (Byte × Byte)} (hin : ReaderInBuf s) (hk : k ≤ 256) (hlt : ps.length < k)
  (hlegal : LegalPairs ps)
include hin hk hlt hlegal

theorem execHufDeser_badPair {p : Byte × Byte} (hbad : BadPair ps p)
    (h : NextBitsAre s (bitsOf k 16 ++ pairBits (ps ++ [p]))) : RunFails .hufDeser s 0x04#8 := by
  obtain ⟨j, rfl⟩ := Nat.exists_eq_add_of_lt hlt
  rw [pairBits_append] at h
  obtain ⟨hread, hp⟩ := deserialize_of_pairs (j := j + 1) hin hk rfl hlegal h
  refine execHufDeser_fails (e := .corruptHeader) hin ?_
  rw [hread, readPairs_bad (readerInBuf_advance _ hin) ⟨hlegal, fun _ _ => Nat.zero_le _⟩ hbad hp]
  rfl

theorem execHufDeser_truncated (h : NextBitsAre s (bitsOf k 16 ++ pairBits ps))
    (hstop : s.rd.stop < s.rd.pos + (16 + 16 * (ps.length + 1))) :
    RunFails .hufDeser s 0x05#8 := by
  obtain ⟨j, rfl⟩ := Nat.exists_eq_add_of_lt hlt
  rw [← List.append_nil (pairBits ps)] at h
  obtain ⟨hread, -⟩ := deserialize_of_pairs (j := j + 1) hin hk rfl hlegal h
  refine execHufDeser_fails (e := .truncatedStream) hin ?_
  rw [hread, readPairs_truncated (readerInBuf_advance _ hin)
    (by simp only [State.advance]; omega)]
  rfl

end

end

end

end Sys2Proof.Machine

namespace Sys2Proof.Proofs

open Sys2Proof.Machine Sys2Proof.Claims

/-- Settles O41: the legal pairs ahead are read one after another; the first bad or missing one
ends the loop. -/
theorem hufDeserReadsSerializedTable : Obligations.HufDeserReadsSerializedTable :=
  ⟨fun _ c hin h => ⟨fun hkraft => ⟨maxLen c, lenOf_le_maxLen c, .inr (exists_lenOf_eq_maxLen c),
      execHufDeser_loads hin h hkraft⟩, execHufDeser_kraft hin h⟩,
    fun _ => execHufDeser_notOpen, fun _ _ => execHufDeser_count,
    fun _ _ _ _ hin hk hlt hlegal => execHufDeser_badPair hin hk hlt hlegal,
    fun _ => execHufDeser_noCount,
    fun _ _ _ hin hk hlt hlegal => execHufDeser_truncated hin hk hlt hlegal⟩

end Sys2Proof.Proofs
end

section
/-! HUF_DEC (42_huffman.md R177, R178): the decoder finds a symbol exactly where the bits read so
far are a code, so it inverts the codes and stops on bits that no code begins. -/

namespace Sys2Proof.Machine

open Sys2Proof.Claims

/-! ## From a code back to its symbol (R177) -/

section
variable {c : Vector Byte 256} {b : Byte} {l v : Nat}

/-- R177: the decoder's table look-up gives the symbol of a code. -/
theorem getD_symbolsOfLen (c : Vector Byte 256) (b : Byte) :
    (symbolsOfLen c (lenOf c b)).getD (codeOf c b - firstCode c (lenOf c b)) 0#8 = b := by
  rw [codeOf_eq, Nat.add_sub_cancel_left, List.getD_eq_getElem?_getD,
    getElem?_symbolsOfLen_rankOf, Option.getD_some]

theorem codeOf_in_codes (hb : 0 < lenOf c b) : firstCode c (lenOf c b) ≤ codeOf c b ∧
    codeOf c b < firstCode c (lenOf c b) + blCount c (lenOf c b) := by
  have := rankOf_lt hb
  rw [codeOf_eq]
  omega

/-- R177: the decoder takes no value for a code that is none. -/
theorem exists_codeOf_eq (hl : 0 < l) (hfirst : firstCode c l ≤ v)
    (hlast : v < firstCode c l + blCount c l) : ∃ b, lenOf c b = l ∧ codeOf c b = v := by
  rw [blCount, if_neg hl.ne'] at hlast
  have hi : v - firstCode c l < (symbolsOfLen c l).length := by omega
  obtain ⟨b, hb⟩ : ∃ b, (symbolsOfLen c l)[v - firstCode c l]? = some b :=
    ⟨_, List.getElem?_eq_getElem hi⟩
  obtain rfl := mem_symbolsOfLen.1 (List.mem_of_getElem? hb)
  have hrank := (List.getElem?_inj hi (nodup_allBytes.filter _)).1
    (hb.trans (getElem?_symbolsOfLen_rankOf c b).symm)
  exact ⟨b, rfl, by rw [codeOf_eq]; omega⟩

/-! ## One symbol (R177) -/

variable {s : State}

/-- R177: the decoder's loop on one bit, `p` being the bits read before it. -/
theorem decodeSym_bit {p : List Bool} {x : Bool} {left : Nat} (hin : ReaderInBuf s)
    (h : NextBitsAre s [x]) : decodeSym c (left + 1) (ofBits p) p.length s =
      if firstCode c (p.length + 1) ≤ ofBits (p ++ [x]) ∧
          ofBits (p ++ [x]) < firstCode c (p.length + 1) + blCount c (p.length + 1) then
        .ok ((symbolsOfLen c (p.length + 1)).getD
          (ofBits (p ++ [x]) - firstCode c (p.length + 1)) 0#8, s.advance 1)
      else decodeSym c left (ofBits (p ++ [x])) (p.length + 1) (s.advance 1) := by
  have hget := State.get_bits .truncatedStream hin h
  rw [List.length_singleton] at hget
  rw [decodeSym, hget, ofBits_append]
  have hvalue : ofBits [x] = x.toNat := by simp [ofBits]
  show (if firstCode c (p.length + 1) ≤ 2 * ofBits p + ofBits [x] ∧ _ then _ else _) = _
  rw [hvalue]
  rfl

/-- R177: the decoder reads on over bits that no code begins. -/
theorem decodeSym_skip {p w : List Bool} {left : Nat} (hin : ReaderInBuf s)
    (hno : NoCodeBegins c (p ++ w)) (h : NextBitsAre s w) :
    decodeSym c (left + w.length) (ofBits p) p.length s =
      decodeSym c left (ofBits (p ++ w)) (p ++ w).length (s.advance w.length) := by
  induction w generalizing p s with
  | nil => simp [State.advance]
  | cons x w ih =>
    have hsplit : p ++ x :: w = (p ++ [x]) ++ w := by simp
    obtain ⟨hx, hw⟩ := nextBitsAre_of_append (xs := [x]) h
    rw [List.length_cons, ← Nat.add_assoc, decodeSym_bit hin hx, if_neg]
    · rw [hsplit] at hno ⊢
      have hnext := ih (readerInBuf_advance 1 hin) hno hw
      rw [List.length_append, List.length_singleton] at hnext
      rw [hnext, State.advance_advance, Nat.add_comm 1]
    · rintro ⟨hfirst, hlast⟩
      obtain ⟨b, hlen, hval⟩ := exists_codeOf_eq (Nat.succ_pos _) hfirst hlast
      have hbits := bitsOf_ofBits (p ++ [x])
      rw [List.length_append, List.length_singleton, ← hval, ← Nat.succ_eq_add_one,
        ← hlen] at hbits
      refine hno b (by omega) ?_
      rw [hsplit, codeBits, hbits]
      exact List.prefix_append _ _

/-- R177: the decoder reads a code as its symbol. -/
theorem decodeSym_codeBits (hc : kraftSum c ≤ 2 ^ 255) (hb : 0 < lenOf c b) (hin : ReaderInBuf s)
    (h : NextBitsAre s (codeBits c b)) :
    decodeSym c (maxLen c) 0 0 s = .ok (b, s.advance (lenOf c b)) := by
  have hlen := length_codeBits c b
  rcases List.eq_nil_or_concat' (codeBits c b) with hnil | ⟨w, x, hbits⟩
  · rw [hnil] at hlen
    exact absurd hlen hb.ne
  have hwlen : w.length + 1 = lenOf c b := by simpa [hbits] using hlen
  have hno : NoCodeBegins c ([] ++ w) := by
    intro a ha hpre
    have hab : codeBits c a <+: codeBits c b := hbits ▸ hpre.trans (List.prefix_append _ _)
    have hle := hpre.length_le
    rw [eq_of_codeBits_prefix hc ha hb hab, length_codeBits, List.nil_append] at hle
    omega
  obtain ⟨left, hleft⟩ := Nat.exists_eq_add_of_le (lenOf_le_maxLen c b)
  have hsteps : maxLen c = left + 1 + w.length := by omega
  rw [hbits] at h
  obtain ⟨hw, hx⟩ := nextBitsAre_of_append h
  have hskip := decodeSym_skip (left := left + 1) hin hno hw
  rw [List.nil_append] at hskip
  have hcode : ofBits (w ++ [x]) = codeOf c b := by
    rw [← hbits]
    exact ofBits_bitsOf (codeOf_lt hc hb)
  rw [hsteps]
  refine hskip.trans ?_
  rw [decodeSym_bit (readerInBuf_advance _ hin) hx, hcode, hwlen, if_pos (codeOf_in_codes hb),
    getD_symbolsOfLen, State.advance_advance, hwlen]

/-! ## Bytes written while bits are read (R89, R178) -/

/-- R89: the bytes from `a` on lie outside the reader's range. -/
def ReaderApart (s : State) (a n : Nat) : Prop :=
  ∀ x, a ≤ x → x < a + n → ¬(s.rd.base ≤ x ∧ x < s.rd.base + s.rd.len)

/-- R143: the bits ahead are bits of the reader's range. -/
theorem nextBitsAre_storeBytes {bits : List Bool} {a : Nat} {bytes : List Byte}
    (hin : ReaderInBuf s) (hapart : ReaderApart s a bytes.length) (h : NextBitsAre s bits) :
    NextBitsAre (s.storeBytes a bytes) bits := by
  obtain ⟨-, -, hstop⟩ := hin
  obtain ⟨hlast, hbits⟩ := h
  refine ⟨hlast, fun j hj => ?_⟩
  rw [hbits j hj]
  refine congrArg (fun b : Byte => b.getLsbD _) (s.byteAt_storeBytes_of_not_mem fun hmem => ?_).symm
  obtain ⟨hlo, hhi⟩ := hmem
  refine hapart _ hlo hhi ⟨Nat.le_add_right _ _, ?_⟩
  show s.rd.base + (s.rd.pos + j) / 8 < _
  omega

/-- R178: the decoder on the codes of bytes, with `n` more bytes to come. -/
theorem hufDecode_codes {xs : List Byte} {a n : Nat} (hc : kraftSum c ≤ 2 ^ 255)
    (hin : ReaderInBuf s) (hxs : ∀ b ∈ xs, 0 < lenOf c b) (hapart : ReaderApart s a xs.length)
    (h : NextBitsAre s (xs.flatMap (codeBits c))) :
    hufDecode c (n + xs.length) a s = hufDecode c n (a + xs.length)
      ((s.advance (xs.flatMap (codeBits c)).length).storeBytes a xs) := by
  induction xs generalizing a s with
  | nil => rfl
  | cons b bs ih =>
    obtain ⟨hb, hbs⟩ := List.forall_mem_cons.1 hxs
    obtain ⟨hcode, hrest⟩ := nextBitsAre_of_append (xs := codeBits c b) h
    rw [length_codeBits] at hrest
    rw [List.length_cons] at hapart ⊢
    rw [← Nat.add_assoc, hufDecode, decodeSym_codeBits hc hb hin hcode]
    have hone : ReaderApart (s.advance (lenOf c b)) a [b].length := fun x hlo hhi =>
      hapart x hlo (by rw [List.length_singleton] at hhi; omega)
    have htail : ReaderApart ((s.advance (lenOf c b)).storeBytes a [b]) (a + 1) bs.length :=
      fun x hlo hhi => hapart x (by omega) (by omega)
    refine (ih (s := (s.advance (lenOf c b)).storeBytes a [b]) hin hbs htail
      (nextBitsAre_storeBytes hin hone hrest)).trans ?_
    rw [List.flatMap_cons, List.length_append, length_codeBits, ← State.advance_advance,
      Nat.add_assoc, Nat.add_comm 1]
    rfl

/-! ## HUF_DEC (R178) -/

theorem readerApart_of_ready {n : Nat} (h : DecoderReady s) (hn : n ≤ s.cnt.toNat) :
    ReaderApart s s.dstAddr.toNat n := by
  obtain ⟨-, -, hover, hcap⟩ := h
  intro x hlo hhi hmem
  refine hover ⟨?_, ?_, ?_, ?_⟩ <;> omega

/-- R316: the decoder pre-checks pass. -/
theorem firstError_decoderChecks (h : DecoderReady s) : firstError (decoderChecks s) = none := by
  obtain ⟨hopen, hdst, hover, hcap⟩ := h
  exact firstError_of_pass hopen (firstError_of_pass ((checkDst_iff s).2 hdst)
    (firstError_of_pass (not_overlap_iff.2 hover)
      (firstError_of_pass ((checkCnt_fst s).2 hcap) rfl)))

theorem firstError_hufDec (h : DecoderReady s) (hcode : s.cnt = 0#64 ∨ ∃ b, 0 < lenOf s.clen b) :
    firstError (decoderChecks s ++ [(decide (s.cnt = 0#64 ∨ coded s.clen ≠ []), .corruptHeader)]) =
      none := by
  rw [firstError_append, firstError_decoderChecks h, Option.none_or]
  refine firstError_of_pass (decide_eq_true (hcode.imp_right fun ⟨b, hb⟩ => ?_)) rfl
  exact List.ne_nil_of_mem (mem_coded.2 hb)

theorem execHufDec_emptyCode (h : DecoderReady s) (hcnt : s.cnt ≠ 0#64)
    (hlen : ∀ b, lenOf s.clen b = 0) : execHufDec s = .next (failWith s 0x04#8) := by
  refine runCommand_pre (e := .corruptHeader) ?_
  have hnil : coded s.clen = [] :=
    List.filter_eq_nil_iff.2 fun b _ hb => (of_decide_eq_true hb).ne' (hlen b)
  rw [firstError_append, firstError_decoderChecks h, Option.none_or]
  exact firstError_of_fail (by simp [hcnt, hnil])

/-- R318: HUF_DEC raises what its decoder raises. -/
theorem execHufDec_fails {e : CmdError} (h : DecoderReady s) (hcode : ∃ b, 0 < lenOf s.clen b)
    (hdec : hufDecode s.clen s.cnt.toNat s.dstAddr.toNat s = .error (.raise e)) :
    RunFails .hufDec s e.code := by
  have hend : execHufDec s = .next (endRunError e (outputRange .hufDec s) s) := by
    refine runCommand_run (firstError_hufDec h (.inr hcode)) ?_
    rw [hdec]
    rfl
  exact ⟨_, hend, rfl, runErrorEnds_endRunError (by simp [runCodes]) _⟩

section
variable {xs : List Byte} (hc : kraftSum s.clen ≤ 2 ^ 255) (hready : DecoderReady s)
  (hin : ReaderInBuf s) (hxs : ∀ b ∈ xs, 0 < lenOf s.clen b)
include hc hready hin hxs

theorem execHufDec_decodes (hlen : xs.length = s.cnt.toNat)
    (h : NextBitsAre s (xs.flatMap (codeBits s.clen))) :
    ∃ t, execHufDec s = .next t ∧ DecodeEnds s t xs (xs.flatMap (codeBits s.clen)).length
      s.cnt.toNat (xs.flatMap (codeBits s.clen)).length 0 := by
  have hdec := hufDecode_codes (n := 0) hc hin hxs (readerApart_of_ready hready hlen.le) h
  rw [Nat.zero_add, hlen] at hdec
  have hcode : s.cnt = 0#64 ∨ ∃ b, 0 < lenOf s.clen b := by
    cases xs with
    | nil => exact .inl (BitVec.eq_of_toNat_eq hlen.symm)
    | cons b bs => exact .inr ⟨b, hxs b List.mem_cons_self⟩
  refine ⟨_, runCommand_ok (firstError_hufDec hready hcode)
    (d := ⟨(s.advance (xs.flatMap (codeBits s.clen)).length).storeBytes s.dstAddr.toNat xs,
      s.cnt.toNat, (xs.flatMap (codeBits s.clen)).length, 0⟩) ?_, rfl, fun j hj => ?_,
    fun a ha => ?_⟩
  · rw [hdec]
    show Except.ok (Done.mk _ _ (s.rd.pos + _ - s.rd.pos) _) = _
    rw [Nat.add_sub_cancel_left]
  · rw [endOk_byteAt, State.byteAt_storeBytes_of_mem _ (by omega), Nat.add_sub_cancel_left,
      List.getD_eq_getElem _ _ hj]
  · exact State.byteAt_storeBytes_of_not_mem _ ha

/-- R177, R178: after the codes of fewer than CNT bytes the decoder reads over bits that no code
begins, and then looks for the rest of a symbol's code. -/
theorem hufDecode_no_code {w : List Bool} {left : Nat} (hlen : xs.length < s.cnt.toNat)
    (hno : NoCodeBegins s.clen w) (hleft : maxLen s.clen = left + w.length)
    (h : NextBitsAre s (xs.flatMap (codeBits s.clen) ++ w)) :
    ∃ (f : Byte × State → Except Halt State) (u : State),
      hufDecode s.clen s.cnt.toNat s.dstAddr.toNat s =
        decodeSym s.clen left (ofBits w) w.length u >>= f ∧
      u.rd.stop = s.rd.stop ∧
      u.rd.pos = s.rd.pos + (xs.flatMap (codeBits s.clen) ++ w).length := by
  obtain ⟨n, hn⟩ := Nat.exists_eq_add_of_lt hlen
  obtain ⟨hcodes, hw⟩ := nextBitsAre_of_append h
  have hapart := readerApart_of_ready hready hlen.le
  have hdec := hufDecode_codes (n := n + 1) hc hin hxs hapart hcodes
  have hskip := decodeSym_skip (p := []) (left := left)
    (s := (s.advance (xs.flatMap (codeBits s.clen)).length).storeBytes s.dstAddr.toNat xs)
    hin hno (nextBitsAre_storeBytes hin hapart hw)
  rw [← hleft, List.nil_append] at hskip
  have hcnt : s.cnt.toNat = n + 1 + xs.length := by omega
  rw [hcnt, hdec]
  refine ⟨_, _, congrArg (· >>= _) hskip, rfl, ?_⟩
  rw [List.length_append, ← Nat.add_assoc]
  rfl

end

theorem maxLen_of_largestLen {m : Nat} (h : LargestLen c m) : maxLen c = m := by
  obtain ⟨-, hall, b, hb⟩ := h
  obtain ⟨a, ha⟩ := exists_lenOf_eq_maxLen c
  exact Nat.le_antisymm (ha ▸ hall a) (hb ▸ lenOf_le_maxLen c b)

theorem exists_code_of_largestLen {m : Nat} (h : LargestLen c m) : ∃ b, 0 < lenOf c b := by
  obtain ⟨hm, -, b, hb⟩ := h
  exact ⟨b, hb ▸ hm⟩

section
variable {xs : List Byte} {w : List Bool} {m : Nat} (hc : kraftSum s.clen ≤ 2 ^ 255)
  (hready : DecoderReady s) (hin : ReaderInBuf s) (hlen : xs.length < s.cnt.toNat)
  (hxs : ∀ b ∈ xs, 0 < lenOf s.clen b) (hm : LargestLen s.clen m) (hno : NoCodeBegins s.clen w)
include hc hready hin hlen hxs hm hno

/-- R177: the largest length is reached without a code. -/
theorem execHufDec_corrupt (hw : w.length = m)
    (h : NextBitsAre s (xs.flatMap (codeBits s.clen) ++ w)) : RunFails .hufDec s 0x07#8 := by
  obtain ⟨f, u, hdec, -⟩ := hufDecode_no_code (left := 0) hc hready hin hxs hlen hno
    (by rw [maxLen_of_largestLen hm]; omega) h
  exact execHufDec_fails (e := .corruptStream) hready (exists_code_of_largestLen hm) hdec

/-- R177: the stream ends before a code does. -/
theorem execHufDec_truncated (hw : w.length < m)
    (h : LastBitsAre s (xs.flatMap (codeBits s.clen) ++ w)) : RunFails .hufDec s 0x05#8 := by
  obtain ⟨h, hstop⟩ := h
  obtain ⟨left, hleft⟩ := Nat.exists_eq_add_of_lt hw
  obtain ⟨f, u, hdec, hustop, hupos⟩ := hufDecode_no_code (left := left + 1) hc hready hin hxs hlen
    hno (by rw [maxLen_of_largestLen hm]; omega) h
  refine execHufDec_fails (e := .truncatedStream) hready (exists_code_of_largestLen hm) ?_
  rw [hdec, decodeSym, State.get_past_stop _ (by omega)]
  rfl

end

end

end Sys2Proof.Machine

namespace Sys2Proof.Proofs

open Sys2Proof.Machine Sys2Proof.Claims

/-- Settles O45: the decoder reads each code as its symbol, as no code begins another, and reads
over bits that no code begins. -/
theorem hufDecInvertsHufEnc : Obligations.HufDecInvertsHufEnc :=
  ⟨fun _ _ hc hready hin hlen hxs => execHufDec_decodes hc hready hin hxs hlen,
    fun _ _ _ _ hc hready hin hlen hxs hm hno =>
      ⟨execHufDec_corrupt hc hready hin hlen hxs hm hno,
        execHufDec_truncated hc hready hin hlen hxs hm hno⟩,
    fun _ => execHufDec_emptyCode⟩

end Sys2Proof.Proofs
end

section
/-! The LZ77 match finder and encoder (43_lz.md R210 to R213): the search keeps the longest match of
the smallest offset, which is unique, so the encoder's tokens are the only greedy ones. -/

namespace Sys2Proof.Machine

open Sys2Proof.Claims

/-! ## The match finder (R210) -/

/-- R210: the inner loop counts the leading bytes that agree, up to `cap`. -/
theorem le_matchLen_iff {l cap : Nat} {xs ys : List Byte} :
    l ≤ matchLen cap xs ys ↔ l ≤ cap ∧ l ≤ xs.length ∧ ∀ j < l, xs[j]? = ys[j]? := by
  rcases l.eq_zero_or_pos with rfl | hpos
  · simp
  fun_induction matchLen cap xs ys generalizing l with
  | case1 cap xs x ys ih =>
    obtain ⟨l, rfl⟩ := Nat.exists_eq_succ_of_ne_zero hpos.ne'
    rw [Nat.forall_lt_succ_left]
    rcases l.eq_zero_or_pos with rfl | hl
    · simp
    · simp [ih hl]
  | case2 cap x xs y ys hne =>
    exact iff_of_false hpos.not_ge fun ⟨_, _, h⟩ => hne (by simpa using h 0 hpos)
  | case3 cap xs ys hcons =>
    refine iff_of_false hpos.not_ge fun ⟨hcap, hxs, h⟩ => ?_
    obtain ⟨cap, rfl⟩ := Nat.exists_eq_succ_of_ne_zero (hpos.trans_le hcap).ne'
    obtain ⟨x, xs, rfl⟩ := List.exists_cons_of_length_pos (hpos.trans_le hxs)
    have hhead := h 0 hpos
    cases ys with
    | nil => simp at hhead
    | cons y ys => exact hcons _ _ _ _ _ rfl rfl rfl

/-- R210: the search for the longest match, of the smallest offset among the longest, over the
offsets up to `n`; `f d` is the length of the match at offset `d`. -/
structure LongestOffset (f : Nat → Nat) (n : Nat) (best : Nat × Nat) : Prop where
  zero : best.2 = 0 → best.1 = 0
  reached : 0 < best.2 → 1 ≤ best.1 ∧ best.1 ≤ n ∧ best.2 = f best.1
  longest : ∀ d, 1 ≤ d → d ≤ n → f d ≤ best.2 ∧ (f d = best.2 → best.1 ≤ d)

/-- R210: one more offset. -/
theorem LongestOffset.succ {f : Nat → Nat} {n : Nat} {best : Nat × Nat}
    (h : LongestOffset f n best) :
    LongestOffset f (n + 1) (if f (n + 1) > best.2 then (n + 1, f (n + 1)) else best) := by
  obtain ⟨hzero, hreached, hlongest⟩ := h
  split_ifs with hlonger
  · refine ⟨fun h0 => absurd h0 (Nat.ne_zero_of_lt hlonger), fun _ => ⟨by simp, le_rfl, rfl⟩,
      fun d hd hn => ?_⟩
    rcases Nat.le_succ_iff.1 hn with hle | rfl
    · have := (hlongest d hd hle).1
      exact ⟨by omega, by omega⟩
    · exact ⟨le_rfl, fun _ => le_rfl⟩
  · refine ⟨hzero, fun hpos => ?_, fun d hd hn => ?_⟩
    · obtain ⟨hone, hle, heq⟩ := hreached hpos
      exact ⟨hone, Nat.le_succ_of_le hle, heq⟩
    · rcases Nat.le_succ_iff.1 hn with hle | rfl
      · exact hlongest d hd hle
      · refine ⟨Nat.le_of_not_gt hlonger, fun _ => ?_⟩
        rcases best.2.eq_zero_or_pos with h0 | hpos
        · exact hzero h0 ▸ Nat.zero_le _
        · exact Nat.le_succ_of_le (hreached hpos).2.1

theorem longestOffset_foldl (f : Nat → Nat) (n : Nat) : LongestOffset f n
    ((List.range' 1 n).foldl (fun best d => if f d > best.2 then (d, f d) else best) (0, 0)) := by
  induction n with
  | zero => exact ⟨fun _ => rfl, by simp, by omega⟩
  | succ n ih =>
    rw [List.range'_1_concat, List.foldl_append, Nat.add_comm 1]
    exact ih.succ

section
variable {src : List Byte} {i d l : Nat}

theorem le_matchLen_drop_iff (hd : d ≤ i) :
    l ≤ matchLen (min 258 (src.length - i)) (src.drop i) (src.drop (i - d)) ↔
      l ≤ min 258 (src.length - i) ∧ MatchesBack src i d l := by
  have hback : ∀ j, i - d + j = i + j - d := by omega
  rw [le_matchLen_iff, List.length_drop, MatchesBack]
  simp only [List.getElem?_drop, hback]
  exact ⟨fun ⟨hcap, _, h⟩ => ⟨hcap, h⟩, fun ⟨hcap, h⟩ => ⟨hcap, by omega, h⟩⟩

/-- R210: the search gives the longest match. -/
theorem longestMatch_lz77Find (src : List Byte) (i : Nat) :
    LongestMatch src i (lz77Find src i).1 (lz77Find src i).2 := by
  unfold lz77Find
  split_ifs with hend
  · exact ⟨by simp, fun _ => rfl, by simp, by omega⟩
  obtain ⟨hzero, hreached, hlongest⟩ := longestOffset_foldl
    (fun d => matchLen (min 258 (src.length - i)) (src.drop i) (src.drop (i - d))) (min i 4096)
  refine ⟨?_, hzero, fun hpos => ?_, fun d' l' hone hwindow _ hcap hback => ?_⟩
  · by_contra hlong
    obtain ⟨-, hwindow, heq⟩ := hreached (Nat.zero_lt_of_lt (Nat.lt_of_not_le hlong))
    exact hlong ((le_matchLen_drop_iff (hwindow.trans (min_le_left _ _))).1 heq.le).1
  · obtain ⟨hone, hwindow, heq⟩ := hreached hpos
    exact ⟨hone, hwindow,
      ((le_matchLen_drop_iff (hwindow.trans (min_le_left _ _))).1 heq.le).2⟩
  · obtain ⟨hle, hsmall⟩ := hlongest d' hone hwindow
    have hl' := (le_matchLen_drop_iff (hwindow.trans (min_le_left _ _))).2 ⟨hcap, hback⟩
    exact ⟨hl'.trans hle, fun heq => hsmall (Nat.le_antisymm hle (heq ▸ hl'))⟩

theorem longestMatch_le {d' l' : Nat} (h : LongestMatch src i d l) (h' : LongestMatch src i d' l') :
    l' ≤ l ∧ (l' = l → d ≤ d') := by
  obtain ⟨-, hzero, -, hlongest⟩ := h
  obtain ⟨hcap, -, hmatch, -⟩ := h'
  rcases l'.eq_zero_or_pos with rfl | hpos
  · exact ⟨Nat.zero_le _, fun h0 => hzero h0.symm ▸ Nat.zero_le _⟩
  · obtain ⟨hone, hwindow, hback⟩ := hmatch hpos
    exact hlongest d' l' hone hwindow hpos hcap hback

/-- R210: the longest match of the smallest offset is unique. -/
theorem longestMatch_unique {d' l' : Nat} (h : LongestMatch src i d l)
    (h' : LongestMatch src i d' l') : d = d' ∧ l = l' := by
  obtain ⟨hle, hd⟩ := longestMatch_le h h'
  obtain ⟨hle', hd'⟩ := longestMatch_le h' h
  have hl := Nat.le_antisymm hle' hle
  exact ⟨Nat.le_antisymm (hd hl.symm) (hd' hl), hl⟩

end

/-! ## LZ77_FIND (R212) -/

theorem execLz77Find_finds {s : State} (hsrc : SourceInBuf s) :
    execLz77Find s = .next (finish s (lz77Find s.source s.cnt.toNat).1
      (lz77Find s.source s.cnt.toNat).2 0) :=
  runCommand_ok (d := ⟨s, _, _, 0⟩) (firstError_of_pass ((checkSrc_iff s).2 hsrc) rfl) rfl

theorem execLz77Find_badAddress {s : State} (hsrc : ¬SourceInBuf s) :
    execLz77Find s = .next (failWith s 0x11#8) :=
  runCommand_pre (e := .badAddress) (firstError_of_fail (mt (checkSrc_iff s).1 hsrc))

/-! ## Greedy tokens (R213) -/

/-- R213: the tokens of the encoder's loop, with fuel for the bytes that are left. -/
theorem greedy77_lz77Tokens {src : List Byte} {fuel i : Nat} (hfuel : src.length ≤ i + fuel) :
    Greedy77 src (lz77Tokens src fuel i) i := by
  induction fuel generalizing i with
  | zero => exact hfuel
  | succ fuel ih =>
    have hmatch := longestMatch_lz77Find src i
    rw [lz77Tokens]
    split_ifs with hi
    · by_cases hlong : (lz77Find src i).2 ≥ Config.lz77Min
      · rw [if_pos hlong]
        have hpos : 3 ≤ (lz77Find src i).2 := hlong
        exact ⟨hi, hmatch, hlong, ih (by omega)⟩
      · rw [if_neg hlong]
        exact ⟨by simp [hi], ⟨_, _, hmatch, Nat.lt_of_not_ge hlong⟩, ih (by omega)⟩
    · exact Nat.le_of_not_lt hi

section
variable {src : List Byte} {ts : List Lz77Token} {i : Nat}

/-- R213: the loop gives no other greedy tokens, as each one is fixed by the longest match. -/
theorem lz77Tokens_of_greedy77 {fuel : Nat} (h : Greedy77 src ts i)
    (hfuel : src.length ≤ i + fuel) : lz77Tokens src fuel i = ts := by
  induction ts generalizing i fuel with
  | nil =>
    cases fuel with
    | zero => rfl
    | succ fuel => exact if_neg (Nat.not_lt.2 h)
  | cons t ts ih =>
    have hfind := longestMatch_lz77Find src i
    cases t with
    | literal b =>
      obtain ⟨hb, ⟨d, l, hmatch, hshort⟩, hrest⟩ := h
      obtain ⟨hi, rfl⟩ := List.getElem?_eq_some_iff.1 hb
      obtain ⟨-, rfl⟩ := longestMatch_unique hmatch hfind
      obtain ⟨fuel, rfl⟩ := Nat.exists_eq_succ_of_ne_zero (by omega : fuel ≠ 0)
      rw [lz77Tokens, if_pos hi]
      refine (if_neg hshort.not_ge).trans ?_
      rw [ih hrest (by omega), List.getD_eq_getElem _ _ hi]
    | copy d l =>
      obtain ⟨hi, hmatch, hlong, hrest⟩ := h
      obtain ⟨rfl, rfl⟩ := longestMatch_unique hmatch hfind
      obtain ⟨fuel, rfl⟩ := Nat.exists_eq_succ_of_ne_zero (by omega : fuel ≠ 0)
      rw [lz77Tokens, if_pos hi]
      refine (if_pos hlong).trans ?_
      rw [ih hrest (by omega)]

/-- R219 (c): greedy tokens are tokens of the format, with offsets that do not pass the bytes
before them. -/
theorem valid77_of_greedy77 (h : Greedy77 src ts i) : Valid77 ts i := by
  induction ts generalizing i with
  | nil => trivial
  | cons t ts ih =>
    cases t with
    | literal b => exact ih h.2.2
    | copy d l =>
      obtain ⟨-, ⟨hcap, -, hmatch, -⟩, hlong, hrest⟩ := h
      obtain ⟨hone, hwindow, -⟩ := hmatch (by omega)
      exact ⟨hone, hwindow, hlong, by omega, ih hrest⟩

/-- R214: a copy of a match gives the bytes that it matches. -/
theorem copyOut_take {d l : Nat} (hone : 1 ≤ d) (hd : d ≤ i) (hl : i + l ≤ src.length)
    (hback : MatchesBack src i d l) : copyOut d l (src.take i) = src.take (i + l) := by
  induction l generalizing i with
  | zero => rfl
  | succ l ih =>
    have hi : i < src.length := by omega
    have hbyte : (src.take i).getD ((src.take i).length - d) 0#8 = src[i] := by
      have hb := hback 0 l.succ_pos
      rw [Nat.add_zero, List.getElem?_eq_getElem hi] at hb
      rw [List.length_take, Nat.min_eq_left hi.le, List.getD_eq_getElem?_getD,
        List.getElem?_take_of_lt (by omega), ← hb, Option.getD_some]
    rw [← Nat.add_assoc, Nat.add_right_comm] at hl ⊢
    rw [copyOut, hbyte, List.take_append_getElem hi]
    refine ih (by omega) hl fun j hj => ?_
    have := hback (j + 1) (by omega)
    rwa [← Nat.add_assoc, Nat.add_right_comm] at this

/-- R213, R214: greedy tokens expand to the bytes that they stand for. -/
theorem expand77_take (h : Greedy77 src ts i) (hi : i ≤ src.length) :
    expand77 ts (src.take i) = src := by
  induction ts generalizing i with
  | nil => exact List.take_of_length_le h
  | cons t ts ih =>
    cases t with
    | literal b =>
      obtain ⟨hb, -, hrest⟩ := h
      obtain ⟨hlt, rfl⟩ := List.getElem?_eq_some_iff.1 hb
      rw [expand77, List.take_append_getElem hlt]
      exact ih hrest hlt
    | copy d l =>
      obtain ⟨-, ⟨hcap, -, hmatch, -⟩, hlong, hrest⟩ := h
      obtain ⟨hone, hwindow, hback⟩ := hmatch (by omega)
      rw [expand77, copyOut_take hone (by omega) (by omega) hback]
      exact ih hrest (by omega)

/-- R211: a literal takes 9 bits and a match, of 3 bytes or more, 21. -/
theorem length_bits_le (h : Greedy77 src ts i) (hi : i ≤ src.length) :
    (ts.flatMap Lz77Token.bits).length ≤ 9 * (src.length - i) := by
  induction ts generalizing i with
  | nil => exact Nat.zero_le _
  | cons t ts ih =>
    rw [List.flatMap_cons, List.length_append]
    cases t with
    | literal b =>
      obtain ⟨hb, -, hrest⟩ := h
      have hlt := (List.getElem?_eq_some_iff.1 hb).1
      have := ih hrest hlt
      simp only [Lz77Token.bits, List.length_cons, length_bitsOf]
      omega
    | copy d l =>
      obtain ⟨-, ⟨hcap, -⟩, hlong, hrest⟩ := h
      have := ih hrest (by omega)
      simp only [Lz77Token.bits, List.length_cons, List.length_append, length_bitsOf,
        Config.lz77OffBits, Config.lz77LenBits]
      omega

end

/-! ## Encoders (R213, R217) -/

theorem writerHasRoom_of_le {s : State} {m n : Nat} (h : WriterHasRoom s n) (hmn : m ≤ n) :
    WriterHasRoom s m := by
  obtain ⟨hopen, hbuf, hacc, hroom⟩ := h
  exact ⟨hopen, hbuf, hacc, by omega⟩

/-- R213, R217, R318: an encoder appends its bits where they fit, and overflows where not. -/
theorem exec_encoder {i : Instr} {s : State} {body : State → Except Halt Done} {bits : List Bool}
    {o0 o1 : Nat} (hready : EncoderReady s) (hi : runCodes i ≠ [])
    (hexec : exec i s = runCommand (encoderChecks s) (outputRange i s) body s)
    (hbody : body s = s.appendBits bits >>= fun u => pure ⟨u, o0, o1, 0⟩) :
    (WriterHasRoom s bits.length → ∃ t, exec i s = .next t ∧ AppendEnds s t bits o0 o1 0) ∧
      (WriterLacks s bits.length → RunFails i s 0x12#8) := by
  have hchecks := firstError_encoderChecks hready
  rw [RunFails, hexec]
  constructor
  · intro hroom
    obtain ⟨u, hu, happ⟩ := State.appendBits_of_room hroom
    refine ⟨finish u o0 o1 0, runCommand_ok (d := ⟨u, o0, o1, 0⟩) hchecks ?_, u, happ, rfl⟩
    rw [hbody, hu]
    rfl
  · intro hlack
    refine ⟨_, runCommand_run (e := .outputOverflow) hchecks ?_, rfl,
      runErrorEnds_endRunError hi _⟩
    rw [hbody, State.appendBits_of_lacks hlack]
    rfl

/-! ## LZ77_ENC (R213) -/

theorem exec_lz77Enc {s : State} {ts : List Lz77Token} (hready : EncoderReady s)
    (hgreedy : Greedy77 s.source ts 0) :
    (WriterHasRoom s (ts.flatMap Lz77Token.bits).length →
        ∃ t, exec .lz77Enc s = .next t ∧
          AppendEnds s t (ts.flatMap Lz77Token.bits) ts.length (matchCount ts) 0) ∧
      (WriterLacks s (ts.flatMap Lz77Token.bits).length → RunFails .lz77Enc s 0x12#8) := by
  have htokens : lz77Tokens s.source s.srcLen.toNat 0 = ts :=
    lz77Tokens_of_greedy77 hgreedy (by simp [State.source])
  refine exec_encoder hready (by simp [runCodes]) (by rw [exec, execLz77Enc]) ?_
  simp only [htokens, matchCount, List.countP_eq_length_filter]

end Sys2Proof.Machine

namespace Sys2Proof.Proofs

open Sys2Proof.Machine Sys2Proof.Claims

/-- Settles O47: the search tries the offsets in ascending order and keeps only a longer match. -/
theorem lz77FindLongest : Obligations.Lz77FindLongest :=
  ⟨by decide, fun _ => ⟨fun hsrc => ⟨_, _, execLz77Find_finds hsrc, longestMatch_lz77Find _ _⟩,
    execLz77Find_badAddress⟩⟩

/-- Settles O49: each round searches once and moves past the bytes that its token stands for. -/
theorem lz77TokensAreGreedy : Obligations.Lz77TokensAreGreedy := fun _ =>
  greedy77_lz77Tokens (by omega)

/-- Settles O48: the greedy tokens are unique, so what holds of any greedy tokens holds of those
that the encoder appends. -/
theorem lz77EncTokensExpand : Obligations.Lz77EncTokensExpand := by
  refine ⟨fun s hready hroom => ?_, fun _ _ => exec_lz77Enc⟩
  have hgreedy := lz77TokensAreGreedy s.source
  have hlen : s.source.length = s.srcLen.toNat := s.length_bytesAt _ _
  have hbits := (length_bits_le hgreedy (Nat.zero_le _)).trans_eq (congrArg (9 * ·) hlen)
  obtain ⟨t, hexec, hends⟩ := (exec_lz77Enc hready hgreedy).1 (writerHasRoom_of_le hroom hbits)
  exact ⟨t, _, hexec, hgreedy, valid77_of_greedy77 hgreedy,
    expand77_take hgreedy (Nat.zero_le _), hbits, hends⟩

end Sys2Proof.Proofs
end

section
/-! LZ77_DEC (43_lz.md R214, 70_reset_and_hazards.md R363): a decoder's state is its first state
with bits consumed and bytes written, and each token moves it as the token expands. -/

namespace Sys2Proof.Machine

open Sys2Proof.Claims

/-! ## A decoder under way (R89) -/

theorem Memory.writeBytes_append (m : Memory) (a : Nat) (xs ys : List Byte) :
    m.writeBytes a (xs ++ ys) = (m.writeBytes a xs).writeBytes (a + xs.length) ys := by
  induction xs generalizing m a with
  | nil => rfl
  | cons x xs ih =>
    rw [List.cons_append, Memory.writeBytes, ih, Memory.writeBytes, List.length_cons,
      Nat.add_assoc, Nat.add_comm 1]

/-- R89: `m` bits of the stream consumed and the bytes `o` written from DST_ADDR on. -/
def State.decoded (s : State) (m : Nat) (o : List Byte) : State :=
  (s.advance m).storeBytes s.dstAddr.toNat o

section
variable {s : State} {m n : Nat} {o : List Byte}

theorem State.advance_decoded : (s.decoded m o).advance n = s.decoded (m + n) o := by
  simp [State.decoded, State.advance, State.storeBytes, Nat.add_assoc]

theorem State.storeBytes_decoded (l : List Byte) :
    (s.decoded m o).storeBytes (s.dstAddr.toNat + o.length) l = s.decoded m (o ++ l) := by
  simp [State.decoded, State.storeBytes, Memory.writeBytes_append]

theorem State.byteAt_decoded {j : Nat} (hj : j < o.length) :
    (s.decoded m o).byteAt (s.dstAddr.toNat + j) = o.getD j 0#8 := by
  rw [State.decoded, State.byteAt_storeBytes_of_mem _ (by omega), Nat.add_sub_cancel_left]

theorem readerInBuf_decoded (hin : ReaderInBuf s) : ReaderInBuf (s.decoded m o) := hin

/-- R143: bits of a known value lie ahead. -/
theorem State.get_decoded {v : Nat} (e : CmdError) (hready : DecoderReady s) (hin : ReaderInBuf s)
    (ho : o.length ≤ s.cnt.toNat) (hv : v < 2 ^ n) (h : NextBitsAre (s.advance m) (bitsOf v n)) :
    (s.decoded m o).get n e = .ok (v, s.decoded (m + n) o) := by
  have hbits :=
    nextBitsAre_storeBytes (readerInBuf_advance m hin) (readerApart_of_ready hready ho) h
  rw [State.get_value e (readerInBuf_decoded hin) hv hbits, State.advance_decoded]

theorem State.get_decoded_truncated (e : CmdError) (h : s.rd.stop < s.rd.pos + (m + n)) :
    (s.decoded m o).get n e = .error (.raise e) :=
  State.get_past_stop e ((Nat.add_assoc _ _ _).symm ▸ h)

/-- R143: a `get` gives some value or ends the stream. -/
theorem State.get_decoded_cases (e : CmdError) (hin : ReaderInBuf s) :
    (s.decoded m o).get n e = .error (.raise e) ∨
      ∃ v, (s.decoded m o).get n e = .ok (v, s.decoded (m + n) o) := by
  obtain ⟨-, hbuf, hstop⟩ := readerInBuf_decoded (m := m) (o := o) hin
  by_cases hfits : (s.decoded m o).rd.pos + n ≤ (s.decoded m o).rd.stop
  · rw [← State.advance_decoded]
    exact .inr ⟨_, State.get_fits n e hbuf hstop hfits⟩
  · exact .inl (State.get_past_stop e (Nat.lt_of_not_le hfits))

end

/-! ## The ends of a decoder (R313, R318) -/

section
variable {i : Instr} {s : State} {body : State → Except Halt Done} (hready : DecoderReady s)
  (hexec : exec i s = runCommand (decoderChecks s) (outputRange i s) body s)
include hready hexec

theorem exec_decoder_ends {o : List Byte} {m o0 o1 : Nat}
    (hbody : body s = .ok ⟨s.decoded m o, o0, o1, 0⟩) :
    ∃ t, exec i s = .next t ∧ DecodeEnds s t o m o0 o1 0 := by
  refine ⟨_, hexec.trans (runCommand_ok (firstError_decoderChecks hready) hbody), rfl,
    fun j hj => ?_, fun a ha => ?_⟩
  · rw [endOk_byteAt, State.byteAt_decoded hj, List.getD_eq_getElem _ _ hj]
  · exact State.byteAt_storeBytes_of_not_mem _ ha

theorem exec_decoder_fails {e : CmdError} (hi : runCodes i ≠ [])
    (hbody : body s = .error (.raise e)) : RunFails i s e.code :=
  ⟨_, hexec.trans (runCommand_run (firstError_decoderChecks hready) hbody), rfl,
    runErrorEnds_endRunError hi _⟩

end

/-! ## The output of LZ77 tokens (R214) -/

theorem length_copyOut (off len : Nat) (o : List Byte) :
    (copyOut off len o).length = o.length + len := by
  induction len generalizing o with
  | zero => rfl
  | succ len ih =>
    rw [copyOut, ih, List.length_append, List.length_singleton]
    omega

theorem expand77_cons (t : Lz77Token) (ts : List Lz77Token) (o : List Byte) :
    expand77 (t :: ts) o = expand77 ts (expand77 [t] o) := by
  cases t <;> rfl

theorem valid77_cons {t : Lz77Token} {ts : List Lz77Token} {o : List Byte} :
    Valid77 (t :: ts) o.length ↔ Valid77 [t] o.length ∧ Valid77 ts (expand77 [t] o).length := by
  cases t <;> simp [Valid77, expand77, length_copyOut, and_assoc]

/-- R211: every token produces a byte. -/
theorem lt_length_expand77 {t : Lz77Token} {o : List Byte} (h : Valid77 [t] o.length) :
    o.length < (expand77 [t] o).length := by
  cases t with
  | literal b => simp [expand77]
  | copy off len =>
    obtain ⟨-, -, hmin, -⟩ := h
    rw [expand77, expand77, length_copyOut]
    omega

theorem length_le_expand77 {ts : List Lz77Token} {o : List Byte} (h : Valid77 ts o.length) :
    o.length + ts.length ≤ (expand77 ts o).length := by
  induction ts generalizing o with
  | nil => exact le_rfl
  | cons t ts ih =>
    obtain ⟨ht, hts⟩ := valid77_cons.1 h
    have hone := lt_length_expand77 ht
    have hrest := ih hts
    rw [expand77_cons, List.length_cons]
    omega

/-- R214, R363: the copy in BUF is the copy of the output. -/
theorem copyBack_decoded {s : State} {m off len : Nat} {o : List Byte} (hone : 1 ≤ off)
    (hoff : off ≤ o.length) : copyBack off len (s.dstAddr.toNat + o.length) (s.decoded m o) =
      s.decoded m (copyOut off len o) := by
  induction len generalizing o with
  | zero => rfl
  | succ len ih =>
    have hnext := ih (o := o ++ [o.getD (o.length - off) 0#8]) (by simp; omega)
    rw [List.length_append, List.length_singleton, ← Nat.add_assoc] at hnext
    rw [copyBack, Nat.add_sub_assoc hoff, State.byteAt_decoded (by omega),
      State.storeBytes_decoded, copyOut, hnext]

/-! ## The loop of LZ77_DEC (R214) -/

theorem lz77Decode_of_le {d n out : Nat} (fuel k : Nat) (s : State) (h : n ≤ out) :
    lz77Decode d n fuel out k s = .ok (k, s) := by
  cases fuel with
  | zero => rfl
  | succ fuel => exact if_neg h.not_gt

theorem bits_literal (b : Byte) : (Lz77Token.literal b).bits = bitsOf 0 1 ++ bitsOf b.toNat 8 := rfl

theorem bits_copy (off len : Nat) : (Lz77Token.copy off len).bits =
    bitsOf 1 1 ++ (bitsOf (off - 1) 12 ++ bitsOf (len - 3) 8) := rfl

section
variable {s : State} {m fuel k : Nat} {o : List Byte} (hready : DecoderReady s)
  (hin : ReaderInBuf s)
include hready hin

theorem lz77Decode_literal {b : Byte} (ho : o.length < s.cnt.toNat)
    (h : NextBitsAre (s.advance m) (Lz77Token.literal b).bits) :
    lz77Decode s.dstAddr.toNat s.cnt.toNat (fuel + 1) o.length k (s.decoded m o) =
      lz77Decode s.dstAddr.toNat s.cnt.toNat fuel (o ++ [b]).length (k + 1)
        (s.decoded (m + 9) (o ++ [b])) := by
  rw [bits_literal] at h
  obtain ⟨hflag, hbyte⟩ := nextBitsAre_of_append h
  rw [State.advance_advance, length_bitsOf] at hbyte
  rw [lz77Decode, if_pos ho, State.get_decoded _ hready hin ho.le (by decide) hflag]
  show ((s.decoded (m + 1) o).get 8 _ >>= _) = _
  rw [State.get_decoded _ hready hin ho.le b.isLt hbyte]
  simp only [bind, Except.bind, BitVec.ofNat_toNat, BitVec.setWidth_eq, State.storeBytes_decoded,
    List.length_append, List.length_singleton]

/-- R214: a match is copied unless it goes back too far or gives too many bytes. -/
theorem lz77Decode_copy {off len : Nat} (ho : o.length < s.cnt.toNat) (hone : 1 ≤ off)
    (hwindow : off ≤ 4096) (hmin : 3 ≤ len) (hmax : len ≤ 258)
    (h : NextBitsAre (s.advance m) (Lz77Token.copy off len).bits) :
    lz77Decode s.dstAddr.toNat s.cnt.toNat (fuel + 1) o.length k (s.decoded m o) =
      if off > o.length then .error (.raise .invalidBackReference)
      else if o.length + len > s.cnt.toNat then .error (.raise .corruptStream)
      else lz77Decode s.dstAddr.toNat s.cnt.toNat fuel (copyOut off len o).length (k + 1)
        (s.decoded (m + 21) (copyOut off len o)) := by
  rw [bits_copy] at h
  obtain ⟨hflag, h⟩ := nextBitsAre_of_append h
  rw [State.advance_advance, length_bitsOf] at h
  obtain ⟨hoff, hlen⟩ := nextBitsAre_of_append h
  rw [State.advance_advance, length_bitsOf] at hlen
  rw [lz77Decode, if_pos ho, State.get_decoded _ hready hin ho.le (by decide) hflag]
  show ((s.decoded (m + 1) o).get 12 _ >>= _) = _
  rw [State.get_decoded _ hready hin ho.le (by omega) hoff]
  show ((s.decoded (m + 13) o).get 8 _ >>= _) = _
  rw [State.get_decoded _ hready hin ho.le (by omega) hlen]
  simp only [bind, Except.bind, Config.lz77Min, Nat.sub_add_cancel hone, Nat.sub_add_cancel hmin,
    length_copyOut]
  split_ifs with hback
  · rfl
  · rfl
  · rw [copyBack_decoded hone (Nat.le_of_not_gt hback)]

/-- R214: a token the format represents moves the loop on as it expands. -/
theorem lz77Decode_token {t : Lz77Token} (hvalid : Valid77 [t] o.length)
    (hlen : (expand77 [t] o).length ≤ s.cnt.toNat) (h : NextBitsAre (s.advance m) t.bits) :
    lz77Decode s.dstAddr.toNat s.cnt.toNat (fuel + 1) o.length k (s.decoded m o) =
      lz77Decode s.dstAddr.toNat s.cnt.toNat fuel (expand77 [t] o).length (k + 1)
        (s.decoded (m + t.bits.length) (expand77 [t] o)) := by
  have ho := (lt_length_expand77 hvalid).trans_le hlen
  cases t with
  | literal b => exact lz77Decode_literal hready hin ho h
  | copy off len =>
    obtain ⟨hone, hwindow, hmin, hmax, -⟩ := hvalid
    have hfits : o.length + len ≤ s.cnt.toNat := length_copyOut off len o ▸ hlen
    rw [lz77Decode_copy hready hin ho hone (by omega) hmin hmax h, if_neg (by omega),
      if_neg (by omega)]
    rfl

/-- R214: the loop on tokens that expand to CNT bytes at most. -/
theorem lz77Decode_tokens {ts : List Lz77Token} (hvalid : Valid77 ts o.length)
    (hlen : (expand77 ts o).length ≤ s.cnt.toNat)
    (h : NextBitsAre (s.advance m) (ts.flatMap Lz77Token.bits)) :
    lz77Decode s.dstAddr.toNat s.cnt.toNat (fuel + ts.length) o.length k (s.decoded m o) =
      lz77Decode s.dstAddr.toNat s.cnt.toNat fuel (expand77 ts o).length (k + ts.length)
        (s.decoded (m + (ts.flatMap Lz77Token.bits).length) (expand77 ts o)) := by
  induction ts generalizing o m k with
  | nil => rfl
  | cons t ts ih =>
    obtain ⟨ht, hts⟩ := nextBitsAre_of_append (xs := t.bits) h
    obtain ⟨hvt, hvts⟩ := valid77_cons.1 hvalid
    rw [State.advance_advance] at hts
    rw [expand77_cons] at hlen ⊢
    have hfits := (Nat.le_add_right _ _).trans ((length_le_expand77 hvts).trans hlen)
    rw [List.length_cons, ← Nat.add_assoc fuel, lz77Decode_token hready hin hvt hfits ht,
      ih hvts hlen hts, List.flatMap_cons, List.length_append, Nat.add_assoc k, Nat.add_assoc m,
      Nat.add_comm 1]

/-- R214: the stream ends within a token. -/
theorem lz77Decode_truncated {w : List Bool} (ho : o.length < s.cnt.toNat) (hw : TooShort77 w)
    (h : LastBitsAre (s.advance m) w) :
    lz77Decode s.dstAddr.toNat s.cnt.toNat (fuel + 1) o.length k (s.decoded m o) =
      .error (.raise .truncatedStream) := by
  obtain ⟨h, hstop⟩ := h
  have hend : s.rd.stop = s.rd.pos + (m + w.length) := hstop.trans (Nat.add_assoc _ _ _)
  rw [lz77Decode, if_pos ho]
  cases w with
  | nil =>
    rw [State.get_decoded_truncated _ (hend ▸ Nat.lt_succ_self _)]
    rfl
  | cons flag w =>
    have hflag : bitsOf flag.toNat 1 = [flag] := by cases flag <;> rfl
    obtain ⟨hbit, -⟩ := nextBitsAre_of_append (xs := [flag]) h
    rw [← hflag] at hbit
    rw [State.get_decoded _ hready hin ho.le (by cases flag <;> decide) hbit]
    rw [List.length_cons] at hend
    cases flag with
    | false =>
      have hshort : w.length + 1 < 9 := by simpa [TooShort77] using hw
      show ((s.decoded (m + 1) o).get 8 _ >>= _) = _
      rw [State.get_decoded_truncated _ (by omega)]
      rfl
    | true =>
      have hshort : w.length + 1 < 21 := by simpa [TooShort77] using hw
      show ((s.decoded (m + 1) o).get 12 _ >>= _) = _
      rcases State.get_decoded_cases (m := m + 1) (n := 12) (o := o) .truncatedStream hin with
        hget | ⟨v, hget⟩
      · rw [hget]
        rfl
      · rw [hget]
        show ((s.decoded (m + 13) o).get 8 _ >>= _) = _
        rw [State.get_decoded_truncated _ (by omega)]
        rfl

end

/-! ## LZ77_DEC (R214) -/

section
variable {s : State} {ts : List Lz77Token} (hready : DecoderReady s) (hin : ReaderInBuf s)
  (hvalid : Valid77 ts 0)
include hready hin hvalid

/-- R214: the loop after the tokens that come first; each of them produces a byte, so fuel for the
bytes still to come is left. -/
theorem lz77Decode_start (hlen : (expand77 ts []).length ≤ s.cnt.toNat)
    (h : NextBitsAre s (ts.flatMap Lz77Token.bits)) :
    ∃ fuel, s.cnt.toNat ≤ (expand77 ts []).length + fuel ∧
      lz77Decode s.dstAddr.toNat s.cnt.toNat s.cnt.toNat 0 0 s =
        lz77Decode s.dstAddr.toNat s.cnt.toNat fuel (expand77 ts []).length ts.length
          (s.decoded (ts.flatMap Lz77Token.bits).length (expand77 ts [])) := by
  have hbytes := length_le_expand77 (o := []) hvalid
  rw [List.length_nil, Nat.zero_add] at hbytes
  obtain ⟨fuel, hfuel⟩ := Nat.exists_eq_add_of_le' (hbytes.trans hlen)
  have hdec := lz77Decode_tokens (o := []) (m := 0) (fuel := fuel) (k := 0) hready hin hvalid hlen h
  rw [← hfuel, Nat.zero_add, Nat.zero_add] at hdec
  exact ⟨fuel, by omega, hdec⟩

theorem exec_lz77Dec_decodes (hlen : (expand77 ts []).length = s.cnt.toNat)
    (h : NextBitsAre s (ts.flatMap Lz77Token.bits)) :
    ∃ t, exec .lz77Dec s = .next t ∧ DecodeEnds s t (expand77 ts [])
      (ts.flatMap Lz77Token.bits).length ts.length s.cnt.toNat 0 := by
  obtain ⟨fuel, -, hdec⟩ := lz77Decode_start hready hin hvalid hlen.le h
  refine exec_decoder_ends hready (by rw [exec, execLz77Dec]) ?_
  rw [hdec, lz77Decode_of_le _ _ _ hlen.ge]
  rfl

section
variable (hlen : (expand77 ts []).length < s.cnt.toNat)
include hlen

/-- R318: LZ77_DEC raises what the token after those that come first raises. -/
theorem exec_lz77Dec_fails {e : CmdError} (h : NextBitsAre s (ts.flatMap Lz77Token.bits))
    (hnext : ∀ fuel, lz77Decode s.dstAddr.toNat s.cnt.toNat (fuel + 1) (expand77 ts []).length
      ts.length (s.decoded (ts.flatMap Lz77Token.bits).length (expand77 ts [])) =
        .error (.raise e)) : RunFails .lz77Dec s e.code := by
  obtain ⟨fuel, hfuel, hdec⟩ := lz77Decode_start hready hin hvalid hlen.le h
  obtain ⟨fuel, rfl⟩ := Nat.exists_eq_succ_of_ne_zero (by omega : fuel ≠ 0)
  refine exec_decoder_fails hready (by rw [exec, execLz77Dec]) (by simp [runCodes]) ?_
  rw [hdec, hnext]
  rfl

section
variable {off len : Nat} (hone : 1 ≤ off) (hwindow : off ≤ 4096) (hmin : 3 ≤ len)
  (hmax : len ≤ 258)
  (h : NextBitsAre s ((ts ++ [Lz77Token.copy off len]).flatMap Lz77Token.bits))
include hone hwindow hmin hmax h

theorem exec_lz77Dec_backReference (hback : (expand77 ts []).length < off) :
    RunFails .lz77Dec s 0x06#8 := by
  obtain ⟨hts, hcopy⟩ := nextBitsAre_of_append (List.flatMap_append ▸ h)
  refine exec_lz77Dec_fails (e := .invalidBackReference) hready hin hvalid hlen hts fun fuel => ?_
  rw [lz77Decode_copy hready hin hlen hone hwindow hmin hmax (by simpa using hcopy), if_pos hback]

theorem exec_lz77Dec_corrupt (hback : off ≤ (expand77 ts []).length)
    (hlong : s.cnt.toNat < (expand77 ts []).length + len) : RunFails .lz77Dec s 0x07#8 := by
  obtain ⟨hts, hcopy⟩ := nextBitsAre_of_append (List.flatMap_append ▸ h)
  refine exec_lz77Dec_fails (e := .corruptStream) hready hin hvalid hlen hts fun fuel => ?_
  rw [lz77Decode_copy hready hin hlen hone hwindow hmin hmax (by simpa using hcopy),
    if_neg hback.not_gt, if_pos hlong]

end

theorem exec_lz77Dec_truncated {w : List Bool} (hw : TooShort77 w)
    (h : LastBitsAre s (ts.flatMap Lz77Token.bits ++ w)) : RunFails .lz77Dec s 0x05#8 := by
  obtain ⟨h, hstop⟩ := h
  obtain ⟨hts, hrest⟩ := nextBitsAre_of_append h
  refine exec_lz77Dec_fails (e := .truncatedStream) hready hin hvalid hlen hts fun fuel => ?_
  refine lz77Decode_truncated hready hin hlen hw ⟨hrest, ?_⟩
  rwa [List.length_append, ← Nat.add_assoc] at hstop

end

end

end Sys2Proof.Machine

namespace Sys2Proof.Proofs

open Sys2Proof.Machine Sys2Proof.Claims

/-- Settles O50: each token moves the loop on as it expands, and the first that does not fit the
output or the stream ends it. -/
theorem lz77DecExpandsTokens : Obligations.Lz77DecExpandsTokens :=
  ⟨fun _ _ hready hin hvalid => exec_lz77Dec_decodes hready hin hvalid,
    fun _ _ hready hin hvalid hlen =>
      ⟨fun _ _ hone hwindow hmin hmax h =>
        ⟨exec_lz77Dec_backReference hready hin hvalid hlen hone hwindow hmin hmax h,
          exec_lz77Dec_corrupt hready hin hvalid hlen hone hwindow hmin hmax h⟩,
        fun _ => exec_lz77Dec_truncated hready hin hvalid hlen⟩⟩

end Sys2Proof.Proofs
end

section
/-! LZ78_ENC (43_lz.md R215 to R217): the dictionary as the strings of its indices, the walk that
finds its longest entry, and the encoder's tokens, which are the only greedy ones. -/

namespace Sys2Proof.Machine

open Sys2Proof.Claims

/-! ## The strings of a dictionary (R215) -/

/-- R215: the strings of a dictionary's indices, entry 0 first. -/
def Dict.strings (dict : Dict) : List (List Byte) := (List.range dict.next).map dict.string

/-- R215: the strings `strs` with that of the entry (p, b) added, `w` being the string of p. -/
def growStrings (strs : List (List Byte)) (w : List Byte) (b : Byte) : List (List Byte) :=
  if strs.length < 4096 then strs ++ [w ++ [b]] else strs

/-- R215: a dictionary as additions make it. -/
inductive Dict.Built : Dict → Prop
  | nil : Built []
  | cons {dict : Dict} {p : Nat} (b : Byte) (h : Built dict) (hp : p < dict.next) :
      Built (⟨dict.next, p, b⟩ :: dict)

section
variable {dict : Dict} {p j : Nat} {b : Byte} {w : List Byte}

theorem Dict.next_nil : Dict.next [] = 1 := rfl

theorem Dict.strings_nil : Dict.strings [] = [[]] := rfl

theorem Dict.length_strings (dict : Dict) : dict.strings.length = dict.next := by
  simp [Dict.strings]

theorem Dict.getElem?_strings :
    dict.strings[p]? = if p < dict.next then some (dict.string p) else none := by
  split_ifs with hp <;> simp [Dict.strings, hp]

theorem Dict.string_mem_strings (hp : p < dict.next) : dict.string p ∈ dict.strings :=
  List.mem_map_of_mem (List.mem_range.2 hp)

theorem Dict.string_cons_of_lt (hj : j < dict.next) :
    Dict.string (⟨dict.next, p, b⟩ :: dict) j = dict.string j := if_neg hj.ne'

theorem Dict.string_cons_self :
    Dict.string (⟨dict.next, p, b⟩ :: dict) dict.next = dict.string p ++ [b] := if_pos rfl

theorem Dict.add_eq (dict : Dict) (p : Nat) (b : Byte) :
    dict.add p b = if dict.next < 4096 then ⟨dict.next, p, b⟩ :: dict else dict := rfl

/-- R215: what an addition does to the strings. -/
theorem Dict.strings_add (dict : Dict) (p : Nat) (b : Byte) :
    (dict.add p b).strings = growStrings dict.strings (dict.string p) b := by
  rw [Dict.add_eq, growStrings, Dict.length_strings]
  split_ifs with hroom
  · have hnext : Dict.next (⟨dict.next, p, b⟩ :: dict) = dict.next + 1 := rfl
    rw [Dict.strings, hnext, List.range_succ, List.map_append, List.map_singleton,
      Dict.string_cons_self]
    exact congrArg (· ++ _) (List.map_congr_left fun j hj =>
      Dict.string_cons_of_lt (List.mem_range.1 hj))
  · rfl

theorem Dict.next_add (h : dict.next ≤ 4096) :
    (dict.add p b).next = min (dict.next + 1) 4096 := by
  rw [Dict.add_eq]
  split_ifs with hroom
  · exact (Nat.min_eq_left hroom).symm
  · exact (Nat.le_antisymm h (Nat.le_of_not_lt hroom)).trans
      (Nat.min_eq_right (Nat.le_succ_of_le (Nat.le_of_not_lt hroom))).symm

theorem Dict.Built.add (h : dict.Built) (hp : p < dict.next) (b : Byte) :
    (dict.add p b).Built := by
  rw [Dict.add]
  split_ifs
  · exact .cons b h hp
  · exact h

theorem Dict.Built.string_zero (h : dict.Built) : dict.string 0 = [] := by
  induction h with
  | nil => rfl
  | cons b h hp ih => rw [Dict.string_cons_of_lt (Nat.succ_pos _), ih]

/-- R215: the string of an entry is its parent's with its byte. -/
theorem Dict.Built.string_index (h : dict.Built) {e : DictEntry} (he : e ∈ dict) :
    e.index < dict.next ∧ e.parent < dict.next ∧
      dict.string e.index = dict.string e.parent ++ [e.byte] := by
  induction h with
  | nil => cases he
  | @cons dict p b h hp ih =>
    rcases List.mem_cons.1 he with rfl | he
    · rw [Dict.string_cons_self, Dict.string_cons_of_lt hp]
      exact ⟨Nat.lt_succ_self _, Nat.lt_succ_of_lt hp, rfl⟩
    · obtain ⟨hindex, hparent, hstring⟩ := ih he
      rw [Dict.string_cons_of_lt hindex, Dict.string_cons_of_lt hparent]
      exact ⟨Nat.lt_succ_of_lt hindex, Nat.lt_succ_of_lt hparent, hstring⟩

theorem Dict.Built.exists_index (h : dict.Built) (hpos : 0 < j) (hj : j < dict.next) :
    ∃ e ∈ dict, e.index = j := by
  induction h with
  | nil => exact absurd hpos (Nat.not_lt.2 (Nat.le_of_lt_succ hj))
  | @cons dict p b h hp ih =>
    rcases Nat.lt_succ_iff_lt_or_eq.1 hj with hlt | rfl
    · obtain ⟨e, he, hindex⟩ := ih hlt
      exact ⟨e, List.mem_cons_of_mem _ he, hindex⟩
    · exact ⟨_, List.mem_cons_self, rfl⟩

/-- R215: every string but the empty one is that of an entry. -/
theorem Dict.Built.exists_entry (h : dict.Built) (hw : w ++ [b] ∈ dict.strings) :
    ∃ e ∈ dict, dict.string e.parent = w ∧ e.byte = b := by
  obtain ⟨j, hj, hstring⟩ := List.mem_map.1 hw
  have hpos : 0 < j := by
    refine Nat.pos_of_ne_zero ?_
    rintro rfl
    simp [h.string_zero] at hstring
  obtain ⟨e, he, rfl⟩ := h.exists_index hpos (List.mem_range.1 hj)
  obtain ⟨-, -, hentry⟩ := h.string_index he
  obtain ⟨hparent, hbyte⟩ := List.append_inj' (hentry.symm.trans hstring) rfl
  exact ⟨e, he, hparent, List.singleton_inj.1 hbyte⟩

/-- R215: a dictionary holds the strings that its strings begin with. -/
theorem Dict.Built.mem_of_prefix (h : dict.Built) {v : List Byte} (hw : w ∈ dict.strings)
    (hv : v <+: w) : v ∈ dict.strings := by
  induction w using List.reverseRecOn with
  | nil => rwa [List.prefix_nil.1 hv]
  | append_singleton w x ih =>
    rcases List.prefix_concat_iff.1 hv with rfl | hv
    · exact hw
    · obtain ⟨e, he, rfl, -⟩ := h.exists_entry hw
      exact ih (Dict.string_mem_strings (h.string_index he).2.1) hv

/-! ## The walk in the dictionary (R217) -/

theorem Dict.Built.string_child {q : Nat} (h : dict.Built) (hq : dict.child p b = some q) :
    q < dict.next ∧ dict.string q = dict.string p ++ [b] := by
  obtain ⟨e, hfind, rfl⟩ := Option.map_eq_some_iff.1 hq
  obtain ⟨hindex, -, hstring⟩ := h.string_index (List.mem_of_find?_eq_some hfind)
  obtain ⟨rfl, rfl⟩ : e.parent = p ∧ e.byte = b := by simpa using List.find?_some hfind
  exact ⟨hindex, hstring⟩

/-- R217: without a child there is no such string, as no two indices have the same. -/
theorem Dict.Built.not_mem_of_child (h : dict.Built) (hnodup : dict.strings.Nodup)
    (hp : p < dict.next) (hchild : dict.child p b = none) :
    dict.string p ++ [b] ∉ dict.strings := by
  intro hmem
  obtain ⟨e, he, hstring, hbyte⟩ := h.exists_entry hmem
  have hparent := (h.string_index he).2.1
  have hindex : p = e.parent := by
    refine (List.getElem?_inj (by rwa [Dict.length_strings]) hnodup).1 ?_
    rw [Dict.getElem?_strings, Dict.getElem?_strings, if_pos hp, if_pos hparent, hstring]
  refine absurd (List.find?_eq_none.1 (Option.map_eq_none_iff.1 hchild) e he) ?_
  simp [hindex, hbyte]

/-- R217: the walk follows the source from entry to entry up to its last byte, or to one that no
child has. -/
theorem Dict.Built.lz78Longest_eq (h : dict.Built) {src : List Byte} (hp : p < dict.next)
    (hsrc : src ≠ []) : ∃ q x v rest, lz78Longest dict p src = some (q, x, rest) ∧
      q < dict.next ∧ src = v ++ x :: rest ∧ dict.string q = dict.string p ++ v ∧
      (rest = [] ∨ dict.child q x = none) := by
  induction src generalizing p with
  | nil => exact absurd rfl hsrc
  | cons x xs ih =>
    cases xs with
    | nil => exact ⟨p, x, [], [], rfl, hp, rfl, (List.append_nil _).symm, .inl rfl⟩
    | cons y ys =>
      rw [lz78Longest]
      cases hchild : dict.child p x with
      | none => exact ⟨p, x, [], y :: ys, rfl, hp, rfl, (List.append_nil _).symm, .inr hchild⟩
      | some q =>
        obtain ⟨hq, hstring⟩ := h.string_child hchild
        obtain ⟨r, z, v, rest, hwalk, hr, hsplit, hstring', hend⟩ := ih hq (List.cons_ne_nil _ _)
        refine ⟨r, z, x :: v, rest, hwalk, hr, by rw [hsplit, List.cons_append], ?_, hend⟩
        rw [hstring', hstring, List.append_assoc, List.singleton_append]

end

/-! ## Greedy tokens (R217) -/

/-- R217: `w` is as long as any of `strs` that `src` begins with and that leaves a byte. -/
def LongestString (strs : List (List Byte)) (src w : List Byte) : Prop :=
  ∀ w' ∈ strs, w' <+: src → w'.length < src.length → w'.length ≤ w.length

section
variable {src rest w : List Byte} {b : Byte}

/-- R217: the walk ends at the longest entry. -/
theorem Dict.Built.longestString {dict : Dict} {q : Nat} (h : dict.Built)
    (hnodup : dict.strings.Nodup) (hq : q < dict.next) (hsrc : src = dict.string q ++ b :: rest)
    (hend : rest = [] ∨ dict.child q b = none) :
    LongestString dict.strings src (dict.string q) := by
  intro w' hmem hprefix hleaves
  by_contra hlonger
  have hnext : dict.string q ++ [b] <+: src := ⟨rest, by simp [hsrc]⟩
  rcases hend with rfl | hchild
  · simp only [hsrc, List.length_append, List.length_singleton] at hleaves
    omega
  · refine h.not_mem_of_child hnodup hq hchild (h.mem_of_prefix hmem ?_)
    refine List.prefix_of_prefix_length_le hnext hprefix ?_
    rw [List.length_append, List.length_singleton]
    omega

/-- R217: a token's new entry is new, unless it is the last token's. -/
theorem nodup_growStrings {strs : List (List Byte)} (hnodup : strs.Nodup)
    (hlongest : LongestString strs src w) (hsrc : src = w ++ b :: rest) (hrest : rest ≠ []) :
    (growStrings strs w b).Nodup := by
  rw [growStrings]
  split_ifs
  · refine List.concat_eq_append ▸ hnodup.concat fun hmem => ?_
    have hpos := List.length_pos_of_ne_nil hrest
    have hle := hlongest _ hmem ⟨rest, by simp [hsrc]⟩ (by simpa [hsrc] using hpos)
    rw [List.length_append, List.length_singleton] at hle
    omega
  · exact hnodup

/-- R217: the tokens of the encoder's loop, with fuel for the bytes that are left. -/
theorem greedy78_lz78Tokens {fuel : Nat} {dict : Dict} (h : dict.Built)
    (hnodup : src ≠ [] → dict.strings.Nodup) (hfuel : src.length ≤ fuel) :
    Greedy78 (lz78Tokens fuel dict src).1 src dict.strings := by
  induction fuel generalizing dict src with
  | zero => exact List.eq_nil_of_length_eq_zero (Nat.le_zero.1 hfuel)
  | succ fuel ih =>
    rcases eq_or_ne src [] with rfl | hne
    · rfl
    obtain ⟨q, x, v, rest, hwalk, hq, hsrc, hstring, hend⟩ :=
      h.lz78Longest_eq (Nat.succ_pos _ : 0 < dict.next) hne
    rw [h.string_zero, List.nil_append] at hstring
    rw [← hstring] at hsrc
    have hlongest := h.longestString (hnodup hne) hq hsrc hend
    have hrest : rest.length ≤ fuel := by
      simp only [hsrc, List.length_append, List.length_cons] at hfuel
      omega
    have htokens := ih (h.add hq x)
      (fun hrest => Dict.strings_add dict q x ▸
        nodup_growStrings (hnodup hne) hlongest hsrc hrest) hrest
    rw [Dict.strings_add] at htokens
    rw [lz78Tokens, hwalk]
    exact ⟨_, rest, by rw [Dict.getElem?_strings, if_pos hq], hsrc, hlongest, htokens⟩

variable {ts : List (Nat × Byte)} {strs : List (List Byte)}

/-- R217: a byte string has one list of greedy tokens. -/
theorem greedy78_unique {us : List (Nat × Byte)} (hnodup : src ≠ [] → strs.Nodup)
    (h : Greedy78 ts src strs) (h' : Greedy78 us src strs) : ts = us := by
  induction ts generalizing us src strs with
  | nil =>
    obtain rfl : src = [] := h
    cases us with
    | nil => rfl
    | cons u us =>
      obtain ⟨w, rest, -, hsrc, -⟩ := h'
      simp at hsrc
  | cons t ts ih =>
    obtain ⟨w, rest, hw, hsrc, hlongest, hts⟩ := h
    have hne : src ≠ [] := by simp [hsrc]
    cases us with
    | nil => exact absurd h' hne
    | cons u us =>
      obtain ⟨w', rest', hw', hsrc', hlongest', hus⟩ := h'
      have hle := hlongest w' (List.mem_of_getElem? hw') ⟨_, hsrc'.symm⟩ (by simp [hsrc'])
      have hle' := hlongest' w (List.mem_of_getElem? hw) ⟨_, hsrc.symm⟩ (by simp [hsrc])
      obtain ⟨rfl, htail⟩ := List.append_inj (hsrc.symm.trans hsrc') (Nat.le_antisymm hle' hle)
      obtain ⟨hbyte, rfl⟩ := List.cons.inj htail
      have hindex : t.1 = u.1 :=
        (List.getElem?_inj (List.getElem?_eq_some_iff.1 hw).1 (hnodup hne)).1 (hw.trans hw'.symm)
      obtain rfl : t = u := Prod.ext hindex hbyte
      rw [ih (fun hrest => nodup_growStrings (hnodup hne) hlongest hsrc hrest) hts hus]

/-- R217, R218: greedy tokens expand to the bytes that they stand for. -/
theorem expand78_of_greedy78 (h : Greedy78 ts src strs) : expand78 ts strs = some src := by
  induction ts generalizing src strs with
  | nil =>
    obtain rfl : src = [] := h
    rfl
  | cons t ts ih =>
    obtain ⟨w, rest, hw, rfl, -, hts⟩ := h
    simp [expand78, hw, ih hts]

/-- R217: every token takes a byte. -/
theorem length_le_of_greedy78 (h : Greedy78 ts src strs) : ts.length ≤ src.length := by
  induction ts generalizing src strs with
  | nil => exact Nat.zero_le _
  | cons t ts ih =>
    obtain ⟨w, rest, -, rfl, -, hts⟩ := h
    have hrest := ih hts
    simp only [List.length_append, List.length_cons]
    omega

end

/-! ## The dictionary that tokens build (R215) -/

/-- R217, R218: the dictionary after the entries of tokens. -/
def Dict.addAll (dict : Dict) (ts : List (Nat × Byte)) : Dict :=
  ts.foldl (fun dict t => dict.add t.1 t.2) dict

theorem Dict.next_addAll {dict : Dict} (h : dict.next ≤ 4096) (ts : List (Nat × Byte)) :
    (dict.addAll ts).next = min (dict.next + ts.length) 4096 := by
  induction ts generalizing dict with
  | nil => exact (Nat.min_eq_left h).symm
  | cons t ts ih =>
    have hadd := Dict.next_add (p := t.1) (b := t.2) h
    show ((dict.add t.1 t.2).addAll ts).next = _
    rw [ih (by omega), hadd, List.length_cons]
    omega

/-- R217: the encoder's dictionary holds the entries of its tokens. -/
theorem lz78Tokens_snd (fuel : Nat) (dict : Dict) (src : List Byte) :
    (lz78Tokens fuel dict src).2 = dict.addAll (lz78Tokens fuel dict src).1 := by
  induction fuel generalizing dict src with
  | zero => rfl
  | succ fuel ih =>
    rw [lz78Tokens]
    cases lz78Longest dict 0 src with
    | none => rfl
    | some t => exact ih _ _

/-- R217, R218: OUT1, the next free index after tokens from the empty dictionary. -/
theorem Dict.next_addAll_nil (ts : List (Nat × Byte)) :
    (Dict.addAll [] ts).next = min (ts.length + 1) 4096 := by
  rw [Dict.next_addAll (by decide), Dict.next_nil, Nat.add_comm]

/-! ## LZ78_ENC (R217) -/

/-- R216: a token takes 20 bits. -/
theorem length_flatMap_lz78Bits (ts : List (Nat × Byte)) :
    (ts.flatMap lz78Bits).length = 20 * ts.length := by
  simp [List.length_flatMap, lz78Bits, Config.lz78IdxBits, Nat.mul_comm]

theorem greedy78_of_source (s : State) :
    Greedy78 (lz78Tokens s.srcLen.toNat [] s.source).1 s.source [[]] :=
  greedy78_lz78Tokens .nil (fun _ => List.nodup_singleton _) (s.length_bytesAt _ _).le

theorem exec_lz78Enc {s : State} {ts : List (Nat × Byte)} (hready : EncoderReady s)
    (hgreedy : Greedy78 ts s.source [[]]) :
    (WriterHasRoom s (20 * ts.length) → ∃ t, exec .lz78Enc s = .next t ∧
        AppendEnds s t (ts.flatMap lz78Bits) ts.length (min (ts.length + 1) 4096) 0) ∧
      (WriterLacks s (20 * ts.length) → RunFails .lz78Enc s 0x12#8) := by
  have htokens := greedy78_unique (fun _ => List.nodup_singleton _) (greedy78_of_source s) hgreedy
  rw [← length_flatMap_lz78Bits]
  refine exec_encoder hready (by simp [runCodes]) (by rw [exec, execLz78Enc]) ?_
  simp only [lz78Tokens_snd, htokens, Dict.next_addAll_nil]

end Sys2Proof.Machine

namespace Sys2Proof.Proofs

open Sys2Proof.Machine Sys2Proof.Claims

/-- Settles O51: the greedy tokens are unique, as the dictionary's strings are distinct while bytes
are left, so what holds of any greedy tokens holds of those that the encoder appends. -/
theorem lz78EncTokensExpand : Obligations.Lz78EncTokensExpand := by
  refine ⟨fun s hready hroom => ?_, fun _ _ => exec_lz78Enc⟩
  have hgreedy := greedy78_of_source s
  have hlen := (length_le_of_greedy78 hgreedy).trans_eq (s.length_bytesAt _ _)
  obtain ⟨t, hexec, hends⟩ := (exec_lz78Enc hready hgreedy).1
    (writerHasRoom_of_le hroom (Nat.mul_le_mul_left 20 hlen))
  exact ⟨t, _, hexec, hgreedy, hlen, expand78_of_greedy78 hgreedy, hends⟩

end Sys2Proof.Proofs
end

section
/-! LZ78_DEC (43_lz.md R218): what its loop does on one token and on tokens that expand, and where
it ends. -/

namespace Sys2Proof.Machine

open Sys2Proof.Claims

/-! ## The output of LZ78 tokens (R218) -/

/-- R218: the bytes that the token `t` stands for. -/
def Dict.output (dict : Dict) (t : Nat × Byte) : List Byte := dict.string t.1 ++ [t.2]

section
variable {dict : Dict} {t : Nat × Byte} {ts : List (Nat × Byte)} {out : List Byte}

theorem Dict.length_output (dict : Dict) (t : Nat × Byte) :
    (dict.output t).length = (dict.string t.1).length + 1 := by
  simp [Dict.output]

/-- R218: tokens expand where the first one's index is defined and the others expand. -/
theorem expand78_cons (h : expand78 (t :: ts) dict.strings = some out) :
    t.1 < dict.next ∧
      ∃ rest, expand78 ts (dict.add t.1 t.2).strings = some rest ∧ out = dict.output t ++ rest := by
  rw [expand78, Dict.getElem?_strings] at h
  by_cases ht : t.1 < dict.next
  · rw [if_pos ht] at h
    obtain ⟨rest, hrest, rfl⟩ := Option.map_eq_some_iff.1 h
    rw [Dict.strings_add]
    exact ⟨ht, rest, hrest, rfl⟩
  · rw [if_neg ht] at h
    cases h

/-- R216: every token produces a byte. -/
theorem length_le_of_expand78 (h : expand78 ts dict.strings = some out) :
    ts.length ≤ out.length := by
  induction ts generalizing dict out with
  | nil => exact Nat.zero_le _
  | cons t ts ih =>
    obtain ⟨-, rest, hrest, rfl⟩ := expand78_cons h
    have hle := ih hrest
    rw [List.length_append, Dict.length_output, List.length_cons]
    omega

/-- R218: one more token after others. -/
theorem expand78_concat {more : List Byte} (h : expand78 ts dict.strings = some out)
    (hmore : expand78 (ts ++ [t]) dict.strings = some more) :
    t.1 < (dict.addAll ts).next ∧ more = out ++ (dict.addAll ts).output t := by
  induction ts generalizing dict out more with
  | nil =>
    obtain ⟨ht, rest, hrest, rfl⟩ := expand78_cons hmore
    cases h
    cases hrest
    exact ⟨ht, List.append_nil _⟩
  | cons u ts ih =>
    obtain ⟨-, out, hout, rfl⟩ := expand78_cons h
    obtain ⟨-, rest, hrest, rfl⟩ := expand78_cons hmore
    obtain ⟨ht, rfl⟩ := ih hout hrest
    exact ⟨ht, (List.append_assoc _ _ _).symm⟩

end

/-! ## The loop of LZ78_DEC (R218) -/

theorem lz78Decode_of_le {d n out : Nat} (fuel k : Nat) (dict : Dict) (s : State) (h : n ≤ out) :
    lz78Decode d n fuel out k dict s = .ok (k, dict, s) := by
  cases fuel with
  | zero => rfl
  | succ fuel => exact if_neg h.not_gt

section
variable {s : State} {m fuel k : Nat} {o : List Byte} {dict : Dict}

section
variable (hready : DecoderReady s) (hin : ReaderInBuf s)
include hready hin

/-- R218: a token of a defined index gives its output, unless that is too long. -/
theorem lz78Decode_token {t : Nat × Byte} (ho : o.length < s.cnt.toNat) (ht : t.1 < 4096)
    (h : NextBitsAre (s.advance m) (lz78Bits t)) :
    lz78Decode s.dstAddr.toNat s.cnt.toNat (fuel + 1) o.length k dict (s.decoded m o) =
      if t.1 ≥ dict.next then .error (.raise .invalidBackReference)
      else if o.length + (dict.output t).length > s.cnt.toNat then .error (.raise .corruptStream)
      else lz78Decode s.dstAddr.toNat s.cnt.toNat fuel (o ++ dict.output t).length (k + 1)
        (dict.add t.1 t.2) (s.decoded (m + 20) (o ++ dict.output t)) := by
  obtain ⟨hindex, hbyte⟩ := nextBitsAre_of_append (xs := bitsOf t.1 12) h
  rw [State.advance_advance, length_bitsOf] at hbyte
  rw [lz78Decode, if_pos ho, Config.lz78IdxBits, State.get_decoded _ hready hin ho.le ht hindex]
  show ((s.decoded (m + 12) o).get 8 _ >>= _) = _
  rw [State.get_decoded _ hready hin ho.le t.2.isLt hbyte]
  have hoctet : BitVec.ofNat 8 t.2.toNat = t.2 := by simp
  simp only [bind, Except.bind, hoctet, State.storeBytes_decoded, Dict.output, List.length_append]

/-- R218: the loop on tokens that expand to CNT bytes at most. -/
theorem lz78Decode_tokens {ts : List (Nat × Byte)} {out : List Byte} (hnext : dict.next ≤ 4096)
    (hout : expand78 ts dict.strings = some out) (hlen : (o ++ out).length ≤ s.cnt.toNat)
    (h : NextBitsAre (s.advance m) (ts.flatMap lz78Bits)) :
    lz78Decode s.dstAddr.toNat s.cnt.toNat (fuel + ts.length) o.length k dict (s.decoded m o) =
      lz78Decode s.dstAddr.toNat s.cnt.toNat fuel (o ++ out).length (k + ts.length)
        (dict.addAll ts) (s.decoded (m + (ts.flatMap lz78Bits).length) (o ++ out)) := by
  induction ts generalizing o m k dict out with
  | nil =>
    cases hout
    simp [Dict.addAll]
  | cons t ts ih =>
    obtain ⟨ht, hts⟩ := nextBitsAre_of_append (xs := lz78Bits t) h
    obtain ⟨hindex, rest, hrest, rfl⟩ := expand78_cons hout
    rw [State.advance_advance] at hts
    rw [← List.append_assoc] at hlen ⊢
    have hfits : o.length + (dict.output t).length ≤ s.cnt.toNat := by
      rw [List.length_append, List.length_append] at hlen
      omega
    have hpos := dict.length_output t
    have hadd := Dict.next_add (p := t.1) (b := t.2) hnext
    rw [List.length_cons, ← Nat.add_assoc fuel,
      lz78Decode_token hready hin (by omega) (by omega) ht, if_neg hindex.not_ge,
      if_neg hfits.not_gt]
    refine (ih (by omega) hrest hlen hts).trans ?_
    rw [List.flatMap_cons, List.length_append (as := lz78Bits t), Nat.add_assoc k, Nat.add_assoc m,
      Nat.add_comm 1]
    rfl

end

/-- R218: the stream ends within a token. -/
theorem lz78Decode_truncated (hin : ReaderInBuf s) (ho : o.length < s.cnt.toNat)
    (h : s.rd.stop < s.rd.pos + (m + 20)) :
    lz78Decode s.dstAddr.toNat s.cnt.toNat (fuel + 1) o.length k dict (s.decoded m o) =
      .error (.raise .truncatedStream) := by
  rw [lz78Decode, if_pos ho, Config.lz78IdxBits]
  rcases State.get_decoded_cases (m := m) (n := 12) (o := o) .truncatedStream hin with
    hget | ⟨v, hget⟩
  · rw [hget]
    rfl
  · rw [hget]
    show ((s.decoded (m + 12) o).get 8 _ >>= _) = _
    rw [State.get_decoded_truncated _ (by omega)]
    rfl

end

/-! ## LZ78_DEC (R218) -/

section
variable {s : State} {ts : List (Nat × Byte)} {out : List Byte} (hready : DecoderReady s)
  (hin : ReaderInBuf s) (hout : expand78 ts [[]] = some out)
  (h : NextBitsAre s (ts.flatMap lz78Bits))
include hready hin hout h

/-- R218: the loop after the tokens that come first; each of them produces a byte, so fuel for the
bytes still to come is left. -/
theorem lz78Decode_start (hlen : out.length ≤ s.cnt.toNat) :
    ∃ fuel, s.cnt.toNat ≤ out.length + fuel ∧
      lz78Decode s.dstAddr.toNat s.cnt.toNat s.cnt.toNat 0 0 [] s =
        lz78Decode s.dstAddr.toNat s.cnt.toNat fuel out.length ts.length (Dict.addAll [] ts)
          (s.decoded (20 * ts.length) out) := by
  have hbytes := length_le_of_expand78 (dict := []) hout
  obtain ⟨fuel, hfuel⟩ := Nat.exists_eq_add_of_le' (hbytes.trans hlen)
  have hdec := lz78Decode_tokens (o := []) (m := 0) (fuel := fuel) (k := 0) (dict := []) hready hin
    (by decide) hout hlen h
  rw [← hfuel, Nat.zero_add, Nat.zero_add, length_flatMap_lz78Bits] at hdec
  exact ⟨fuel, by omega, hdec⟩

theorem exec_lz78Dec_decodes (hlen : out.length = s.cnt.toNat) :
    ∃ t, exec .lz78Dec s = .next t ∧ DecodeEnds s t out (ts.flatMap lz78Bits).length ts.length
      (min (ts.length + 1) 4096) 0 := by
  obtain ⟨fuel, -, hdec⟩ := lz78Decode_start hready hin hout h hlen.le
  refine exec_decoder_ends hready (by rw [exec, execLz78Dec]) ?_
  rw [hdec, lz78Decode_of_le _ _ _ _ hlen.ge, length_flatMap_lz78Bits, ← Dict.next_addAll_nil]
  rfl

section
variable (hlen : out.length < s.cnt.toNat)
include hlen

/-- R318: LZ78_DEC raises what the token after those that come first raises. -/
theorem exec_lz78Dec_fails {e : CmdError}
    (hnext : ∀ fuel, lz78Decode s.dstAddr.toNat s.cnt.toNat (fuel + 1) out.length ts.length
      (Dict.addAll [] ts) (s.decoded (20 * ts.length) out) = .error (.raise e)) :
    RunFails .lz78Dec s e.code := by
  obtain ⟨fuel, hfuel, hdec⟩ := lz78Decode_start hready hin hout h hlen.le
  obtain ⟨fuel, rfl⟩ := Nat.exists_eq_succ_of_ne_zero (by omega : fuel ≠ 0)
  refine exec_decoder_fails hready (by rw [exec, execLz78Dec]) (by simp [runCodes]) ?_
  rw [hdec, hnext]
  rfl

theorem exec_lz78Dec_truncated (hstop : s.rd.stop < s.rd.pos + 20 * (ts.length + 1)) :
    RunFails .lz78Dec s 0x05#8 :=
  exec_lz78Dec_fails (e := .truncatedStream) hready hin hout h hlen fun _ =>
    lz78Decode_truncated hin hlen hstop

section
variable {t : Nat × Byte} (ht : t.1 < 4096)
  (hbits : NextBitsAre (s.advance (20 * ts.length)) (lz78Bits t))
include ht hbits

theorem exec_lz78Dec_backReference (hundefined : min (ts.length + 1) 4096 ≤ t.1) :
    RunFails .lz78Dec s 0x06#8 := by
  refine exec_lz78Dec_fails (e := .invalidBackReference) hready hin hout h hlen fun fuel => ?_
  rw [lz78Decode_token hready hin hlen ht hbits, if_pos (Dict.next_addAll_nil ts ▸ hundefined)]

theorem exec_lz78Dec_corrupt {more : List Byte} (hmore : expand78 (ts ++ [t]) [[]] = some more)
    (hlong : s.cnt.toNat < more.length) : RunFails .lz78Dec s 0x07#8 := by
  obtain ⟨hdefined, rfl⟩ := expand78_concat (dict := []) hout hmore
  rw [List.length_append] at hlong
  refine exec_lz78Dec_fails (e := .corruptStream) hready hin hout h hlen fun fuel => ?_
  rw [lz78Decode_token hready hin hlen ht hbits, if_neg hdefined.not_ge, if_pos hlong]

end

end

end

end Sys2Proof.Machine

namespace Sys2Proof.Proofs

open Sys2Proof.Machine Sys2Proof.Claims

/-- Settles O52: each token moves the loop on as it expands, and the first that does not fit the
dictionary, the output or the stream ends it. -/
theorem lz78DecExpandsTokens : Obligations.Lz78DecExpandsTokens := by
  refine ⟨fun _ _ _ hready hin hout hlen h => exec_lz78Dec_decodes hready hin hout h hlen,
    fun s ts out hready hin hout hlen => ⟨fun p b hp hbits => ?_,
      fun h => exec_lz78Dec_truncated hready hin hout h hlen⟩⟩
  rw [List.flatMap_append, List.flatMap_singleton] at hbits
  obtain ⟨h, ht⟩ := nextBitsAre_of_append hbits
  rw [length_flatMap_lz78Bits] at ht
  exact ⟨exec_lz78Dec_backReference hready hin hout h hlen hp ht,
    fun _ => exec_lz78Dec_corrupt hready hin hout h hlen hp ht⟩

end Sys2Proof.Proofs
end

section
/-! The arithmetic of the DCT family (44_dct.md R250 to R255, 00_scope.md R11): `rdiv` as rounding
to nearest, the table of a quality, the transforms as double sums, and a constant block's way. -/

namespace Sys2Proof.Machine

open Sys2Proof.Claims

/-! ## rdiv (R11) -/

theorem rdiv_of_nonneg {a : Int} (ha : 0 ≤ a) (b : Nat) :
    rdiv a b = ((2 * a.natAbs + b) / (2 * b) : Nat) := if_neg ha.not_gt

theorem rdiv_of_neg {a : Int} (ha : a < 0) (b : Nat) :
    rdiv a b = -((2 * a.natAbs + b) / (2 * b) : Nat) := if_pos ha

/-- The rounded quotient of magnitudes, as the two bounds that fix it. -/
theorem mul_roundedQuotient_bounds (n : Nat) {b : Nat} (hb : 0 < b) :
    2 * n < 2 * ((2 * n + b) / (2 * b) * b) + b ∧ 2 * ((2 * n + b) / (2 * b) * b) ≤ 2 * n + b := by
  have hle := Nat.div_mul_le_self (2 * n + b) (2 * b)
  have hlt := Nat.lt_div_mul_add (a := 2 * n + b) (b := 2 * b) (by omega)
  rw [Nat.mul_left_comm] at hle hlt
  omega

/-- R11: `rdiv a b` is an integer nearest to a/b, the one of larger magnitude where two are. -/
theorem rdiv_nearest (a : Int) {b : Nat} (hb : 0 < b) :
    2 * (rdiv a b * b - a).natAbs ≤ b ∧
      (2 * (rdiv a b * b - a).natAbs = b → a.natAbs < (rdiv a b * b).natAbs) := by
  obtain ⟨hlo, hhi⟩ := mul_roundedQuotient_bounds a.natAbs hb
  rcases lt_or_ge a 0 with ha | ha
  · rw [rdiv_of_neg ha, Int.neg_mul, ← Nat.cast_mul]
    omega
  · rw [rdiv_of_nonneg ha, ← Nat.cast_mul]
    omega

/-- An integer nearer to a/b than half a unit is `rdiv a b`. -/
theorem rdiv_eq_of_near {a q : Int} {b : Nat} (h : 2 * (q * b - a).natAbs < b) : rdiv a b = q := by
  have hnear := (rdiv_nearest a (show 0 < b by omega)).1
  have hlt : ((rdiv a b - q) * b).natAbs < b := by
    rw [sub_mul]
    omega
  rw [Int.natAbs_mul, Int.natAbs_natCast] at hlt
  have hone : (rdiv a b - q).natAbs < 1 := lt_of_mul_lt_mul_right (by omega) (Nat.zero_le b)
  omega

@[simp] theorem rdiv_zero_left (b : Nat) : rdiv 0 b = 0 := by
  rw [rdiv_of_nonneg le_rfl, Nat.cast_eq_zero, Nat.div_eq_zero_iff]
  simp only [Int.natAbs_zero]
  omega

/-- Rounding to nearest keeps the interval between two multiples of the divisor. -/
theorem rdiv_mem_of_mul_bounds {a lo hi : Int} {b : Nat} (hb : 0 < b)
    (hlo : lo * b ≤ a) (hhi : a ≤ hi * b) : lo ≤ rdiv a b ∧ rdiv a b ≤ hi := by
  have hnear := (rdiv_nearest a hb).1
  constructor
  · by_contra hlt
    have := mul_le_mul_of_nonneg_right (show rdiv a b + 1 ≤ lo by omega) (Int.natCast_nonneg b)
    rw [add_mul, one_mul] at this
    omega
  · by_contra hlt
    have := mul_le_mul_of_nonneg_right (show hi + 1 ≤ rdiv a b by omega) (Int.natCast_nonneg b)
    rw [add_mul, one_mul] at this
    omega

/-! ## The table of a quality (R251, R265) -/

theorem qualityScale_antitone {p q : Nat} (hp : 1 ≤ p) (hpq : p ≤ q) :
    qualityScale q ≤ qualityScale p := by
  unfold qualityScale
  rcases lt_or_ge q 50 with hq | hq
  · rw [if_pos hq, if_pos (hpq.trans_lt hq)]
    exact Nat.div_le_div_left hpq hp
  · rw [if_neg hq.not_gt]
    split
    next hp50 =>
      have : 5000 / 49 ≤ 5000 / p := Nat.div_le_div_left (by omega) hp
      omega
    next => omega

/-- R251: an entry as one formula, the DC cap as a bound of its own. -/
theorem qtabEntry_eq (q i : Nat) : qtabEntry q i =
    min (max 1 (min 255 ((baseTable.getD i 0 * qualityScale q + 50) / 100)))
      (if i = 0 then 8 else 255) := by
  by_cases hi : i = 0
  · simp [qtabEntry, hi, Config.qDcCap]
  · simp only [qtabEntry, hi, if_false]
    omega

theorem qtabEntry_antitone {p q : Nat} (hp : 1 ≤ p) (hpq : p ≤ q) (i : Nat) :
    qtabEntry q i ≤ qtabEntry p i := by
  rw [qtabEntry_eq, qtabEntry_eq]
  have := qualityScale_antitone hp hpq
  gcongr

theorem qtabEntry_le (q i : Nat) : qtabEntry q i ≤ if i = 0 then 8 else 255 := by
  rw [qtabEntry_eq]
  exact min_le_right _ _

theorem one_le_qtabEntry (q i : Nat) : 1 ≤ qtabEntry q i := by
  rw [qtabEntry_eq]
  split <;> omega

theorem qtabFor_getElem_toNat (q : Nat) {i : Nat} (hi : i < 64) :
    ((qtabFor q)[i]'hi).toNat = qtabEntry q i := by
  have hget : (qtabFor q)[i]'hi = BitVec.ofNat 8 (qtabEntry q i) := tabulate_get 64 _ ⟨i, hi⟩
  have hle := qtabEntry_le q i
  rw [hget, BitVec.toNat_ofNat, Nat.mod_eq_of_lt]
  split at hle <;> omega

/-! ## Sums over a block (R252, R253) -/

/-- An index of a block is a row and a column. -/
theorem sum_map_range_mul (f : Nat → Int) (n : Nat) :
    ((List.range (8 * n)).map f).sum =
      ((List.range n).map fun y => ((List.range 8).map fun m => f (8 * y + m)).sum).sum := by
  induction n with
  | zero => rfl
  | succ n ih =>
    rw [Nat.mul_succ, List.range_add, List.map_append, List.sum_append, ih,
      List.range_succ (n := n), List.map_append, List.sum_append, List.map_map]
    simp [Function.comp_def]

theorem sum_map_blockIdx (f : Nat → Int) : (blockIdx.map f).sum =
    ((List.range 8).map fun y => ((List.range 8).map fun m => f (8 * y + m)).sum).sum :=
  sum_map_range_mul f 8

/-- The sum over a block of a product of a row's and a column's factor. -/
theorem sum_map_blockIdx_mul (f g : Nat → Int) :
    (blockIdx.map fun j => f (j / 8) * g (j % 8)).sum =
      ((List.range 8).map f).sum * ((List.range 8).map g).sum := by
  rw [sum_map_blockIdx, ← List.sum_map_mul_right]
  refine congrArg List.sum (List.map_congr_left fun y _ => ?_)
  rw [← List.sum_map_mul_left]
  refine congrArg List.sum (List.map_congr_left fun m hm => ?_)
  rw [List.mem_range] at hm
  rw [Nat.mul_add_div (by omega), Nat.mul_add_mod, Nat.div_eq_of_lt hm, Nat.mod_eq_of_lt hm,
    Nat.add_zero]

theorem dot_map_blockIdx (f : Nat → Int) {xs : List Int} (h : xs.length = 64) :
    dot (blockIdx.map f) xs = (blockIdx.map fun j => f j * xs.getD j 0).sum := by
  have hxs : xs = blockIdx.map fun j => xs.getD j 0 :=
    List.ext_getElem (by simp [blockIdx, h]) fun j hj _ => by simp [blockIdx, hj]
  conv_lhs => rw [dot, hxs, List.zipWith_map, List.zipWith_self]

theorem dot_replicate {xs : List Int} {n : Nat} (hn : xs.length = n) (c : Int) :
    dot xs (List.replicate n c) = xs.sum * c := by
  subst hn
  induction xs with
  | nil => simp [dot]
  | cons x xs ih =>
    have hcons : dot (x :: xs) (List.replicate (xs.length + 1) c) =
        x * c + dot xs (List.replicate xs.length c) := by simp [dot, List.replicate_succ]
    rw [List.length_cons, hcons, ih, List.sum_cons, add_mul]

/-- A sum of products is at most the sum of the first factors' magnitudes times a bound of the
second factors. -/
theorem abs_dot_le {B : Int} (hB : 0 ≤ B) (xs : List Int) {ys : List Int} (h : ∀ y ∈ ys, |y| ≤ B) :
    |dot xs ys| ≤ (xs.map fun x => |x|).sum * B := by
  induction xs generalizing ys with
  | nil => simp [dot]
  | cons x xs ih =>
    have hsum : 0 ≤ (xs.map fun x => |x|).sum := List.sum_nonneg (by simp)
    cases ys with
    | nil =>
      have := mul_nonneg (add_nonneg (abs_nonneg x) hsum) hB
      simpa [dot] using this
    | cons y ys =>
      rw [List.forall_mem_cons] at h
      have hcons : dot (x :: xs) (y :: ys) = x * y + dot xs ys := rfl
      calc |dot (x :: xs) (y :: ys)| ≤ |x| * |y| + |dot xs ys| := by
            rw [hcons, ← abs_mul]
            exact abs_add_le _ _
        _ ≤ |x| * B + (xs.map fun x => |x|).sum * B :=
            add_le_add (mul_le_mul_of_nonneg_left h.1 (abs_nonneg x)) (ih h.2)
        _ = ((x :: xs).map fun x => |x|).sum * B := by simp [add_mul]

/-! ## The basis matrix (R250) -/

/-- The entries of a row of T sum to 0, but for the constant row 0. -/
theorem sum_basis_row :
    ∀ k < 8, ((List.range 8).map (basis k)).sum = if k = 0 then 11584 else 0 := by decide

/-- No row of T has a larger sum of magnitudes than row 0. -/
theorem sum_abs_basis_row_le : ∀ k < 8, ((List.range 8).map fun n => |basis k n|).sum ≤ 11584 := by
  decide

theorem basis_zero_left : ∀ n < 8, basis 0 n = 1448 := by decide

theorem basis2_mul_add {y m u v : Nat} (hm : m < 8) (hv : v < 8) :
    basis2 (8 * u + v) (8 * y + m) = basis u y * basis v m := by
  simp only [basis2, Nat.mul_add_div (show 8 > 0 by omega), Nat.mul_add_mod, Nat.div_eq_of_lt hm,
    Nat.div_eq_of_lt hv, Nat.mod_eq_of_lt hm, Nat.mod_eq_of_lt hv, Nat.add_zero]

theorem sum_basis2 {i : Nat} (hi : i < 64) : (blockIdx.map fun j => basis2 i j).sum =
    if i = 0 then 11584 * 11584 else 0 := by
  have hrow := sum_map_blockIdx_mul (basis (i / 8)) (basis (i % 8))
  rw [sum_basis_row _ (by omega), sum_basis_row _ (by omega)] at hrow
  simp only [basis2]
  rw [hrow]
  by_cases h0 : i = 0
  · simp [h0]
  · rw [if_neg h0]
    by_cases hdiv : i / 8 = 0
    · rw [if_neg (show ¬i % 8 = 0 by omega), mul_zero]
    · rw [if_neg hdiv, zero_mul]

theorem sum_abs_basis2_le {i : Nat} (hi : i < 64) :
    (blockIdx.map fun j => |basis2 i j|).sum ≤ 11584 * 11584 := by
  have hrow := sum_map_blockIdx_mul (fun y => |basis (i / 8) y|) (fun m => |basis (i % 8) m|)
  simp only [basis2, abs_mul]
  rw [hrow]
  exact mul_le_mul (sum_abs_basis_row_le _ (by omega)) (sum_abs_basis_row_le _ (by omega))
    (List.sum_nonneg (by simp)) (by decide)

/-! ## The transforms (R252, R253) -/

@[simp] theorem length_idct (d : List Int) : (idct d).length = 64 := by simp [idct, blockIdx]

theorem getD_fdct (x : List Int) {i : Nat} (hi : i < 64) : (fdct x).getD i 0 =
    rdiv (dot (blockIdx.map fun j => basis2 i j) (x.map fun v => v - 128)) (2 ^ 24) := by
  simp [fdct, blockIdx, hi, Config.dctShift]

theorem getD_idct (d : List Int) {j : Nat} (hj : j < 64) : (idct d).getD j 0 =
    clamp (rdiv (dot (blockIdx.map fun i => basis2 i j) d) (2 ^ 24) + 128) 0 255 := by
  simp [idct, blockIdx, hj, Config.dctShift]

/-- R252: the forward transform as the rule's double sum. -/
theorem fdct_double_sum {x : List Int} (hx : x.length = 64) {u v : Nat} (hu : u < 8) (hv : v < 8) :
    (fdct x).getD (8 * u + v) 0 =
      rdiv (((List.range 8).map fun y => ((List.range 8).map fun m =>
        basis u y * basis v m * (x.getD (8 * y + m) 0 - 128)).sum).sum) (2 ^ 24) := by
  rw [getD_fdct x (by omega), dot_map_blockIdx _ (by simpa using hx), sum_map_blockIdx]
  congr 2
  refine List.map_congr_left fun y hy => congrArg List.sum (List.map_congr_left fun m hm => ?_)
  rw [List.mem_range] at hy hm
  rw [basis2_mul_add hm hv]
  simp [show 8 * y + m < x.length by omega]

/-- R253: the inverse transform as the rule's double sum. -/
theorem idct_double_sum {d : List Int} (hd : d.length = 64) {y m : Nat} (hy : y < 8) (hm : m < 8) :
    (idct d).getD (8 * y + m) 0 =
      max 0 (min 255 (rdiv (((List.range 8).map fun u => ((List.range 8).map fun v =>
        basis u y * basis v m * d.getD (8 * u + v) 0).sum).sum) (2 ^ 24) + 128)) := by
  rw [getD_idct d (by omega), dot_map_blockIdx _ hd, sum_map_blockIdx, clamp]
  congr 5
  refine List.map_congr_left fun u _ => congrArg List.sum (List.map_congr_left fun v hv => ?_)
  rw [basis2_mul_add hm (List.mem_range.1 hv)]

/-- R252: samples of 0 to 255 give coefficients of at most 1024 in magnitude. -/
theorem fdct_bounded {x : List Int} (hx : ∀ v ∈ x, 0 ≤ v ∧ v ≤ 255) {c : Int} (hc : c ∈ fdct x) :
    -1024 ≤ c ∧ c ≤ 1024 := by
  obtain ⟨i, hi, rfl⟩ := List.mem_map.1 hc
  have hle := abs_dot_le (B := 128) (by decide) (blockIdx.map fun j => basis2 i j)
    (ys := x.map fun v => v - 128) (by
      simp only [List.forall_mem_map, abs_le]
      intro v hv
      have := hx v hv
      omega)
  rw [List.map_map] at hle
  have hsum := sum_abs_basis2_le (List.mem_range.1 hi)
  have habs := abs_le.1 (hle.trans (mul_le_mul_of_nonneg_right hsum (by decide)))
  have hshift : ((2 ^ Config.dctShift : Nat) : Int) = 16777216 := rfl
  apply rdiv_mem_of_mul_bounds (Nat.two_pow_pos _)
  · rw [hshift]
    omega
  · rw [hshift]
    omega

theorem idct_bounded {d : List Int} {v : Int} (hv : v ∈ idct d) : 0 ≤ v ∧ v ≤ 255 := by
  obtain ⟨j, -, rfl⟩ := List.mem_map.1 hv
  unfold clamp
  omega

/-! ## Quantization (R254, R255) -/

/-- R255: `dequantBlock` on the steps themselves. -/
theorem dequantBlock_eq (steps : List Nat) (q : List Int) : dequantBlock steps q =
    List.zipWith (fun v (t : Nat) => sat16 (v * t)) q steps :=
  (congrArg _ (List.flatMap_pure_eq_map _ steps)).trans List.zipWith_map_right

/-! ## A constant block (R265) -/

/-- A coefficient block whose AC coefficients are 0. -/
def dcBlock (c : Int) : List Int := c :: List.replicate 63 0

theorem getD_dcBlock (c : Int) (i : Nat) : (dcBlock c).getD i 0 = if i = 0 then c else 0 := by
  cases i with
  | zero => rfl
  | succ i => exact List.getElem?_getD_replicate_default_eq (d := (0 : Int)) 63 i

theorem zipWith_dcBlock {f : Int → Nat → Int} (hf : ∀ t, f 0 t = 0) (c : Int) {t : Nat}
    {ts : List Nat} (hts : ts.length = 63) :
    List.zipWith f (dcBlock c) (t :: ts) = dcBlock (f c t) := by
  refine congrArg (_ :: ·) (List.ext_getElem (by simp [hts]) fun i _ _ => ?_)
  rw [List.getElem_zipWith, List.getElem_replicate, hf]

theorem stepsOf_eq_cons (q : Nat) : ∃ ts : List Nat, ts.length = 63 ∧
    stepsOf q = qtabEntry q 0 :: ts :=
  ⟨((List.range 63).map Nat.succ).map (qtabEntry q), by simp,
    by rw [stepsOf, List.range_succ_eq_map, List.map_cons]⟩

/-- R252: 8x is the integer nearest to 11584² * x / 2^24 for a sample value x + 128. -/
theorem fdct_replicate {x : Int} (hx : x.natAbs ≤ 128) :
    fdct (List.replicate 64 (x + 128)) = dcBlock (8 * x) := by
  refine List.ext_getElem (by simp [dcBlock]) fun i hi h2 => ?_
  rw [length_fdct] at hi
  rw [← List.getD_eq_getElem _ 0, ← List.getD_eq_getElem _ 0, getD_fdct _ hi, getD_dcBlock,
    List.map_replicate, add_sub_cancel_right, dot_replicate (by simp [blockIdx]), sum_basis2 hi]
  by_cases h0 : i = 0
  · simp only [h0, if_true]
    exact rdiv_eq_of_near (by omega)
  · simp [h0]

theorem idct_dcBlock (c : Int) : idct (dcBlock c) =
    List.replicate 64 (clamp (rdiv (1448 * 1448 * c) (2 ^ 24) + 128) 0 255) := by
  refine List.ext_getElem (by simp) fun j hj h2 => ?_
  rw [length_idct] at hj
  have hdot : dot (blockIdx.map fun i => basis2 i j) (dcBlock c) = 1448 * 1448 * c := by
    have hcons : dot (blockIdx.map fun i => basis2 i j) (dcBlock c) = basis2 0 j * c +
        dot (((List.range 63).map Nat.succ).map fun i => basis2 i j) (List.replicate 63 0) := by
      rw [blockIdx, List.range_succ_eq_map]
      rfl
    rw [hcons, dot_replicate (by simp), mul_zero, add_zero, basis2, basis_zero_left _ (by omega),
      basis_zero_left _ (by omega)]
  rw [← List.getD_eq_getElem _ 0, getD_idct _ hj, hdot, List.getElem_replicate]

/-- R254, R255: a step of 1 to 8 moves 8x by less than 4, as 8 divides it and half of 7 is less. -/
theorem requantized_near {x : Int} {t : Nat} (ht : 1 ≤ t) (ht8 : t ≤ 8) :
    (rdiv (8 * x) t * t - 8 * x).natAbs ≤ 3 := by
  have hnear := (rdiv_nearest (8 * x) ht).1
  rcases ht8.eq_or_lt with rfl | hlt
  · omega
  · omega

/-- 1448² is near enough to 2^21 for a coefficient within 3 of 8x to give x back. -/
theorem rdiv_basis_eq {x d : Int} (hx : x.natAbs ≤ 128) (hd : (d - 8 * x).natAbs ≤ 3) :
    rdiv (1448 * 1448 * d) (2 ^ 24) = x :=
  rdiv_eq_of_near (by omega)

theorem constantBlock_survives {q : Nat} {x : Int} (hlo : -128 ≤ x) (hhi : x ≤ 127) :
    idct (dequantBlock (stepsOf q) (quantBlock (stepsOf q) (fdct (List.replicate 64 (x + 128))))) =
      List.replicate 64 (x + 128) := by
  have hx : x.natAbs ≤ 128 := by omega
  obtain ⟨ts, hts, hsteps⟩ := stepsOf_eq_cons q
  have ht8 : qtabEntry q 0 ≤ 8 := qtabEntry_le q 0
  have hd := requantized_near (x := x) (one_le_qtabEntry q 0) ht8
  have hsat : sat16 (rdiv (8 * x) (qtabEntry q 0) * qtabEntry q 0) =
      rdiv (8 * x) (qtabEntry q 0) * qtabEntry q 0 := by
    unfold sat16 clamp
    omega
  rw [fdct_replicate hx, hsteps, quantBlock, zipWith_dcBlock rdiv_zero_left _ hts, dequantBlock_eq,
    zipWith_dcBlock (by simp [sat16, clamp]) _ hts, hsat, idct_dcBlock, rdiv_basis_eq hx hd]
  congr 1
  unfold clamp
  omega

end Sys2Proof.Machine

namespace Sys2Proof.Proofs

open Sys2Proof.Machine Sys2Proof.Claims

/-- Settles O54: the scale falls with the quality, and an entry rises with the scale. -/
theorem qtabNonIncreasingInQuality : Obligations.QtabNonIncreasingInQuality :=
  fun _ _ i hp hpq _ _ => qtabEntry_antitone hp hpq.le i

/-- Settles O55: T by its table, the transforms by the split of a block's index into row and column,
the forward bound by the largest row of T. -/
theorem transformArithmetic : Obligations.TransformArithmetic :=
  ⟨rfl, fun _ _ _ hx hu hv => fdct_double_sum hx hu hv, fun _ _ hx _ hc => fdct_bounded hx hc,
    fun _ _ _ hd hy hm => idct_double_sum hd hy hm, fun a _ hb => rdiv_nearest a hb⟩

/-- Settles O60: a constant block has the DC coefficient 8x alone, which the DC step of at most 8
moves by at most 3. -/
theorem constantBlockSurvives : Obligations.ConstantBlockSurvives := by
  intro q v _ _ hv
  have h := constantBlock_survives (q := q) (x := v - 128) (by omega) (by omega)
  rwa [sub_add_cancel] at h

end Sys2Proof.Proofs
end

section
/-! The DCT commands (44_dct.md R251, R256 to R264): the pre-checks they share, where each byte of
what they store comes from, and how the fused commands follow from their halves. -/

namespace Sys2Proof.Machine

open Sys2Proof.Claims

/-! ## Ends -/

/-- A command that sets DONE passed its pre-checks and did its work. -/
theorem runCommand_done {checks : List (Bool × CmdError)} {range : Option (Nat × Nat)}
    {body : State → Except Halt Done} {d : Done} {s t : State} (hb : body s = .ok d)
    (h : runCommand checks range body s = .next t) (hdone : t.done = true) :
    firstError checks = none ∧ t = endOk d := by
  rcases runCommand_cases h with ⟨e, -, rfl⟩ | ⟨hc, d', hd, rfl⟩ | ⟨-, e, he, -⟩
  · cases hdone
  · cases hb.symm.trans hd
    exact ⟨hc, rfl⟩
  · cases hb.symm.trans he

/-! ## QT_GEN (R251) -/

section
variable {s : State}

theorem execQtGen_writes (hmode : s.mode = true) (hlo : 1 ≤ s.quality.toNat)
    (hhi : s.quality.toNat ≤ 100) : execQtGen s = .next { finish s s.quality.toNat 0 0 with
      qtab := qtabFor s.quality.toNat, qtabQ := s.quality } :=
  runCommand_ok (d := ⟨{ s with qtab := qtabFor s.quality.toNat, qtabQ := s.quality }, _, 0, 0⟩)
    (firstError_of_pass hmode (firstError_of_pass ((checkQuality_fst s).2 ⟨hlo, hhi⟩) rfl)) rfl

theorem execQtGen_lossless (hmode : s.mode = false) :
    execQtGen s = .next (failWith s 0x03#8) :=
  runCommand_pre (e := .unsupportedModeForCodec)
    (firstError_of_fail (by simp [checkMode, hmode]))

theorem execQtGen_invalidQuality (hmode : s.mode = true)
    (hq : s.quality.toNat = 0 ∨ 100 < s.quality.toNat) :
    execQtGen s = .next (failWith s 0x01#8) :=
  runCommand_pre (e := .invalidQuality) (firstError_of_pass hmode
    (firstError_of_fail (mt (checkQuality_fst s).1 (by omega))))

end

/-! ## The pre-checks of the data commands (R258, R316) -/

section
variable {s : State} {rest : List (Bool × CmdError)}

theorem firstError_dctIoChecks (h : DctReady s) :
    firstError (dctIoChecks s ++ rest) = firstError rest := by
  obtain ⟨hmode, hsrc, hdst, hlap⟩ := h
  exact firstError_of_pass hmode (firstError_of_pass ((checkSrc_iff s).2 hsrc)
    (firstError_of_pass ((checkDst_iff s).2 hdst)
      (firstError_of_pass (not_overlap_iff.2 hlap) rfl)))

theorem firstError_forwardChecks (h : firstError (forwardChecks s) = none) :
    128 * blocks s.srcLen.toNat ≤ s.dstCap.toNat :=
  of_decide_eq_true (firstError_eq_none.1 h _ (List.mem_append_right _ (List.mem_singleton_self _)))

theorem firstError_inverseChecks (h : firstError (inverseChecks s) = none) :
    128 * blocks s.cnt.toNat ≤ s.srcLen.toNat :=
  of_decide_eq_true (firstError_eq_none.1 h _ (List.mem_append_right _ List.mem_cons_self))

end

/-! ## Stored values (R12, R257) -/

/-- The integers a stored coefficient can have. -/
def IsCoef (v : Int) : Prop := -32768 ≤ v ∧ v ≤ 32767

theorem sbe16_be16 {v : Int} (h : IsCoef v) :
    sbe16 ((be16 v).getD 0 0#8) ((be16 v).getD 1 0#8) = v := by
  have happ : ((BitVec.ofInt 16 v).extractLsb' 8 8 ++ (BitVec.ofInt 16 v).extractLsb' 0 8 :
      BitVec 16) = BitVec.ofInt 16 v :=
    (BitVec.extractLsb'_append_extractLsb'_eq_extractLsb' rfl).trans BitVec.extractLsb'_eq_self
  exact (congrArg BitVec.toInt happ).trans
    (BitVec.toInt_ofInt_eq_self (by decide) h.1 (by have := h.2; omega))

theorem isCoef_sbe16 (b0 b1 : Byte) : IsCoef (sbe16 b0 b1) := by
  have hlo := BitVec.le_toInt (b0 ++ b1)
  have hhi := BitVec.toInt_lt (x := b0 ++ b1)
  exact ⟨hlo, Int.le_of_lt_add_one hhi⟩

theorem isCoef_sat16 (v : Int) : IsCoef (sat16 v) := by
  unfold IsCoef sat16 clamp
  omega

theorem natAbs_rdiv (a : Int) (b : Nat) :
    (rdiv a b).natAbs = (2 * a.natAbs + b) / (2 * b) := by
  rcases lt_or_ge a 0 with ha | ha
  · rw [rdiv_of_neg ha, Int.natAbs_neg, Int.natAbs_natCast]
  · rw [rdiv_of_nonneg ha, Int.natAbs_natCast]

theorem natAbs_rdiv_le (a : Int) (b : Nat) : (rdiv a b).natAbs ≤ a.natAbs := by
  rw [natAbs_rdiv]
  rcases Nat.eq_zero_or_pos b with rfl | hb
  · simp
  · rw [← Nat.lt_add_one_iff, Nat.div_lt_iff_lt_mul (by omega),
      show (a.natAbs + 1) * (2 * b) = 2 * a.natAbs * b + 2 * b by ring]
    have := Nat.le_mul_of_pos_right (2 * a.natAbs) hb
    omega

theorem rdiv_nonneg {a : Int} (ha : 0 ≤ a) (b : Nat) : 0 ≤ rdiv a b := by
  rw [rdiv_of_nonneg ha]
  exact Int.natCast_nonneg _

/-- R254: a quantized coefficient is a coefficient: the magnitude does not grow and a positive one
does not become negative. -/
theorem isCoef_rdiv {v : Int} (h : IsCoef v) (b : Nat) : IsCoef (rdiv v b) := by
  unfold IsCoef at *
  have hle := natAbs_rdiv_le v b
  rcases lt_or_ge v 0 with hv | hv
  · have : rdiv v b ≤ 0 := by
      rw [rdiv_of_neg hv]
      exact Int.neg_nonpos_of_nonneg (Int.natCast_nonneg _)
    omega
  · have := rdiv_nonneg hv b
    omega

theorem toNat_ofInt_byte {v : Int} (h : 0 ≤ v ∧ v ≤ 255) :
    ((BitVec.ofInt 8 v).toNat : Int) = v := by
  rw [BitVec.toNat_ofInt]
  omega

/-! ## Where a stored byte comes from -/

/-- Entry k*i + e of a concatenation of pieces of length k is entry e of piece i. -/
theorem getElem?_flatMap_of_length {α β : Type} {f : α → List β} {k : Nat}
    (hf : ∀ a, (f a).length = k) (l : List α) (i : Nat) {e : Nat} (he : e < k) :
    (l.flatMap f)[k * i + e]? = l[i]?.bind fun a => (f a)[e]? := by
  induction l generalizing i with
  | nil => simp
  | cons a l ih =>
    rw [List.flatMap_cons]
    cases i with
    | zero => simp [List.getElem?_append_left, hf, he]
    | succ i =>
      rw [List.getElem?_append_right (by rw [hf, Nat.mul_succ]; omega), hf,
        show k * (i + 1) + e - k = k * i + e by rw [Nat.mul_succ]; omega, ih]
      rfl

section
variable {s : State} {a n b i : Nat} {g : Nat → List Int}

theorem byteAt_storeBytes_add {l : List Byte} {k : Nat} (hk : k < l.length) :
    (s.storeBytes a l).byteAt (a + k) = l.getD k 0#8 := by
  rw [State.byteAt_storeBytes_of_mem s (by omega), Nat.add_sub_cancel_left]

/-- R257: the stored form of `n` coefficient blocks. -/
def blocksBytes (n : Nat) (g : Nat → List Int) : List Byte :=
  (List.range n).flatMap fun b => coefBytes (g b)

theorem length_blocksBytes (hlen : ∀ b, (g b).length = 64) :
    (blocksBytes n g).length = 128 * n := by
  simp [blocksBytes, List.length_flatMap, hlen, Nat.mul_comm]

theorem getD_blocksBytes (hlen : ∀ b, (g b).length = 64) (hb : b < n) (hi : i < 64) {e : Nat}
    (he : e < 2) : (blocksBytes n g).getD (128 * b + 2 * i + e) 0#8 =
      (be16 ((g b).getD i 0)).getD e 0#8 := by
  have hpiece := getElem?_flatMap_of_length (f := fun b => coefBytes (g b)) (k := 128)
    (by simp [hlen]) (List.range n) b (show 2 * i + e < 128 by omega)
  have hcoef := getElem?_flatMap_of_length (f := be16) (k := 2) (fun _ => rfl) (g b) i he
  rw [List.getElem?_range hb, Option.bind_some, coefBytes, hcoef,
    List.getElem?_eq_getElem (l := g b) (by rw [hlen]; exact hi), Option.bind_some] at hpiece
  rw [List.getD_eq_getElem?_getD, Nat.add_assoc, blocksBytes, hpiece, List.getD_eq_getElem?_getD,
    List.getD_eq_getElem (g b) 0 (by rw [hlen]; exact hi)]

/-- R257: the coefficients of stored blocks read back. -/
theorem coefAt_storeBytes (hlen : ∀ b, (g b).length = 64) (hb : b < n) (hi : i < 64)
    (hg : ∀ c ∈ g b, IsCoef c) :
    coefAt (s.storeBytes a (blocksBytes n g)) (a + 128 * b + 2 * i) = (g b).getD i 0 := by
  have hbyte : ∀ e < 2, (s.storeBytes a (blocksBytes n g)).byteAt (a + 128 * b + 2 * i + e) =
      (be16 ((g b).getD i 0)).getD e 0#8 := fun e he => by
    rw [← getD_blocksBytes hlen hb hi he, Nat.add_assoc a, Nat.add_assoc a,
      byteAt_storeBytes_add (by rw [length_blocksBytes hlen]; omega)]
  have hcoef : IsCoef ((g b).getD i 0) := by
    rw [List.getD_eq_getElem _ 0 (by rw [hlen]; exact hi)]
    exact hg _ (List.getElem_mem _)
  rw [coefAt, ← Nat.add_zero (a + _ + _), hbyte 0 (by decide), hbyte 1 (by decide),
    sbe16_be16 hcoef]

theorem getD_coefBlock (s : State) (b : Nat) (hi : i < 64) :
    (s.coefBlock b).getD i 0 = coefAt s (s.srcAddr.toNat + 128 * b + 2 * i) := by
  simp [State.coefBlock, blockIdx, hi, coefAt]

/-- A block whose coefficients read back as those of `c` is `c`. -/
theorem coefBlock_eq {c : List Int} (hc : c.length = 64)
    (h : ∀ i < 64, coefAt s (s.srcAddr.toNat + 128 * b + 2 * i) = c.getD i 0) :
    s.coefBlock b = c := by
  refine List.ext_getElem (by simp [hc]) fun i hi _ => ?_
  rw [length_coefBlock] at hi
  rw [← List.getD_eq_getElem c 0, ← h i hi, ← getD_coefBlock s b hi, List.getD_eq_getElem]

end

/-! ## The blocks of a command (R256, R257) -/

section
variable (s : State) (b : Nat)

theorem sampleBlock_eq_paddedBlock : s.sampleBlock b = paddedBlock s b := by
  refine List.map_congr_left fun j _ => ?_
  split
  next h => rw [Nat.min_eq_left (by omega)]
  next h => rw [Nat.min_eq_right (by omega)]

@[simp] theorem length_sampleBlock : (s.sampleBlock b).length = 64 := by
  simp [State.sampleBlock, blockIdx]

theorem sampleBlock_bounded : ∀ v ∈ s.sampleBlock b, 0 ≤ v ∧ v ≤ 255 := by
  simp only [State.sampleBlock, List.forall_mem_map]
  intro j _
  have := (s.byteAt (s.srcAddr.toNat + min (64 * b + j) (s.srcLen.toNat - 1))).isLt
  omega

theorem isCoef_coefBlock : ∀ c ∈ s.coefBlock b, IsCoef c := by
  simp only [State.coefBlock, List.forall_mem_map]
  exact fun _ _ => isCoef_sbe16 _ _

theorem isCoef_fdct_sampleBlock : ∀ c ∈ fdct (s.sampleBlock b), IsCoef c := fun c hc => by
  have := fdct_bounded (sampleBlock_bounded s b) hc
  unfold IsCoef
  omega

@[simp] theorem length_steps : s.steps.length = 64 := by simp [State.steps]

theorem length_quantBlock {c : List Int} (hc : c.length = 64) :
    (quantBlock s.steps c).length = 64 := by simp [quantBlock, hc]

theorem length_dequantBlock {c : List Int} (hc : c.length = 64) :
    (dequantBlock s.steps c).length = 64 := by simp [dequantBlock_eq, hc]

/-- R260, R261: a map of coefficients and their steps, entry by entry. -/
theorem getD_zipWith_steps {f : Int → Nat → Int} {c : List Int} (hc : c.length = 64) {i : Nat}
    (hi : i < 64) :
    (List.zipWith f c s.steps).getD i 0 = f (c.getD i 0) (s.qtab[i]'hi).toNat := by
  simp [State.steps, hc, hi]

end

theorem forall_mem_zipWith {α β γ : Type} {f : α → β → γ} {p : α → Prop} {q : γ → Prop}
    {xs : List α} {ys : List β} (hf : ∀ x y, p x → q (f x y)) (hxs : ∀ x ∈ xs, p x) :
    ∀ z ∈ List.zipWith f xs ys, q z := by
  intro z hz
  obtain ⟨i, hi, rfl⟩ := List.getElem_of_mem hz
  rw [List.getElem_zipWith]
  exact hf _ _ (hxs _ (List.getElem_mem _))

theorem isCoef_quantBlock {steps : List Nat} {c : List Int} (hc : ∀ v ∈ c, IsCoef v) :
    ∀ v ∈ quantBlock steps c, IsCoef v :=
  forall_mem_zipWith (fun _ y hx => isCoef_rdiv hx y) hc

theorem isCoef_dequantBlock (steps : List Nat) (c : List Int) :
    ∀ v ∈ dequantBlock steps c, IsCoef v :=
  forall_mem_zipWith (p := fun _ => True) (fun _ _ _ => isCoef_sat16 _) fun _ _ => trivial

/-! ## The ends of the data commands (R259 to R264) -/

section
variable (s : State)

theorem exec_dctFwd : exec .dctFwd s =
    runCommand (forwardChecks s) (outputRange .dctFwd s) (forwardBody fdct) s := rfl

theorem exec_dctEnc : exec .dctEnc s = runCommand (forwardChecks s) (outputRange .dctEnc s)
    (forwardBody fun x => quantBlock s.steps (fdct x)) s := rfl

theorem exec_quant : exec .quant s =
    runCommand (coefMapChecks s) (outputRange .quant s) (coefMapBody (quantBlock s.steps)) s := rfl

theorem exec_dequant : exec .dequant s = runCommand (coefMapChecks s) (outputRange .dequant s)
    (coefMapBody (dequantBlock s.steps)) s := rfl

theorem exec_dctInv : exec .dctInv s =
    runCommand (inverseChecks s) (outputRange .dctInv s) (inverseBody idct) s := rfl

theorem exec_dctDec : exec .dctDec s = runCommand (inverseChecks s) (outputRange .dctDec s)
    (inverseBody fun q => idct (dequantBlock s.steps q)) s := rfl

end

theorem lastBlockLen_eq (n : Nat) : lastBlockLen n = n - 64 * (blocks n - 1) := by
  unfold lastBlockLen
  split
  next h => rw [h, Nat.zero_sub]
  next => rfl

section
variable {s : State} {range : Option (Nat × Nat)} (hready : DctReady s)
include hready

/-- R259, R263: the end of a forward command whose function gives blocks of coefficients. -/
theorem runCommand_forward {f : List Int → List Int}
    (hlen : ∀ b, (f (s.sampleBlock b)).length = 64)
    (hf : ∀ b, ∀ c ∈ f (s.sampleBlock b), IsCoef c)
    (hroom : 128 * blocks s.srcLen.toNat ≤ s.dstCap.toNat) :
    ∃ t, runCommand (forwardChecks s) range (forwardBody f) s = .next t ∧ ForwardEnds s t f := by
  have hchecks : firstError (forwardChecks s) = none :=
    (firstError_dctIoChecks hready).trans (firstError_of_pass (decide_eq_true hroom) rfl)
  refine ⟨_, runCommand_ok hchecks rfl, ?_, fun b i hb hi => ?_, fun a ha => ?_⟩
  · rw [← lastBlockLen_eq]
    rfl
  · rw [← sampleBlock_eq_paddedBlock]
    exact coefAt_storeBytes (g := fun b => f (s.sampleBlock b)) hlen hb hi (hf b)
  · refine State.byteAt_storeBytes_of_not_mem s ?_
    rwa [show (s.forwardBytes f).length = 128 * blocks s.srcLen.toNat from length_blocksBytes hlen]

theorem runCommand_forward_overflow {f : List Int → List Int}
    (hlack : s.dstCap.toNat < 128 * blocks s.srcLen.toNat) :
    runCommand (forwardChecks s) range (forwardBody f) s = .next (failWith s 0x12#8) :=
  runCommand_pre (e := .outputOverflow) ((firstError_dctIoChecks hready).trans
    (firstError_of_fail (mt of_decide_eq_true hlack.not_ge)))

section
variable {f : Int → Nat → Int} {F : List Int → List Int}

/-- R260, R261: the end of a command that maps each coefficient and its step. -/
theorem runCommand_coefMap (hF : ∀ c, F c = List.zipWith f c s.steps)
    (hcoef : ∀ b, ∀ c ∈ F (s.coefBlock b), IsCoef c)
    (hwhole : s.srcLen.toNat % 128 = 0) (hroom : s.srcLen.toNat ≤ s.dstCap.toNat) :
    ∃ t, runCommand (coefMapChecks s) range (coefMapBody F) s = .next t ∧ CoefMapEnds s t f := by
  have hchecks : firstError (coefMapChecks s) = none :=
    (firstError_dctIoChecks hready).trans (firstError_of_pass (decide_eq_true hwhole)
      (firstError_of_pass (decide_eq_true hroom) rfl))
  have hlen : ∀ b, (F (s.coefBlock b)).length = 64 := fun b => by simp [hF]
  refine ⟨_, runCommand_ok hchecks rfl, rfl, fun b i hb hi => ?_, fun a ha => ?_⟩
  · have hget := getD_zipWith_steps s (f := f) (length_coefBlock s b) hi
    rw [← hF, getD_coefBlock s b hi] at hget
    exact (coefAt_storeBytes (g := fun b => F (s.coefBlock b)) hlen hb hi (hcoef b)).trans hget
  · refine State.byteAt_storeBytes_of_not_mem s ?_
    rwa [show (s.coefMapBytes F).length = 128 * (s.srcLen.toNat / 128) from length_blocksBytes hlen,
      Nat.mul_div_cancel' (Nat.dvd_of_mod_eq_zero hwhole)]

theorem runCommand_coefMap_corrupt (hpart : s.srcLen.toNat % 128 ≠ 0) :
    runCommand (coefMapChecks s) range (coefMapBody F) s = .next (failWith s 0x07#8) :=
  runCommand_pre (e := .corruptStream) ((firstError_dctIoChecks hready).trans
    (firstError_of_fail (mt of_decide_eq_true hpart)))

theorem runCommand_coefMap_overflow (hwhole : s.srcLen.toNat % 128 = 0)
    (hlack : s.dstCap.toNat < s.srcLen.toNat) :
    runCommand (coefMapChecks s) range (coefMapBody F) s = .next (failWith s 0x12#8) :=
  runCommand_pre (e := .outputOverflow) ((firstError_dctIoChecks hready).trans
    (firstError_of_pass (decide_eq_true hwhole)
      (firstError_of_fail (mt of_decide_eq_true hlack.not_ge))))

end

section
variable {f : List Int → List Int}

omit hready in
theorem length_inverseBytes (hlen : ∀ x, (f x).length = 64) :
    (s.inverseBytes f).length = s.cnt.toNat := by
  have hblocks : s.cnt.toNat ≤ 64 * blockCount s.cnt.toNat := by
    unfold blockCount ceilDiv
    omega
  simp [State.inverseBytes, sampleBytes, List.length_flatMap, hlen, Nat.mul_comm _ 64, hblocks]

omit hready in
theorem getD_inverseBytes (hlen : ∀ x, (f x).length = 64) {k : Nat} (hk : k < s.cnt.toNat) :
    (s.inverseBytes f).getD k 0#8 =
      BitVec.ofInt 8 ((f (s.coefBlock (k / 64))).getD (k % 64) 0) := by
  have hpiece := getElem?_flatMap_of_length (f := fun b => sampleBytes (f (s.coefBlock b)))
    (k := 64) (by simp [sampleBytes, hlen]) (List.range (blockCount s.cnt.toNat)) (k / 64)
    (Nat.mod_lt k (by decide))
  rw [Nat.div_add_mod, List.getElem?_range (by unfold blockCount ceilDiv; omega)] at hpiece
  have hlt : k % 64 < (f (s.coefBlock (k / 64))).length := by rw [hlen]; omega
  rw [List.getD_eq_getElem?_getD, State.inverseBytes, List.getElem?_take_of_lt hk, hpiece]
  simp [sampleBytes, hlt]

/-- R262, R264: the end of an inverse command whose function gives blocks of samples. -/
theorem runCommand_inverse (hlen : ∀ x, (f x).length = 64)
    (hf : ∀ x, ∀ v ∈ f x, 0 ≤ v ∧ v ≤ 255)
    (hsrc : 128 * blocks s.cnt.toNat ≤ s.srcLen.toNat) (hroom : s.cnt.toNat ≤ s.dstCap.toNat) :
    ∃ t, runCommand (inverseChecks s) range (inverseBody f) s = .next t ∧ InverseEnds s t f := by
  have hchecks : firstError (inverseChecks s) = none :=
    (firstError_dctIoChecks hready).trans (firstError_of_pass (decide_eq_true hsrc)
      (firstError_of_pass ((checkCnt_fst s).2 hroom) rfl))
  refine ⟨_, runCommand_ok hchecks rfl, rfl, fun k hk => ?_, fun a ha => ?_⟩
  · have hlt : k % 64 < (f (s.coefBlock (k / 64))).length := by rw [hlen]; omega
    rw [endOk_byteAt, byteAt_storeBytes_add (by rwa [length_inverseBytes hlen]),
      getD_inverseBytes hlen hk]
    refine toNat_ofInt_byte (hf (s.coefBlock (k / 64)) _ ?_)
    rw [List.getD_eq_getElem _ 0 hlt]
    exact List.getElem_mem _
  · exact State.byteAt_storeBytes_of_not_mem s (by rwa [length_inverseBytes hlen])

theorem runCommand_inverse_truncated (hshort : s.srcLen.toNat < 128 * blocks s.cnt.toNat) :
    runCommand (inverseChecks s) range (inverseBody f) s = .next (failWith s 0x05#8) :=
  runCommand_pre (e := .truncatedStream) ((firstError_dctIoChecks hready).trans
    (firstError_of_fail (mt of_decide_eq_true hshort.not_ge)))

theorem runCommand_inverse_overflow (hsrc : 128 * blocks s.cnt.toNat ≤ s.srcLen.toNat)
    (hlack : s.dstCap.toNat < s.cnt.toNat) :
    runCommand (inverseChecks s) range (inverseBody f) s = .next (failWith s 0x12#8) :=
  runCommand_pre (e := .outputOverflow) ((firstError_dctIoChecks hready).trans
    (firstError_of_pass (decide_eq_true hsrc)
      (firstError_of_fail (mt (checkCnt_fst s).1 hlack.not_ge))))

end

end

/-! ## The fused commands (R263, R264) -/

section
variable {s u : State}

/-- A command whose source holds what another one stored reads that one's blocks. -/
theorem coefBlock_of_stored {n b : Nat} {g : Nat → List Int}
    (hbuf : u.buf = (s.storeBytes u.srcAddr.toNat (blocksBytes n g)).buf) (hpow : u.power = s.power)
    (hlen : ∀ b, (g b).length = 64) (hg : ∀ b, ∀ c ∈ g b, IsCoef c) (hb : b < n) :
    u.coefBlock b = g b := by
  have hbyte : ∀ a, u.byteAt a = (s.storeBytes u.srcAddr.toNat (blocksBytes n g)).byteAt a :=
    fun a => by rw [State.byteAt, hbuf, hpow]; rfl
  refine coefBlock_eq (hlen b) fun i hi => ?_
  rw [coefAt, hbyte, hbyte]
  exact coefAt_storeBytes hlen hb hi (hg b)

theorem coefMapBytes_eq {n : Nat} {g : Nat → List Int} (f : List Int → List Int)
    (hlen : u.srcLen.toNat = 128 * n) (hu : ∀ b < n, u.coefBlock b = g b) :
    u.coefMapBytes f = blocksBytes n fun b => f (g b) := by
  rw [State.coefMapBytes, hlen, Nat.mul_div_cancel_left n (by decide)]
  exact List.flatMap_congr fun b hb => by rw [hu b (List.mem_range.1 hb)]

theorem inverseBytes_congr {f f' : List Int → List Int} (hcnt : u.cnt = s.cnt)
    (hu : ∀ b < blocks s.cnt.toNat, f (u.coefBlock b) = f' (s.coefBlock b)) :
    u.inverseBytes f = s.inverseBytes f' := by
  rw [State.inverseBytes, State.inverseBytes, hcnt]
  exact congrArg (List.take _) (List.flatMap_congr fun b hb => by rw [hu b (List.mem_range.1 hb)])

/-- R263: quantizing what DCT_FWD stored gives what DCT_ENC stores. -/
theorem coefMapBytes_after_forward
    (hbuf : u.buf = (s.storeBytes u.srcAddr.toNat (s.forwardBytes fdct)).buf)
    (hpow : u.power = s.power) (hlen : u.srcLen.toNat = 128 * blocks s.srcLen.toNat) :
    u.coefMapBytes (quantBlock s.steps) = s.forwardBytes fun x => quantBlock s.steps (fdct x) :=
  coefMapBytes_eq _ hlen fun _ hb => coefBlock_of_stored hbuf hpow (fun _ => length_fdct _)
    (isCoef_fdct_sampleBlock s) hb

/-- R264: the samples of what DEQUANT stored are what DCT_DEC stores. -/
theorem inverseBytes_after_dequant
    (hbuf : u.buf = (s.storeBytes u.srcAddr.toNat (s.coefMapBytes (dequantBlock s.steps))).buf)
    (hpow : u.power = s.power) (hcnt : u.cnt = s.cnt)
    (hsrc : 128 * blocks s.cnt.toNat ≤ s.srcLen.toNat) :
    u.inverseBytes idct = s.inverseBytes fun q => idct (dequantBlock s.steps q) :=
  inverseBytes_congr hcnt fun b hb => congrArg idct <|
    coefBlock_of_stored hbuf hpow (fun b => length_dequantBlock s (length_coefBlock s b))
      (fun b => isCoef_dequantBlock s.steps (s.coefBlock b)) (by omega)

theorem byteAt_storeBytes_eq {a c k : Nat} {l l' : List Byte} (h : l = l') (hk : k < l'.length) :
    (u.storeBytes a l).byteAt (a + k) = (s.storeBytes c l').byteAt (c + k) := by
  rw [h, byteAt_storeBytes_add hk, byteAt_storeBytes_add hk]

end

end Sys2Proof.Machine

namespace Sys2Proof.Proofs

open Sys2Proof.Machine Sys2Proof.Claims

/-- Settles O53: QT_GEN stores `qtabFor` of the quality, whose entries are the rule's formula. -/
theorem qtGenWritesTable : Obligations.QtGenWritesTable := by
  refine ⟨rfl, fun s => ⟨fun hmode hlo hhi => ⟨_, execQtGen_writes hmode hlo hhi, rfl, ?_⟩,
    execQtGen_lossless, execQtGen_invalidQuality⟩⟩
  rintro i hi _ rfl
  exact (qtabFor_getElem_toNat _ hi).trans (qtabEntry_eq _ i)

/-- Settles O56: the bounds of the transform and of the quantizer make every result a 16-bit
coefficient, which reads back from its stored form. -/
theorem forwardCommandsStoreCoefficients : Obligations.ForwardCommandsStoreCoefficients := by
  refine ⟨fun s hready hroom => ?_, fun s hready hlack => ?_⟩ <;> rw [exec_dctFwd, exec_dctEnc]
  · exact ⟨runCommand_forward hready (fun _ => length_fdct _) (isCoef_fdct_sampleBlock s) hroom,
      runCommand_forward hready (fun _ => length_quantBlock s (length_fdct _))
        (fun b => isCoef_quantBlock (isCoef_fdct_sampleBlock s b)) hroom⟩
  · exact ⟨runCommand_forward_overflow hready hlack, runCommand_forward_overflow hready hlack⟩

/-- Settles O57: both maps keep a coefficient within 16 bits, the dequantizer by saturation. -/
theorem quantAndDequantMapCoefficients : Obligations.QuantAndDequantMapCoefficients := by
  intro s hready
  rw [exec_quant, exec_dequant]
  refine ⟨fun hwhole hroom => ⟨?_, ?_⟩, fun hpart => ⟨?_, ?_⟩, fun hwhole hlack => ⟨?_, ?_⟩⟩
  · exact runCommand_coefMap hready (fun _ => rfl)
      (fun b => isCoef_quantBlock (isCoef_coefBlock s b)) hwhole hroom
  · exact runCommand_coefMap hready (dequantBlock_eq s.steps)
      (fun _ => isCoef_dequantBlock s.steps _) hwhole hroom
  · exact runCommand_coefMap_corrupt hready hpart
  · exact runCommand_coefMap_corrupt hready hpart
  · exact runCommand_coefMap_overflow hready hwhole hlack
  · exact runCommand_coefMap_overflow hready hwhole hlack

/-- Settles O58: the inverse transform's range of 0 to 255 makes every result a byte. -/
theorem inverseCommandsStoreSamples : Obligations.InverseCommandsStoreSamples := by
  intro s hready
  simp only [← dequantBlock_eq]
  rw [exec_dctInv, exec_dctDec]
  refine ⟨fun hsrc hroom => ⟨?_, ?_⟩, fun hshort => ⟨?_, ?_⟩, fun hsrc hlack => ⟨?_, ?_⟩⟩
  · exact runCommand_inverse hready length_idct (fun _ _ => idct_bounded) hsrc hroom
  · exact runCommand_inverse hready (fun _ => length_idct _) (fun _ _ => idct_bounded) hsrc hroom
  · exact runCommand_inverse_truncated hready hshort
  · exact runCommand_inverse_truncated hready hshort
  · exact runCommand_inverse_overflow hready hsrc hlack
  · exact runCommand_inverse_overflow hready hsrc hlack

/-- Settles O59: the second command of each pair reads the first one's blocks back as they were
computed, so it stores what the fused command stores. -/
theorem fusedCommandsAreCompositions : Obligations.FusedCommandsAreCompositions := by
  constructor
  · intro s t₁ t₂ t₃ d h₁ hd₁ h₂ hd₂ h₃ k hk
    rw [exec_dctFwd] at h₁
    rw [exec_quant] at h₂
    rw [exec_dctEnc] at h₃
    obtain ⟨hchecks, ht₁⟩ := runCommand_done rfl h₁ hd₁
    obtain ⟨-, rfl⟩ := runCommand_done rfl h₂ hd₂
    cases (runCommand_ok hchecks rfl).symm.trans h₃
    have hbuf : t₁.buf = (s.storeBytes s.dstAddr.toNat (s.forwardBytes fdct)).buf := ht₁ ▸ rfl
    have hpow : t₁.power = s.power := ht₁ ▸ rfl
    have hqtab : t₁.qtab = s.qtab := ht₁ ▸ rfl
    have hlen : (BitVec.ofNat 64 (128 * blocks s.srcLen.toNat)).toNat =
        128 * blocks s.srcLen.toNat := by
      rw [BitVec.toNat_ofNat,
        Nat.mod_eq_of_lt ((firstError_forwardChecks hchecks).trans_lt s.dstCap.isLt)]
    rw [endOk_byteAt, endOk_byteAt]
    dsimp only
    refine byteAt_storeBytes_eq ?_ (hk.trans_eq ?_)
    · rw [State.steps, hqtab]
      exact coefMapBytes_after_forward hbuf hpow hlen
    · exact (length_blocksBytes fun _ => length_quantBlock s (length_fdct _)).symm
  · intro s t₁ t₂ t₃ d cap h₁ hd₁ h₂ hd₂ h₃ hd₃ k hk
    rw [exec_dequant] at h₁
    rw [exec_dctInv] at h₂
    rw [exec_dctDec] at h₃
    obtain ⟨-, ht₁⟩ := runCommand_done rfl h₁ hd₁
    obtain ⟨hchecks, rfl⟩ := runCommand_done rfl h₂ hd₂
    obtain ⟨-, rfl⟩ := runCommand_done rfl h₃ hd₃
    have hbuf : t₁.buf = (s.storeBytes s.dstAddr.toNat
        (s.coefMapBytes (dequantBlock s.steps))).buf := ht₁ ▸ rfl
    have hpow : t₁.power = s.power := ht₁ ▸ rfl
    have hcnt : t₁.cnt = s.cnt := ht₁ ▸ rfl
    have hsrc := firstError_inverseChecks hchecks
    rw [endOk_byteAt, endOk_byteAt]
    dsimp only
    refine byteAt_storeBytes_eq ?_ (hk.trans_eq ?_)
    · exact inverseBytes_after_dequant hbuf hpow hcnt (hcnt ▸ hsrc)
    · exact (length_inverseBytes fun _ => length_idct _).symm

end Sys2Proof.Proofs
end

section
/-! The control command (45_control.md): the only word of NOP's opcode that decodes is the word 0,
and NOP ends without an effect of its own. -/

namespace Sys2Proof

/-- R113: opcode 0 is NOP's row, which has no immediate, so the encoding of NOP is the only word of
this opcode that decodes. -/
theorem eq_zero_of_decode_opcode_zero {c : Word64} {i : Instr} (hopc : c.toNat % 256 = 0)
    (h : decode c = .ok i) : c = 0#64 := by
  have hfield : opcField c = 0#8 := BitVec.eq_of_toNat_eq ((opcField_toNat c).trans hopc)
  obtain ⟨hrow, -⟩ := decode_eq_ok_iff_rowOf.1 h
  rw [hfield] at hrow
  obtain rfl : .nop = i := Option.some.inj hrow
  obtain ⟨-, henc⟩ := decode_eq_ok_iff.1 h
  exact henc.symm

end Sys2Proof

namespace Sys2Proof.Machine

open Sys2Proof.Claims

/-- R300: NOP has no pre-check and no effect of its own. -/
theorem execNop_ends (s : State) : execNop s = .next (finish s 0 0 0) :=
  runCommand_ok (d := ⟨s, 0, 0, 0⟩) rfl rfl

end Sys2Proof.Machine

namespace Sys2Proof.Proofs

open Sys2Proof.Machine Sys2Proof.Claims

/-- Settles O29: the word 0 encodes NOP, NOP only ends, and every other word of its opcode decodes
to no command, so the engine's step is a pre-check error. -/
theorem nopOnlyEnds : Obligations.NopOnlyEnds :=
  ⟨decode_eq_ok_iff.2 ⟨rfl, rfl⟩, execNop_ends, fun _ _ hp hw hopc hne =>
    step_illegal hp hw fun ⟨_, hd⟩ => hne (eq_zero_of_decode_opcode_zero hopc hd)⟩

end Sys2Proof.Proofs
end

section
/-! The exceptions (60_exceptions.md): every command ends while the open streams lie in BUF (R313,
R362), it ends as the error table says (R312 to R318), and its pre-checks report in order (R316). -/

namespace Sys2Proof.Machine

open Sys2Proof.Claims

/-! ## Work that stays in BUF (R303, R362) -/

/-- The work does not stop at a stream access outside BUF. -/
def StaysInBuf {α : Type} (x : Except Halt α) : Prop := ∀ a, x ≠ .error (.outside a)

/-- The open writer lies in BUF. -/
def State.WriterFits (s : State) : Prop := s.wr.base + s.wr.cap ≤ s.bufSize

section
variable {α β : Type} {s : State}

theorem staysInBuf_ok (v : α) : StaysInBuf (.ok v) := fun _ h => nomatch h

theorem staysInBuf_raise (e : CmdError) : StaysInBuf (.error (.raise e) : Except Halt α) :=
  fun _ h => nomatch h

theorem StaysInBuf.bind {x : Except Halt α} {f : α → Except Halt β} (hx : StaysInBuf x)
    (hf : ∀ v, x = .ok v → StaysInBuf (f v)) : StaysInBuf (x >>= f) := fun a h => by
  rcases bind_eq_error.1 h with h | ⟨v, hv, h⟩
  · exact hx a h
  · exact hf v hv a h

theorem StaysInBuf.then_ok {x : Except Halt α} {f : α → β} (hx : StaysInBuf x) :
    StaysInBuf (x >>= fun v => .ok (f v)) := hx.bind fun _ _ => staysInBuf_ok _

/-- Work on the stream of a reader that lies in BUF stays there. -/
theorem StaysInBuf.of_stops {x : Except Halt α} {es : List CmdError}
    (hx : ∀ {h}, x = .error h → StopsWith s es h) (hfits : s.ReaderFits) : StaysInBuf x :=
  fun _ h => by
    rcases hx h with ⟨_, -, h⟩ | ⟨-, hout⟩
    · cases h
    · exact hout hfits

theorem Appended.writerFits {t : State} (h : Appended s t) (hfits : s.WriterFits) :
    t.WriterFits := by
  rwa [State.WriterFits, h.base, h.cap, h.bufSize]

theorem State.WriterFits.appendBit (hfits : s.WriterFits) (b : Bool) :
    StaysInBuf (s.appendBit b) := by
  unfold State.WriterFits at hfits
  intro a h
  unfold State.appendBit at h
  split_ifs at h with hfull h7 hin <;> cases h
  omega

/-- R141: a writer that lies in BUF appends inside it, whatever its pending byte holds. -/
theorem State.WriterFits.appendBits (hfits : s.WriterFits) (bits : List Bool) :
    StaysInBuf (s.appendBits bits) := by
  induction bits generalizing s with
  | nil => exact staysInBuf_ok s
  | cons b bs ih =>
    intro a h
    rw [State.appendBits] at h
    split at h
    next x hx =>
      cases h
      exact hfits.appendBit b a hx
    next u hu => exact ih ((Appended.of_appendBit hu).writerFits hfits) a h

theorem State.WriterFits.hufEncode (hfits : s.WriterFits) (c : Vector Byte 256) (l : List Byte)
    (bits : Nat) : StaysInBuf (hufEncode c l bits s) := by
  induction l generalizing bits s with
  | nil => exact staysInBuf_ok _
  | cons b bs ih =>
    rw [Machine.hufEncode]
    split_ifs
    · exact staysInBuf_raise _
    · exact (hfits.appendBits _).bind fun u hu =>
        ih ((Appended.of_appendBits hu).writerFits hfits) _

/-- R174: HUF_DESER stays in the range of a reader that lies in BUF. -/
theorem State.ReaderFits.deserialize (hfits : s.ReaderFits) : StaysInBuf (deserialize s) := by
  unfold Machine.deserialize
  refine (StaysInBuf.of_stops State.get_stops hfits).bind fun ⟨k, u⟩ hu => ?_
  have hfits' : u.ReaderFits := (Consumes.of_get (d := 0) (n := 0) hu).readerFits hfits
  dsimp only
  split_ifs
  · exact staysInBuf_raise _
  · refine (StaysInBuf.of_stops readPairs_stops hfits').bind fun ⟨c, t⟩ _ => ?_
    dsimp only
    split_ifs
    · exact staysInBuf_raise _
    · exact staysInBuf_ok _

end

/-! ## Every command ends (R313, R362) -/

section
variable {s : State} {checks : List (Bool × CmdError)} {range : Option (Nat × Nat)}
  {body : State → Except Halt Done}

theorem runCommand_ends (h : firstError checks = none → StaysInBuf (body s)) :
    ∃ t, runCommand checks range body s = .next t := by
  cases hrun : runCommand checks range body s with
  | next t => exact ⟨t, rfl⟩
  | fault r =>
    obtain ⟨hchecks, a, ha, -⟩ := runCommand_fault hrun
    exact absurd ha (h hchecks a)
  | refused r => exact absurd hrun runCommand_not_refused

/-- A command whose work cannot stop. -/
theorem runCommand_total_ends {d : Done} (h : body s = .ok d) :
    ∃ t, runCommand checks range body s = .next t :=
  runCommand_ends fun _ => h ▸ staysInBuf_ok d

/-- A command that appends to the open writer. -/
theorem runCommand_writer_ends (hs : s.StreamsInBuf) (hw : checkWriter s ∈ checks)
    (h : s.WriterFits → StaysInBuf (body s)) : ∃ t, runCommand checks range body s = .next t := by
  obtain ⟨hwr, -⟩ := hs
  exact runCommand_ends fun hchecks => h (hwr (firstError_eq_none.1 hchecks _ hw))

/-- A command that reads the open stream. -/
theorem runCommand_reader_ends (hs : s.StreamsInBuf) (hr : checkReader s ∈ checks)
    (h : s.ReaderFits → StaysInBuf (body s)) : ∃ t, runCommand checks range body s = .next t := by
  obtain ⟨-, hrd⟩ := hs
  exact runCommand_ends fun hchecks => h (hrd (firstError_eq_none.1 hchecks _ hr))

/-- R362: no command stops the machine while the open streams lie in BUF. -/
theorem exec_ends (i : Instr) (hs : s.StreamsInBuf) : ∃ t, exec i s = .next t := by
  cases i with
  | bswPut =>
    rw [exec]
    exact runCommand_writer_ends hs (List.mem_cons_of_mem _ List.mem_cons_self) fun hfits =>
      (hfits.appendBits _).then_ok
  | bswFlush | hufSerial | lz77Enc | lz78Enc =>
    rw [exec]
    exact runCommand_writer_ends hs List.mem_cons_self fun hfits => (hfits.appendBits _).then_ok
  | hufEnc =>
    rw [exec]
    exact runCommand_writer_ends hs List.mem_cons_self fun hfits =>
      (hfits.hufEncode _ _ _).then_ok
  | bsrGet =>
    rw [exec]
    exact runCommand_reader_ends hs (List.mem_cons_of_mem _ List.mem_cons_self) fun hfits =>
      (StaysInBuf.of_stops State.get_stops hfits).then_ok
  | hufDeser =>
    rw [exec]
    exact runCommand_reader_ends hs List.mem_cons_self State.ReaderFits.deserialize
  | hufDec =>
    rw [exec]
    exact runCommand_reader_ends hs List.mem_cons_self fun hfits =>
      (StaysInBuf.of_stops (hufDecode_stops le_rfl le_rfl) hfits).then_ok
  | lz77Dec =>
    rw [exec]
    exact runCommand_reader_ends hs List.mem_cons_self fun hfits =>
      (StaysInBuf.of_stops (lz77Decode_stops (Nat.zero_le _)) hfits).then_ok
  | lz78Dec =>
    rw [exec]
    exact runCommand_reader_ends hs List.mem_cons_self fun hfits =>
      (StaysInBuf.of_stops (lz78Decode_stops (Nat.zero_le _)) hfits).then_ok
  | _ =>
    rw [exec]
    exact runCommand_total_ends rfl

end

/-! ## How a command ends (R312 to R318, R320) -/

section
variable {i : Instr} {s t : State}

/-- R313: a command ends idle, with DONE alone or with ERR and the code of an error. -/
theorem CommandEnd.oneFlag (h : CommandEnd i s t) : t.pending = none ∧
    (t.done = true ∧ t.err = false ∧ t.errCode = 0#8 ∨
      t.done = false ∧ t.err = true ∧ t.errCode ≠ 0#8) := by
  cases h with
  | ok d => exact ⟨rfl, .inl ⟨rfl, rfl, rfl⟩⟩
  | pre e => exact ⟨rfl, .inr ⟨rfl, rfl, e.code_ne_zero⟩⟩
  | run e => exact ⟨rfl, .inr ⟨rfl, rfl, e.code_ne_zero⟩⟩

/-- R53, R320: with DONE or ERR set, IRQ is IEN. -/
theorem irq_eq_ien (h : t.done = true ∨ t.err = true) : t.irq = t.ien := by
  rcases h with h | h <;> simp [State.irq, h]

theorem writerHasRoom_zero_of_writerOk (hs : s.WriterOk) (hopen : s.wr.isOpen = true) :
    WriterHasRoom s 0 := by
  obtain ⟨hbuf, hfit, hacc⟩ := hs hopen
  exact ⟨hopen, hbuf, hacc, hfit⟩

/-- R146: a flush of a writer within its capacity has no run-time error, as its pad only completes
a byte that the capacity holds. -/
theorem execBswFlush_not_overflow (hs : s.WriterOk) (h : execBswFlush s = .next t) :
    t.errCode ≠ CmdError.outputOverflow.code := by
  by_cases hopen : s.wr.isOpen = true
  · obtain ⟨u, -, hend⟩ := execBswFlush_pads (writerHasRoom_zero_of_writerOk hs hopen)
    cases hend.symm.trans h
    exact CmdError.outputOverflow.code_ne_zero.symm
  · cases (execBswFlush_notOpen (Bool.eq_false_iff.2 hopen)).symm.trans h
    change 0x13#8 ≠ 0x12#8
    decide

/-- R312: from a writer that a run can reach, every run-time error is one of the table. -/
theorem RunError.tabled {e : CmdError} (he : RunError i e) (hs : s.WriterOk)
    (h : exec i s = .next t) (hcode : t.errCode = e.code) : e.code ∈ runCodes i := by
  rcases he with he | ⟨rfl, rfl⟩
  · exact he
  · exact absurd hcode (execBswFlush_not_overflow hs h)

end

/-! ## The order of the pre-checks (R316) -/

section
variable {i : Instr} {s : State} {e : CmdError}

/-- A failed check of the first ones is reported, whatever checks follow. -/
theorem runCommand_pre_append {checks rest : List (Bool × CmdError)} {range : Option (Nat × Nat)}
    {body : State → Except Halt Done} (h : firstError checks = some e) :
    runCommand (checks ++ rest) range body s = .next (failWith s e.code) :=
  runCommand_pre (by rw [firstError_append, h, Option.some_or])

/-- R82: a check that two ranges do not overlap fails where they do. -/
theorem not_overlap_fails {a n b m : Nat} (h : Overlapping a n b m) : ¬(!overlap a n b m) = true :=
  fun hpass => not_overlap_iff.1 hpass h

/-! ### The encoders (R176, R213, R217) -/

section
variable (hi : i ∈ [.hufEnc, .lz77Enc, .lz78Enc])
include hi

theorem exec_encoder_pre (h : firstError (encoderChecks s) = some e) :
    exec i s = .next (failWith s e.code) := by
  fin_cases hi <;> rw [exec] <;> exact runCommand_pre h

theorem exec_encoder_notOpen (hclosed : s.wr.isOpen = false) :
    exec i s = .next (failWith s 0x13#8) :=
  exec_encoder_pre (e := .streamNotOpen) hi (firstError_of_fail (Bool.eq_false_iff.1 hclosed))

theorem exec_encoder_badSource (hopen : s.wr.isOpen = true) (hsrc : ¬SourceInBuf s) :
    exec i s = .next (failWith s 0x11#8) :=
  exec_encoder_pre (e := .badAddress) hi
    (firstError_of_pass hopen (firstError_of_fail (mt (checkSrc_iff s).1 hsrc)))

theorem exec_encoder_overlap (hopen : s.wr.isOpen = true) (hsrc : SourceInBuf s)
    (hlap : Overlapping s.srcAddr.toNat s.srcLen.toNat s.wr.base s.wr.cap) :
    exec i s = .next (failWith s 0x11#8) :=
  exec_encoder_pre (e := .badAddress) hi
    (firstError_of_pass hopen (firstError_of_pass ((checkSrc_iff s).2 hsrc)
      (firstError_of_fail (not_overlap_fails hlap))))

end

/-! ### The decoders (R89) -/

section
variable (hi : i ∈ [.hufDec, .lz77Dec, .lz78Dec])
include hi

theorem exec_decoder_pre (h : firstError (decoderChecks s) = some e) :
    exec i s = .next (failWith s e.code) := by
  fin_cases hi <;> rw [exec]
  · exact runCommand_pre_append h
  · exact runCommand_pre h
  · exact runCommand_pre h

theorem exec_decoder_notOpen (hclosed : s.rd.isOpen = false) :
    exec i s = .next (failWith s 0x13#8) :=
  exec_decoder_pre (e := .streamNotOpen) hi (firstError_of_fail (Bool.eq_false_iff.1 hclosed))

theorem exec_decoder_badDest (hopen : s.rd.isOpen = true) (hdst : ¬DestInBuf s) :
    exec i s = .next (failWith s 0x11#8) :=
  exec_decoder_pre (e := .badAddress) hi
    (firstError_of_pass hopen (firstError_of_fail (mt (checkDst_iff s).1 hdst)))

theorem exec_decoder_overlap (hopen : s.rd.isOpen = true) (hdst : DestInBuf s)
    (hlap : Overlapping s.dstAddr.toNat s.dstCap.toNat s.rd.base s.rd.len) :
    exec i s = .next (failWith s 0x11#8) :=
  exec_decoder_pre (e := .badAddress) hi
    (firstError_of_pass hopen (firstError_of_pass ((checkDst_iff s).2 hdst)
      (firstError_of_fail (not_overlap_fails hlap))))

theorem exec_decoder_overflow (hopen : s.rd.isOpen = true) (hdst : DestInBuf s)
    (hapart : ¬Overlapping s.dstAddr.toNat s.dstCap.toNat s.rd.base s.rd.len)
    (hcap : s.dstCap.toNat < s.cnt.toNat) : exec i s = .next (failWith s 0x12#8) :=
  exec_decoder_pre (e := .outputOverflow) hi
    (firstError_of_pass hopen (firstError_of_pass ((checkDst_iff s).2 hdst)
      (firstError_of_pass (not_overlap_iff.2 hapart)
        (firstError_of_fail (mt (checkCnt_fst s).1 hcap.not_ge)))))

end

/-! ### The DCT data commands (R258) -/

section
variable (hi : i ∈ [.dctFwd, .quant, .dequant, .dctInv, .dctEnc, .dctDec])
include hi

theorem exec_dct_pre (h : firstError (dctIoChecks s) = some e) :
    exec i s = .next (failWith s e.code) := by
  fin_cases hi <;> rw [exec] <;> exact runCommand_pre_append h

theorem exec_dct_lossless (hmode : s.mode = false) : exec i s = .next (failWith s 0x03#8) :=
  exec_dct_pre (e := .unsupportedModeForCodec) hi
    (firstError_of_fail (Bool.eq_false_iff.1 hmode))

theorem exec_dct_badSource (hmode : s.mode = true) (hsrc : ¬SourceInBuf s) :
    exec i s = .next (failWith s 0x11#8) :=
  exec_dct_pre (e := .badAddress) hi
    (firstError_of_pass hmode (firstError_of_fail (mt (checkSrc_iff s).1 hsrc)))

theorem exec_dct_badDest (hmode : s.mode = true) (hsrc : SourceInBuf s) (hdst : ¬DestInBuf s) :
    exec i s = .next (failWith s 0x11#8) :=
  exec_dct_pre (e := .badAddress) hi
    (firstError_of_pass hmode (firstError_of_pass ((checkSrc_iff s).2 hsrc)
      (firstError_of_fail (mt (checkDst_iff s).1 hdst))))

theorem exec_dct_overlap (hmode : s.mode = true) (hsrc : SourceInBuf s) (hdst : DestInBuf s)
    (hlap : Overlapping s.srcAddr.toNat s.srcLen.toNat s.dstAddr.toNat s.dstCap.toNat) :
    exec i s = .next (failWith s 0x11#8) :=
  exec_dct_pre (e := .badAddress) hi
    (firstError_of_pass hmode (firstError_of_pass ((checkSrc_iff s).2 hsrc)
      (firstError_of_pass ((checkDst_iff s).2 hdst)
        (firstError_of_fail (not_overlap_fails hlap)))))

end

end

end Sys2Proof.Machine

namespace Sys2Proof.Proofs

open Sys2Proof.Machine Sys2Proof.Claims

/-- Settles O16: no stream access leaves BUF, so the command reaches one of its three ends, each of
which sets one flag and keeps the operands. -/
theorem everyCommandEnds : Obligations.EveryCommandEnds := by
  intro i s hs
  obtain ⟨t, h⟩ := exec_ends i hs
  obtain ⟨hidle, hflag⟩ := (exec_end h).oneFlag
  obtain ⟨⟨-, hien, hwbusy, hop, -⟩, -⟩ := commandsWriteOnlyTheirState i s t h
  refine ⟨t, h, hidle, hflag, hop, hwbusy, hien, ?_⟩
  rw [← hien]
  exact irq_eq_ien (hflag.imp And.left fun ⟨_, herr, _⟩ => herr)

/-- Settles O17: the three ends of a command are the three cases; only a flush of a writer past its
capacity, which `WriterOk` excludes, could end outside the table. -/
theorem errorsAreAsTabled : Obligations.ErrorsAreAsTabled := by
  intro i s t hs h
  cases exec_end h with
  | ok d => exact .inl ⟨rfl, rfl, rfl, rfl⟩
  | pre e he => exact .inr (.inl ⟨he, rfl⟩)
  | run e he =>
    have hcode := he.tabled hs h rfl
    exact .inr (.inr ⟨hcode, runErrorEnds_endRunError (List.ne_nil_of_mem hcode) e⟩)

/-- Settles O19: each clause passes the checks before the one it names. -/
theorem preChecksInOrder : Obligations.PreChecksInOrder :=
  ⟨fun _ _ hi => ⟨exec_encoder_notOpen hi, exec_encoder_badSource hi, exec_encoder_overlap hi⟩,
    fun _ _ hi => ⟨exec_decoder_notOpen hi, exec_decoder_badDest hi, exec_decoder_overlap hi,
      exec_decoder_overflow hi⟩,
    fun _ _ hi => ⟨exec_dct_lossless hi, exec_dct_badSource hi, exec_dct_badDest hi,
      exec_dct_overlap hi⟩⟩

end Sys2Proof.Proofs
end

section
/-! The host while a command runs (70_reset_and_hazards.md R360, R361): which accesses reach ID,
CTRL and STATUS, and what reads and writes do while BUSY = 1; the soft reset (R352) and the bytes
it frees. -/

namespace Sys2Proof.Machine

open Sys2Proof.Claims

section
variable {s : State} {width : Nat} {addr : Offset} {v : Word64}

/-! ## Accesses to a register by name (R32, R83) -/

/-- R32: an access reaches a register that is not reserved only at the register's offset. -/
theorem addr_of_busTarget_reg {r : Reg} (h : busTarget s width addr = some (.reg r))
    (hr : r ≠ .reserved) : addr = BitVec.ofNat 32 r.offset := by
  unfold busTarget at h
  dsimp only at h
  split_ifs at h with hlt hw hin
  · obtain ⟨-, h8⟩ := hw
    obtain rfl : regAt addr.toNat = r := by simpa using h
    rw [offset_regAt h8 hr, BitVec.ofNat_toNat, BitVec.setWidth_eq]
  · simp at h

/-! ## Reads and writes while BUSY = 1 (R360, R361) -/

/-- R360: a read changes what the host's last read returned and the draws, and nothing else. -/
theorem hostRead_frame (tgt : BusTarget) (width : Nat) (s : State) :
    ∃ v n, hostRead tgt width s = { s with busData := v, draws := n } := by
  unfold hostRead
  cases tgt with
  | reg r => dsimp only; split_ifs <;> exact ⟨_, _, rfl⟩
  | buf a => dsimp only; split_ifs <;> exact ⟨_, _, rfl⟩

/-- R360: ID and STATUS read exactly at any time. -/
theorem hostRead_exact {r : Reg} (hr : r = .id ∨ r = .status) :
    hostRead (.reg r) width s = { s with busData := readReg r s } := by
  rcases hr with rfl | rfl <;> simp [hostRead]

/-- R361: a write other than to CTRL. -/
theorem hostWrite_busy {tgt : BusTarget} (hp : s.pending ≠ none) (htgt : tgt ≠ .reg .ctrl) :
    hostWrite tgt width v s = { s with wbusy := true } := by
  simp [hostWrite, Option.isSome_iff_ne_none.2 hp, htgt]

/-- R34, R352: a CTRL write is accepted whether or not the engine is busy. -/
theorem hostWrite_ctrl : hostWrite (.reg .ctrl) width v s = writeCtrl v s := by
  simp [hostWrite, writeReg]

theorem writeCtrl_keepsRunning (hv : v.getLsbD 1 = false) :
    writeCtrl v s = { s with ien := v.getLsbD 0 } :=
  if_neg (Bool.eq_false_iff.1 hv)

theorem writeCtrl_resets (hv : v.getLsbD 1 = true) : writeCtrl v s = softReset s := if_pos hv

theorem step_ctrlWrite {rest : List HostEvent} (h : HostActsNext s (.write 8 0x008#32 v) rest) :
    step s = .next (writeCtrl v { s with script := rest }) := by
  rw [step_regWrite (by decide) (by decide) h]
  exact congrArg _ hostWrite_ctrl

/-- R83, R86: a read that is no bus error reads its target. -/
theorem step_read {rest : List HostEvent} (h : HostActsNext s (.read width addr) rest)
    (hv : ValidAccess s width addr) : ∃ tgt, busTarget s width addr = some tgt ∧
      step s = .next (hostRead tgt width { s with script := rest }) := by
  obtain ⟨tgt, htgt⟩ := exists_busTarget hv
  have htgt' : busTarget { s with script := rest } width addr = some tgt := htgt
  exact ⟨tgt, htgt, by simp [step_host h, hostAct, htgt']⟩

/-- R83, R86: a write that is no bus error writes its target. -/
theorem step_write {rest : List HostEvent} (h : HostActsNext s (.write width addr v) rest)
    (hv : ValidAccess s width addr) : ∃ tgt, busTarget s width addr = some tgt ∧
      step s = .next (hostWrite tgt width v { s with script := rest }) := by
  obtain ⟨tgt, htgt⟩ := exists_busTarget hv
  have htgt' : busTarget { s with script := rest } width addr = some tgt := htgt
  exact ⟨tgt, htgt, by simp [step_host h, hostAct, htgt']⟩

/-- R360: a register that reads exactly while BUSY = 1. -/
theorem step_readExact {r : Reg} {rest : List HostEvent} (hr : r = .id ∨ r = .status)
    (h : HostActsNext s (.read width (BitVec.ofNat 32 r.offset)) rest)
    (hv : ValidAccess s width (BitVec.ofNat 32 r.offset)) :
    step s = .next { s with script := rest, busData := readReg r s } := by
  obtain ⟨tgt, htgt, hstep⟩ := step_read h hv
  obtain rfl : tgt = .reg r := by
    rcases hv with ⟨hlow, rfl, h8⟩ | ⟨hhigh, -⟩
    · rw [busTarget_reg hlow h8] at htgt
      rcases hr with rfl | rfl <;> exact (Option.some.inj htgt).symm
    · rcases hr with rfl | rfl <;> exact absurd hhigh (by decide)
  rw [hstep, hostRead_exact hr, readReg_script]

/-! ## The soft reset (R352) -/

/-- R352 item 4: the output ranges that R352 names. -/
theorem outputRange_eq_some {i : Instr} {r : Nat × Nat} (h : outputRange i s = some r) :
    (i ∈ [.hufDec, .lz77Dec, .lz78Dec, .dctFwd, .quant, .dequant, .dctInv, .dctEnc, .dctDec] ∧
        r = (s.dstAddr.toNat, s.dstCap.toNat)) ∨
      (((∃ n, i = .bswPut n) ∨ i ∈ [.bswFlush, .hufSerial, .hufEnc, .lz77Enc, .lz78Enc]) ∧
        s.wr.isOpen = true ∧ r = (s.wr.base, s.wr.cap)) := by
  cases i with
  | hufDec | lz77Dec | lz78Dec | dctFwd | quant | dequant | dctInv | dctEnc | dctDec =>
    exact .inl ⟨by decide, (Option.some.inj h).symm⟩
  | bswPut n =>
    obtain ⟨hopen, hr⟩ := Option.ite_none_right_eq_some.1 h
    exact .inr ⟨.inl ⟨n, rfl⟩, hopen, (Option.some.inj hr).symm⟩
  | bswFlush | hufSerial | hufEnc | lz77Enc | lz78Enc =>
    obtain ⟨hopen, hr⟩ := Option.ite_none_right_eq_some.1 h
    exact .inr ⟨.inr (by decide), hopen, (Option.some.inj hr).symm⟩
  | _ => cases h

theorem abortedRange_eq_some {r : Nat × Nat} (h : s.abortedRange = some r) :
    ∃ c i, s.pending = some c ∧ decode c = .ok i ∧ outputRange i s = some r := by
  unfold State.abortedRange at h
  split at h
  next => cases h
  next c hp =>
    split at h
    next => cases h
    next i hi => exact ⟨c, i, hp, hi, h⟩

/-- R352: every address of the range that a soft reset frees is an output byte of the aborted
command. -/
theorem abortedByte_of_abortedRange {r : Nat × Nat} {a : Nat} (h : s.abortedRange = some r)
    (ha : r.1 ≤ a ∧ a < r.1 + r.2) : AbortedByte s a := by
  obtain ⟨c, i, hp, hi, hr⟩ := abortedRange_eq_some h
  refine ⟨c, i, hp, hi, ?_⟩
  rcases outputRange_eq_some hr with ⟨hmem, rfl⟩ | ⟨hmem, hopen, rfl⟩
  · exact .inl ⟨hmem, ha⟩
  · exact .inr ⟨hmem, hopen, ha⟩

theorem softReset_byteAt {a : Nat} (ha : ¬AbortedByte s a) :
    (softReset s).byteAt a = s.byteAt a := by
  simp only [State.byteAt, softReset_buf, softReset_power]
  split
  next => rfl
  next r hr => rw [s.find_spoil_of_not_mem (mt (abortedByte_of_abortedRange hr) ha)]

end

end Sys2Proof.Machine

namespace Sys2Proof.Proofs

open Sys2Proof.Machine Sys2Proof.Claims

/-- Settles O7: the access reaches CTRL at CTRL's offset only, and every other target drops it. -/
theorem busyWritesAreDropped : Obligations.BusyWritesAreDropped := by
  refine ⟨fun s width addr v rest hp h hv hne => ?_, fun s v rest _ h hsrst => ?_⟩
  · obtain ⟨tgt, htgt, hstep⟩ := step_write h hv
    have hctrl : tgt ≠ .reg .ctrl := by
      rintro rfl
      exact hne (addr_of_busTarget_reg htgt (by decide))
    exact hstep.trans (congrArg _ (hostWrite_busy (s := { s with script := rest }) hp hctrl))
  · rw [step_ctrlWrite h, writeCtrl_keepsRunning hsrst]

/-- Settles O8: ID and STATUS read exactly, and no read changes more than the model's own fields. -/
theorem busyReadsChangeNothing : Obligations.BusyReadsChangeNothing := by
  refine fun s width addr rest _ h hv => ⟨?id, ?status, fun _ _ => ?other⟩
  case id =>
    rintro rfl
    exact step_readExact (r := .id) (.inl rfl) h hv
  case status =>
    rintro rfl
    exact step_readExact (r := .status) (.inr rfl) h hv
  case other =>
    obtain ⟨tgt, -, hstep⟩ := step_read h hv
    obtain ⟨v, n, hread⟩ := hostRead_frame tgt width { s with script := rest }
    exact ⟨v, n, hstep.trans (congrArg _ hread)⟩

/-- Settles O13: the write is the soft reset, which frees the aborted command's output range. -/
theorem softResetRestoresState : Obligations.SoftResetRestoresState := by
  intro s v rest h hsrst
  refine ⟨softReset { s with script := rest }, ?_, rfl, rfl, fun a ha => ?_⟩
  · rw [step_ctrlWrite h, writeCtrl_resets hsrst]
  · exact softReset_byteAt (s := { s with script := rest }) ha

end Sys2Proof.Proofs
end

section
/-! CFG.MODE and the commands outside the DCT family (70_reset_and_hazards.md R365, 44_dct.md R258):
every step of their work, and so every end, commutes with setting MODE. -/

namespace Sys2Proof.Machine

open Sys2Proof.Claims

/-- `s` with CFG.MODE set to `m`. -/
def State.withMode (m : Bool) (s : State) : State := { s with mode := m }

/-- The same for the state that work answers beside a value. -/
def withModeSnd {α : Type} (m : Bool) (p : α × State) : α × State := (p.1, p.2.withMode m)

/-- The same for the state at a command's end. -/
def Done.withMode (m : Bool) (d : Done) : Done := { d with state := d.state.withMode m }

section
variable {α β : Type} {m : Bool} {s : State}

@[simp] theorem State.withMode_clen : (s.withMode m).clen = s.clen := rfl

/-! ## Sequencing and branching

Work that answers with `p` applied, step by step and branch by branch, does so as a whole. -/

theorem bind_map_comm {x y : Except Halt α} {f g : α → Except Halt β} {p : α → α} {q : β → β}
    (hx : x = y.map p) (hf : ∀ v, f (p v) = (g v).map q) : (x >>= f) = (y >>= g).map q := by
  subst hx
  cases y with
  | error h => rfl
  | ok v => exact hf v

theorem ite_map_comm {c : Prop} [Decidable c] {x x' y y' : Except Halt α} {p : α → α}
    (hx : x = x'.map p) (hy : y = y'.map p) :
    (if c then x else y) = (if c then x' else y').map p := by
  split_ifs
  · exact hx
  · exact hy

theorem ok_withMode {t t' : State} {o0 o1 o2 : Nat} (ht : t = t'.withMode m) :
    (.ok ⟨t, o0, o1, o2⟩ : Except Halt Done) =
      (Except.ok ⟨t', o0, o1, o2⟩ : Except Halt Done).map (Done.withMode m) := by
  subst ht
  rfl

/-! ## The bit writer (R141) -/

theorem State.appendBit_withMode (b : Bool) :
    (s.withMode m).appendBit b = (s.appendBit b).map (State.withMode m) := by
  unfold State.appendBit
  exact ite_map_comm rfl (ite_map_comm (ite_map_comm rfl rfl) rfl)

theorem State.appendBits_withMode (bits : List Bool) :
    (s.withMode m).appendBits bits = (s.appendBits bits).map (State.withMode m) := by
  induction bits generalizing s with
  | nil => rfl
  | cons b bs ih =>
    rw [State.appendBits, State.appendBits, State.appendBit_withMode]
    cases s.appendBit b with
    | error h => rfl
    | ok t => exact ih

theorem hufEncode_withMode (c : Vector Byte 256) (l : List Byte) (bits : Nat) :
    hufEncode c l bits (s.withMode m) = (hufEncode c l bits s).map (withModeSnd m) := by
  induction l generalizing bits s with
  | nil => rfl
  | cons b bs ih =>
    rw [hufEncode, hufEncode]
    exact ite_map_comm rfl (bind_map_comm (State.appendBits_withMode _) fun _ => ih _)

/-! ## The bit reader (R143) -/

theorem State.get_withMode (n : Nat) (e : CmdError) :
    (s.withMode m).get n e = (s.get n e).map (withModeSnd m) := by
  unfold State.get
  exact ite_map_comm rfl (ite_map_comm rfl rfl)

theorem readPairs_withMode (k low : Nat) (c : Vector Byte 256) :
    readPairs k low c (s.withMode m) = (readPairs k low c s).map (withModeSnd m) := by
  induction k generalizing low c s with
  | zero => rfl
  | succ k ih =>
    rw [readPairs, readPairs]
    refine bind_map_comm (State.get_withMode _ _) fun ⟨b, t⟩ => ?_
    refine bind_map_comm (State.get_withMode _ _) fun ⟨l, u⟩ => ?_
    exact ite_map_comm rfl (ite_map_comm rfl (ih _ _))

theorem deserialize_withMode :
    deserialize (s.withMode m) = (deserialize s).map (Done.withMode m) := by
  unfold deserialize
  refine bind_map_comm (State.get_withMode _ _) fun ⟨k, t⟩ => ?_
  refine ite_map_comm rfl (bind_map_comm (readPairs_withMode _ _ _) fun ⟨c, u⟩ => ?_)
  exact ite_map_comm rfl (ok_withMode rfl)

theorem decodeSym_withMode (c : Vector Byte 256) (left code l : Nat) :
    decodeSym c left code l (s.withMode m) = (decodeSym c left code l s).map (withModeSnd m) := by
  induction left generalizing code l s with
  | zero => rfl
  | succ left ih =>
    rw [decodeSym, decodeSym]
    refine bind_map_comm (State.get_withMode _ _) fun ⟨bit, t⟩ => ?_
    exact ite_map_comm rfl (ih _ _)

theorem hufDecode_withMode (c : Vector Byte 256) (n a : Nat) :
    hufDecode c n a (s.withMode m) = (hufDecode c n a s).map (State.withMode m) := by
  induction n generalizing a s with
  | zero => rfl
  | succ n ih =>
    rw [hufDecode, hufDecode]
    exact bind_map_comm (decodeSym_withMode _ _ _ _) fun ⟨b, t⟩ => ih (s := t.storeBytes a [b]) _

theorem copyBack_withMode (off len a : Nat) :
    copyBack off len a (s.withMode m) = (copyBack off len a s).withMode m := by
  induction len generalizing a s with
  | zero => rfl
  | succ len ih => exact ih (s := s.storeBytes a [s.byteAt (a - off)]) _

theorem lz77Decode_withMode (d n fuel out tokens : Nat) :
    lz77Decode d n fuel out tokens (s.withMode m) =
      (lz77Decode d n fuel out tokens s).map (withModeSnd m) := by
  induction fuel generalizing out tokens s with
  | zero => rfl
  | succ fuel ih =>
    rw [lz77Decode, lz77Decode]
    refine ite_map_comm (bind_map_comm (State.get_withMode _ _) fun ⟨flag, t⟩ => ?_) rfl
    refine ite_map_comm ?literal ?copy
    case literal =>
      exact bind_map_comm (State.get_withMode _ _) fun ⟨b, u⟩ =>
        ih (s := u.storeBytes (d + out) [BitVec.ofNat 8 b]) _ _
    case copy =>
      refine bind_map_comm (State.get_withMode _ _) fun ⟨o, u⟩ => ?_
      refine bind_map_comm (State.get_withMode _ _) fun ⟨l, w⟩ => ?_
      refine ite_map_comm rfl (ite_map_comm rfl ?_)
      exact (congrArg _ (copyBack_withMode _ _ _)).trans (ih _ _)

theorem lz78Decode_withMode (d n fuel out tokens : Nat) (dict : Dict) :
    lz78Decode d n fuel out tokens dict (s.withMode m) =
      (lz78Decode d n fuel out tokens dict s).map (Prod.map id (withModeSnd m)) := by
  induction fuel generalizing out tokens dict s with
  | zero => rfl
  | succ fuel ih =>
    rw [lz78Decode, lz78Decode]
    refine ite_map_comm (bind_map_comm (State.get_withMode _ _) fun ⟨idx, t⟩ => ?_) rfl
    refine bind_map_comm (State.get_withMode _ _) fun ⟨b, u⟩ => ?_
    refine ite_map_comm rfl (ite_map_comm rfl ?_)
    exact ih (s := u.storeBytes (d + out) (dict.string idx ++ [BitVec.ofNat 8 b])) _ _ _

/-! ## Commands (R13, R365) -/

/-- R365: a command whose work commutes with setting MODE ends alike. -/
theorem runCommand_withMode {checks : List (Bool × CmdError)} {range : Option (Nat × Nat)}
    {body : State → Except Halt Done}
    (h : body (s.withMode m) = (body s).map (Done.withMode m)) :
    runCommand checks range body (s.withMode m) =
      mapNext (State.withMode m) (runCommand checks range body s) := by
  unfold runCommand
  rw [h]
  cases firstError checks with
  | some e => rfl
  | none =>
    cases body s with
    | ok d => rfl
    | error x => cases x <;> rfl

/-- R258, R365: no command outside the DCT family looks at MODE. -/
theorem exec_withMode {i : Instr} (hi : i ∉ dctFamily) :
    exec i (s.withMode m) = mapNext (State.withMode m) (exec i s) := by
  cases i with
  | qtGen | dctFwd | quant | dequant | dctInv | dctEnc | dctDec => exact absurd (by decide) hi
  | bswPut | bswFlush | hufSerial | lz77Enc | lz78Enc =>
    rw [exec, exec]
    exact runCommand_withMode (bind_map_comm (State.appendBits_withMode _) fun _ => rfl)
  | hufEnc =>
    rw [exec, exec]
    exact runCommand_withMode (bind_map_comm (hufEncode_withMode _ _ _) fun _ => rfl)
  | bsrGet =>
    rw [exec, exec]
    exact runCommand_withMode (bind_map_comm (State.get_withMode _ _) fun _ => rfl)
  | hufDeser =>
    rw [exec, exec]
    exact runCommand_withMode deserialize_withMode
  | hufDec =>
    rw [exec, exec]
    exact runCommand_withMode (bind_map_comm (hufDecode_withMode _ _ _) fun _ => rfl)
  | lz77Dec =>
    rw [exec, exec]
    exact runCommand_withMode (bind_map_comm (lz77Decode_withMode _ _ _ _ _) fun _ => rfl)
  | lz78Dec =>
    rw [exec, exec]
    exact runCommand_withMode (bind_map_comm (lz78Decode_withMode _ _ _ _ _ _) fun _ => rfl)
  | hufCode b =>
    rw [exec, exec]
    refine runCommand_withMode ?_
    rw [State.withMode_clen]
    split_ifs
    · exact ok_withMode rfl
    · exact ok_withMode rfl
  | hufBuild =>
    rw [exec, exec]
    exact runCommand_withMode (ok_withMode rfl)
  | _ =>
    rw [exec, exec]
    exact runCommand_withMode rfl

end

end Sys2Proof.Machine

namespace Sys2Proof.Proofs

open Sys2Proof.Machine Sys2Proof.Claims

/-- Settles O20: the pre-checks, the work and the ends of such a command leave MODE aside. -/
theorem modeMattersOnlyToDct : Obligations.ModeMattersOnlyToDct := fun _ _ _ hi => exec_withMode hi

end Sys2Proof.Proofs
end

section
/-! How the engine becomes idle (70_reset_and_hazards.md R362, 20_memory.md R90): what one step does
while a command is pending, a bound on the steps to its end, and the run of a script's command with
its WAIT (30_encoding.md R117). -/

namespace Sys2Proof.Machine

open Sys2Proof.Claims

/-! ## Runs -/

theorem run_succ {s t : State} (h : step s = .next t) (k : Nat) :
    Host.Core.run core (k + 1) s = Host.Core.run core k t := by
  have hcore : core.step s = .next t := h
  simp only [Host.Core.run, hcore]

/-! ## The engine's step (R49, R90) -/

section
variable {s t : State} {i : Instr}

theorem exec_idle (hs : s.StreamsInBuf) (i : Instr) :
    ∃ t, exec i s = .next t ∧ t.pending = none := by
  obtain ⟨t, h⟩ := exec_ends i hs
  obtain ⟨hidle, -⟩ := (exec_end h).oneFlag
  exact ⟨t, h, hidle⟩

/-- R362: the engine's step ends the pending word, legal or not. -/
theorem step_engine_idle (hs : s.StreamsInBuf) (hp : s.pending ≠ none)
    (hw : s.hostWaits = true) : ∃ t, step s = .next t ∧ t.pending = none := by
  obtain ⟨c, hc⟩ := Option.ne_none_iff_exists'.1 hp
  by_cases hd : ∃ i, decode c = .ok i
  · obtain ⟨i, hi⟩ := hd
    rw [step_engine hc hw hi]
    exact exec_idle hs i
  · exact ⟨_, step_illegal hc hw hd, rfl⟩

/-- R313: a command leaves the host's script alone. -/
theorem exec_script (h : exec i s = .next t) : t.script = s.script := by
  obtain ⟨⟨-, -, -, -, -, -, -, -, -, -, -, hscript, -⟩, -⟩ :=
    Proofs.commandsWriteOnlyTheirState i s t h
  exact hscript

end

/-! ## The host's step while a command is pending (R360, R361, R117) -/

/-- `t` is `s` with `script` to come, as far as the way to the end of the pending command goes. -/
structure StillRuns (s t : State) (script : List HostEvent) : Prop where
  aw : t.aw = s.aw
  wr : t.wr = s.wr
  rd : t.rd = s.rd
  script : t.script = script

/-- What a host action leaves in the script while a command runs: a WAIT that reads BUSY = 1 polls
again (R117). -/
def remainingScript (act : HostAction) (rest : List HostEvent) : List HostEvent :=
  match act with
  | .wait polls => waitEvent (polls - 1) :: rest
  | .read _ _ | .write _ _ _ | .sampleIrq | .powerOn => rest

theorem statusWord_busyBit (s : State) : s.statusWord.getLsbD 0 = s.pending.isSome := by
  refine (BitVec.getLsbD_append (y := BitVec.ofBool s.busy)).trans ?_
  simp

theorem hostAct_wait_busy {s : State} (polls : Nat) (hp : s.pending ≠ none) :
    hostAct (.wait polls) s = .next { s with
      busData := s.statusWord, script := waitEvent (polls - 1) :: s.script } := by
  simp only [hostAct, statusWord_busyBit, Option.isSome_iff_ne_none.2 hp, if_true]

theorem hostAct_wait_idle {s : State} (polls : Nat) (hp : s.pending = none) :
    hostAct (.wait polls) s = .next { s with busData := s.statusWord } := by
  simp only [hostAct, statusWord_busyBit, hp, Option.isSome_none, Bool.false_eq_true, if_false]

/-- R360, R361, R352: a host action that is no bus error aborts the pending command by a reset, or
leaves it running. -/
theorem step_host_busy {s : State} {act : HostAction} {rest : List HostEvent}
    (hp : s.pending ≠ none) (h : HostActsNext s act rest) (hv : ValidAction s act) :
    ∃ t, step s = .next t ∧ (t.pending = none ∨ StillRuns s t (remainingScript act rest)) := by
  cases act with
  | read width addr =>
    obtain ⟨tgt, -, hstep⟩ := step_read h hv
    obtain ⟨v, n, hread⟩ := hostRead_frame tgt width { s with script := rest }
    exact ⟨_, hstep.trans (congrArg _ hread), .inr ⟨rfl, rfl, rfl, rfl⟩⟩
  | write width addr v =>
    obtain ⟨tgt, -, hstep⟩ := step_write h hv
    by_cases htgt : tgt = .reg .ctrl
    · subst htgt
      refine ⟨_, hstep.trans (congrArg _ hostWrite_ctrl), ?_⟩
      by_cases hsrst : v.getLsbD 1 = true
      · exact .inl (by rw [writeCtrl_resets hsrst, softReset_pending])
      · rw [writeCtrl_keepsRunning (Bool.eq_false_iff.2 hsrst)]
        exact .inr ⟨rfl, rfl, rfl, rfl⟩
    · exact ⟨_, hstep.trans (congrArg _ (hostWrite_busy (s := { s with script := rest }) hp htgt)),
        .inr ⟨rfl, rfl, rfl, rfl⟩⟩
  | sampleIrq => exact ⟨_, step_host h, .inr ⟨rfl, rfl, rfl, rfl⟩⟩
  | wait polls =>
    exact ⟨_, (step_host h).trans (hostAct_wait_busy (s := { s with script := rest }) polls hp),
      .inr ⟨rfl, rfl, rfl, rfl⟩⟩
  | powerOn => exact ⟨_, step_host h, .inl rfl⟩

/-! ## The bound (R362) -/

/-- How many steps the pending command may still take to its end: the engine's, after those of the
host's events to come, unless the first of them waits. -/
def stepsToIdle (script : List HostEvent) : Nat :=
  match script with
  | ⟨_, true⟩ :: _ => (script.map hostSteps).sum + 1
  | _ => 1

theorem stepsToIdle_le (script : List HostEvent) :
    stepsToIdle script ≤ (script.map hostSteps).sum + 1 := by
  unfold stepsToIdle
  split <;> omega

theorem one_le_stepsToIdle (script : List HostEvent) : 1 ≤ stepsToIdle script := by
  unfold stepsToIdle
  split <;> omega

theorem stepsToIdle_early (act : HostAction) (rest : List HostEvent) :
    stepsToIdle (⟨act, true⟩ :: rest) = hostSteps ⟨act, true⟩ + (rest.map hostSteps).sum + 1 := by
  rw [stepsToIdle, List.map_cons, List.sum_cons]

/-- Each host action that lands before the command's end brings that end nearer: of a WAIT one
poll fewer is left, and after its last poll it waits. -/
theorem stepsToIdle_remainingScript (act : HostAction) (rest : List HostEvent) :
    stepsToIdle (remainingScript act rest) < stepsToIdle (⟨act, true⟩ :: rest) := by
  have hrest := stepsToIdle_le rest
  rw [stepsToIdle_early]
  cases act with
  | wait polls =>
    match polls with
    | 0 | 1 | n + 2 => simp [remainingScript, waitEvent, stepsToIdle, hostSteps]
  | read | write | sampleIrq | powerOn =>
    simp only [remainingScript, hostSteps]
    omega

theorem exists_early_of_not_hostWaits {s : State} (hw : ¬s.hostWaits = true) :
    ∃ act rest, s.script = ⟨act, true⟩ :: rest := by
  unfold State.hostWaits at hw
  split at hw
  next => exact absurd rfl hw
  next e rest hscript =>
    obtain ⟨act, early⟩ := e
    obtain rfl : early = true := by simpa using hw
    exact ⟨act, rest, hscript⟩

section
variable {s t : State} {act : HostAction} {rest : List HostEvent}

/-- R83: which accesses are bus errors depends on AW only. -/
theorem validAction_congr (haw : t.aw = s.aw) (hv : ValidAction s act) : ValidAction t act := by
  cases act with
  | read | write =>
    rw [ValidAction, ValidAccess, haw]
    exact hv
  | sampleIrq | wait | powerOn => trivial

theorem StillRuns.streamsInBuf {script : List HostEvent} (h : StillRuns s t script)
    (hs : s.StreamsInBuf) : t.StreamsInBuf := by
  rw [State.StreamsInBuf, h.wr, h.rd, bufSize_congr h.aw]
  exact hs

theorem StillRuns.validScript (h : StillRuns s t (remainingScript act rest))
    (hv : ∀ e ∈ rest, ValidAction s e.act) : ∀ e ∈ t.script, ValidAction t e.act := by
  have hrest : ∀ e ∈ rest, ValidAction t e.act := fun e he =>
    validAction_congr h.aw (hv e he)
  rw [h.script]
  cases act with
  | wait polls => exact List.forall_mem_cons.2 ⟨trivial, hrest⟩
  | read | write | sampleIrq | powerOn => exact hrest

end

/-- R362: the pending command ends within its bound, by the engine or by a reset. -/
theorem reaches_idle {s : State} {n : Nat} (hs : s.StreamsInBuf)
    (hv : ∀ e ∈ s.script, ValidAction s e.act) (hn : stepsToIdle s.script ≤ n) :
    ∃ k t, k ≤ n ∧ Host.Core.run core k s = .next t ∧ t.pending = none := by
  induction n generalizing s with
  | zero => exact absurd ((one_le_stepsToIdle _).trans hn) (by decide)
  | succ n ih =>
    by_cases hp : s.pending = none
    · exact ⟨0, s, Nat.zero_le _, rfl, hp⟩
    by_cases hw : s.hostWaits = true
    · obtain ⟨t, hstep, hidle⟩ := step_engine_idle hs hp hw
      exact ⟨1, t, Nat.le_add_left _ _, run_succ hstep 0, hidle⟩
    obtain ⟨act, rest, hscript⟩ := exists_early_of_not_hostWaits hw
    rw [hscript] at hv hn
    obtain ⟨hact, hrest⟩ := List.forall_mem_cons.1 hv
    obtain ⟨t, hstep, hidle | hrun⟩ := step_host_busy hp ⟨true, hscript, .inr rfl⟩ hact
    · exact ⟨1, t, Nat.le_add_left _ _, run_succ hstep 0, hidle⟩
    · have hless := stepsToIdle_remainingScript act rest
      obtain ⟨k, u, hk, hu, hidle⟩ := ih (hrun.streamsInBuf hs) (hrun.validScript hrest)
        (by rw [hrun.script]; omega)
      exact ⟨k + 1, u, Nat.succ_le_succ hk, (run_succ hstep k).trans hu, hidle⟩

/-! ## A script's command with its WAIT (R116, R117) -/

section
variable {s : State} {rest : List HostEvent}

/-- R35, R110: acceptance of an encoded command shows its opcode as LASTOP. -/
theorem accept_encode (s : State) (i : Instr) : s.accept (encode i) = { s with
    pending := some (encode i)
    done := false, err := false, errCode := 0#8, lastOp := i.opcode } := by
  obtain ⟨hopc, -, -⟩ := Laws.EncodeFields.of_any i
  rw [← hopc]
  rfl

/-- R36, R49: the CMD write that a script's command begins with. -/
theorem step_scriptCmd {i : Instr} {polls : Nat} (hp : s.pending = none)
    (hscript : s.script = scriptCmd i polls ++ rest) :
    step s = .next { s.accept (encode i) with script := waitEvent polls :: rest } :=
  step_regWrite_idle (by decide) (by decide) hp ⟨false, hscript, .inl hp⟩

/-- R117: the polls of a WAIT that land before the command's end, each of which reads BUSY = 1. -/
theorem run_polls (polls : Nat) (hp : s.pending ≠ none) :
    ∃ v, (0 < polls ∨ s.busData.getLsbD 0 = true → v.getLsbD 0 = true) ∧
      ∀ k, Host.Core.run core (polls + k) { s with script := waitEvent polls :: rest } =
        Host.Core.run core k { s with script := waitEvent 0 :: rest, busData := v } := by
  induction polls generalizing s with
  | zero =>
    exact ⟨s.busData, fun h => h.resolve_left (Nat.lt_irrefl 0), fun k => by rw [Nat.zero_add]⟩
  | succ polls ih =>
    have hstep : step { s with script := waitEvent (polls + 1) :: rest } =
        .next { s with script := waitEvent polls :: rest, busData := s.statusWord } := by
      rw [step_host ⟨true, rfl, .inr rfl⟩]
      exact hostAct_wait_busy (s := { s with script := rest }) (polls + 1) hp
    obtain ⟨v, hv, hrun⟩ := ih (s := { s with busData := s.statusWord }) hp
    refine ⟨v, fun _ => hv (.inr ?_), fun k => ?_⟩
    · rw [statusWord_busyBit, Option.isSome_iff_ne_none]
      exact hp
    · rw [Nat.add_right_comm, run_succ hstep, hrun k]

/-- R117: the last poll of a WAIT reads the STATUS that the command left. -/
theorem step_lastPoll (hp : s.pending = none) (hscript : s.script = ⟨.wait 0, false⟩ :: rest) :
    step s = .next { s with script := rest, busData := s.statusWord } := by
  rw [step_host ⟨false, hscript, .inl hp⟩]
  exact hostAct_wait_idle (s := { s with script := rest }) 0 hp

/-- R90, R117: the run of a script's command: its CMD write, the polls that land before its end, the
command whole, and the last poll. -/
theorem run_scriptCmd {i : Instr} {polls : Nat} (hwf : i.wellFormed = true)
    (hp : s.pending = none) (hs : s.StreamsInBuf)
    (hscript : s.script = scriptCmd i polls ++ rest) :
    ∃ v u, exec i { s.accept (encode i) with script := ⟨.wait 0, false⟩ :: rest, busData := v } =
        .next u ∧
      (0 < polls → v.getLsbD 0 = true) ∧ u.pending = none ∧
      Host.Core.run core (polls + 3) s =
        .next { u with script := rest, busData := u.statusWord } := by
  obtain ⟨v, hv, hpolls⟩ := run_polls (s := s.accept (encode i)) (rest := rest) polls
    (Option.some_ne_none _)
  obtain ⟨u, hexec, hidle⟩ := exec_idle
    (s := { s.accept (encode i) with script := ⟨.wait 0, false⟩ :: rest, busData := v }) hs i
  have hengine := (step_engine rfl rfl (decode_eq_ok_iff.2 ⟨hwf, rfl⟩)).trans hexec
  refine ⟨v, u, hexec, fun hpos => hv (.inl hpos), hidle, ?_⟩
  calc Host.Core.run core (polls + 2 + 1) s
      _ = Host.Core.run core (polls + 2) _ := run_succ (step_scriptCmd hp hscript) _
      _ = Host.Core.run core 2 _ := hpolls 2
      _ = Host.Core.run core 1 u := run_succ hengine 1
      _ = .next { u with script := rest, busData := u.statusWord } :=
        run_succ (step_lastPoll hidle (exec_script hexec)) 0

end

end Sys2Proof.Machine

namespace Sys2Proof.Proofs

open Sys2Proof.Machine Sys2Proof.Claims

/-- Settles O21: the steps left to the pending command's end fall with every host action that lands
before it; a script's command is its CMD write, its polls, the engine's step and the last poll. -/
theorem engineBecomesIdle : Obligations.EngineBecomesIdle := by
  refine ⟨fun s hs hv => reaches_idle hs hv (stepsToIdle_le s.script),
    fun s i polls rest hwf hp hs hscript => ?_⟩
  have hrun := run_scriptCmd hwf hp hs hscript
  rw [accept_encode] at hrun
  exact hrun

end Sys2Proof.Proofs
end
